-- ==== Sys2Proof/Word.lean ====
section
/-! DEFINITION. The word types of the bus sequencer: the fixed widths of 00_scope R17. -/

namespace Sys2Proof

/-- Every bus byte, register address, register value, strobe code and status value (R17). -/
abbrev Byte := BitVec 8

/-- The masked operating state of the peer, 5 bits (R17, R45). -/
abbrev RadioState := BitVec 5

/-- The address field `A` of a wire header, bits 5:0 (R91). -/
abbrev RegAddr := BitVec 6

end Sys2Proof
end

