-- ==== Sys2Proof/Config.lean ====
section
/-! DEFINITION. What is fixed for the life of one block (00_scope R9 to R16, 10_state R52), and the free values:
the peer's answers (R7, 93 U2) and the parameters the spec leaves OPEN (93 U14, U15). -/

namespace Sys2Proof

/-- The named constants of R15 (addresses, header bits, strobe codes) and R16 (MARCSTATE codes): "a model takes the
table as a configuration record". -/
structure PeerTable where
  readBit : Byte
  burstBit : Byte
  regFreq2 : Byte
  regMdmcfg2 : Byte
  regFrend0 : Byte
  addrPatable : Byte
  addrFifo : Byte
  statusMarcstate : Byte
  statusRxbytes : Byte
  strobeSres : Byte
  strobeSrx : Byte
  strobeStx : Byte
  strobeSidle : Byte
  strobeSfrx : Byte
  strobeSftx : Byte
  msRx : RadioState
  msRxfifoOverflow : RadioState
  msTx : RadioState
  msTxEnd : RadioState
  deriving DecidableEq, Repr

/-- `READ_BURST_BITS = READ_BIT | BURST_BIT` (R15). -/
def PeerTable.readBurstBits (t : PeerTable) : Byte := t.readBit ||| t.burstBit

/-- The parameters of one block instance (R9 to R16, R34): `F_XOSC`, `FIFO_CAPACITY`, `READY_POLL_LIMIT`,
`STATE_POLL_LIMIT`, `DUMMY_BYTE`, `BUSY_ACTIVE_HIGH` and the peer's table. The delays of R13 are names only. -/
structure Params where
  fXosc : Nat
  fifoCapacity : Nat
  readyPollLimit : Nat
  statePollLimit : Nat
  dummyByte : Byte
  busyActiveHigh : Bool
  peer : PeerTable
  deriving DecidableEq, Repr

/-- The bounds the spec puts on the parameters (R9, R10, R11, R12). -/
def Params.wf (p : Params) : Bool :=
  decide (0 < p.fXosc) && decide (p.fifoCapacity ≤ 255) &&
    decide (1 ≤ p.readyPollLimit) && decide (1 ≤ p.statePollLimit)

/-- The values of R15 and R16 (the CC1101's). -/
def Config.cc1101 : PeerTable where
  readBit := 0x80
  burstBit := 0x40
  regFreq2 := 0x0D
  regMdmcfg2 := 0x12
  regFrend0 := 0x22
  addrPatable := 0x3E
  addrFifo := 0x3F
  statusMarcstate := 0xF5
  statusRxbytes := 0xFB
  strobeSres := 0x30
  strobeSrx := 0x34
  strobeStx := 0x35
  strobeSidle := 0x36
  strobeSfrx := 0x3A
  strobeSftx := 0x3B
  msRx := 0x0D
  msRxfifoOverflow := 0x11
  msTx := 0x13
  msTxEnd := 0x14

/-- `DUMMY_BYTE` (R14). -/
def Config.dummyByte : Byte := 0x00

/-- `F_XOSC` at the spec's crystal (R9). -/
def Config.crystal26MHz : Nat := 26000000

/-- `FIFO_CAPACITY` (R10). -/
def Config.fifoCapacity : Nat := 64

/-- The FREND0 byte that selects front-end-TX index 1, for OOK (R191, R192). -/
def Config.frend0Ook : Byte := 0x11

/-- The FREND0 byte that selects front-end-TX index 0 (R192, R247). -/
def Config.frend0Index0 : Byte := 0x10

/-- `READY_POLL_LIMIT - 1`: OPEN (R11). A free value; log entry 3. -/
opaque Config.readyPollExtra : Nat

/-- `STATE_POLL_LIMIT - 1`: OPEN (R12). A free value; log entry 3. -/
opaque Config.statePollExtra : Nat

/-- `BUSY_ACTIVE_HIGH`: OPEN (R34, 93 U14). A free value; log entry 3. -/
opaque Config.busyActiveHigh : Bool

/-- The level of the busy input at the n-th busy read that no listed answer covers (R7, 93 U2). A free value; log entry 2. -/
opaque Config.freeBusyLevel : Nat → Bool

/-- The answer of the n-th exchange that no listed answer covers: `none` is a failed exchange (R7, 93 U2, U13).
A free value; log entry 2. -/
opaque Config.freeXfer : Nat → Option Byte

/-- The parameters with every value the spec gives, and the OPEN ones free. -/
def Config.params : Params where
  fXosc := Config.crystal26MHz
  fifoCapacity := Config.fifoCapacity
  readyPollLimit := Config.readyPollExtra + 1
  statePollLimit := Config.statePollExtra + 1
  dummyByte := Config.dummyByte
  busyActiveHigh := Config.busyActiveHigh
  peer := Config.cc1101

end Sys2Proof
end

