-- ==== Sys2Proof/Syntax.lean ====
section
/-! DEFINITION. `Instr`: one constructor per row of spec/opcode_table.json. The first eighteen are the operations of
the command port (30_encoding R102). The others are the table's wire rows: the five header forms (R91, R96) and the
fourteen strobe codes (42_register_access R160 to R173), each a frame the block puts on the bus. -/

namespace Sys2Proof

inductive Instr where
  /-- `01 k b0..b(k-1)`, R132. -/
  | transact (bytes : List Byte)
  /-- `02`, R134. -/
  | reset
  /-- `10 a`, R151. -/
  | readSingle (a : Byte)
  /-- `11 a k`, R152. -/
  | readBurst (a k : Byte)
  /-- `12 a v`, R153. -/
  | writeSingle (a v : Byte)
  /-- `13 a k v0..v(k-1)`, R154. -/
  | writeBurst (a : Byte) (vs : List Byte)
  /-- `14 v`, R155. -/
  | strobe (v : Byte)
  /-- `20 s`, R191. -/
  | setModType (s : Byte)
  /-- `21 s`, R193. -/
  | setSyncMode (s : Byte)
  /-- `22 s`, R195. -/
  | setManchester (b : Bool)
  /-- `23 s`, R196. -/
  | setDcFilter (b : Bool)
  /-- `24 f3 f2 f1 f0`, R202. -/
  | setFrequency (hz : BitVec 32)
  /-- `25`, R204. -/
  | getFrequency
  /-- `30`, R231. -/
  | enterReceive
  /-- `31`, R232. -/
  | enterTransmit
  /-- `32 k p0..p(k-1)`, R235. -/
  | sendPacket (p : List Byte)
  /-- `33`, R240. -/
  | receivePacket
  /-- `34 l1 l0`, R245. -/
  | setTxPower (level : BitVec 16)
  /-- Wire form: header `00 A`, one value byte, R153. -/
  | hdrWriteSingle (a : RegAddr) (v : Byte)
  /-- Wire form: header `01 A`, then values, R154. -/
  | hdrWriteBurst (a : RegAddr) (vs : List Byte)
  /-- Wire form: header `10 A`, one dummy byte, R151. -/
  | hdrReadSingle (a : RegAddr)
  /-- Wire form: header `11 A`, then `k` dummy bytes, R152. -/
  | hdrReadBurst (a : RegAddr) (k : Byte)
  /-- Wire form: header `0xF0..0xFD`, one dummy byte, R96 and R156. -/
  | hdrStatusRead (a : RegAddr)
  /-- Strobe `0x30`, R160. -/
  | sres
  /-- Strobe `0x31`, R161. -/
  | sfstxon
  /-- Strobe `0x32`, R162. -/
  | sxoff
  /-- Strobe `0x33`, R163. -/
  | scal
  /-- Strobe `0x34`, R164. -/
  | srx
  /-- Strobe `0x35`, R165. -/
  | stx
  /-- Strobe `0x36`, R166. -/
  | sidle
  /-- Strobe code `0x37`, for which the peer defines nothing, R167. -/
  | reserved37
  /-- Strobe `0x38`, R168. -/
  | swor
  /-- Strobe `0x39`, R169. -/
  | spwd
  /-- Strobe `0x3A`, R170. -/
  | sfrx
  /-- Strobe `0x3B`, R171. -/
  | sftx
  /-- Strobe `0x3C`, R172. -/
  | sworrst
  /-- Strobe `0x3D`, R173. -/
  | snop
  deriving DecidableEq, Repr

/-- The operations of the command port (R102), the only ones a host can spell (R90). -/
def Instr.onCommandPort : Instr → Bool
  | .transact _ | .reset | .readSingle _ | .readBurst _ _ | .writeSingle _ _ | .writeBurst _ _ | .strobe _
  | .setModType _ | .setSyncMode _ | .setManchester _ | .setDcFilter _ | .setFrequency _ | .getFrequency
  | .enterReceive | .enterTransmit | .sendPacket _ | .receivePacket | .setTxPower _ => true
  | .hdrWriteSingle _ _ | .hdrWriteBurst _ _ | .hdrReadSingle _ | .hdrReadBurst _ _ | .hdrStatusRead _
  | .sres | .sfstxon | .sxoff | .scal | .srx | .stx | .sidle | .reserved37 | .swor | .spwd | .sfrx | .sftx
  | .sworrst | .snop => false

end Sys2Proof
end

