-- ==== Sys2Proof/WellFormed.lean ====
section
/-! DEFINITION. Which terms of `Instr` an encoding exists for: the counts of 30_encoding R102 are one byte, and the
wire rows keep the priorities of the opcode table (status reads and strobes before the plain header forms). -/

namespace Sys2Proof

/-- A status-register address field: `A` in `0x30..0x3D` (R96). -/
def isStatusField (a : RegAddr) : Bool := decide (0x30 ≤ a.toNat) && decide (a.toNat ≤ 0x3D)

/-- A list whose length fits the one-byte count `k` (R100, R102). -/
def fitsCount (bs : List Byte) : Bool := decide (bs.length ≤ 255)

def Instr.wellFormed : Instr → Bool
  | .transact bs => fitsCount bs
  | .writeBurst _ vs => fitsCount vs
  | .sendPacket p => fitsCount p
  | .hdrWriteBurst _ vs => fitsCount vs
  | .hdrReadBurst a k => !(isStatusField a && decide (k = 1))
  | .hdrStatusRead a => isStatusField a
  | .reset | .readSingle _ | .readBurst _ _ | .writeSingle _ _ | .strobe _ | .setModType _ | .setSyncMode _
  | .setManchester _ | .setDcFilter _ | .setFrequency _ | .getFrequency | .enterReceive | .enterTransmit
  | .receivePacket | .setTxPower _ | .hdrWriteSingle _ _ | .hdrReadSingle _ | .sres | .sfstxon | .sxoff | .scal
  | .srx | .stx | .sidle | .reserved37 | .swor | .spwd | .sfrx | .sftx | .sworrst | .snop => true

end Sys2Proof
end

