-- ==== Sys2Proof/Decode.lean ====
section
/-! DEFINITION. The two encodings of 30_encoding: the command port (R100 to R106), which the block decodes, and the
wire forms (R91 to R99), which the block composes. Decoders first, total on any bytes; then the encoder. -/

namespace Sys2Proof

/-- Why a byte string is no command (R104 (a), (b), (c)), or no wire row of the opcode table. -/
inductive DecodeError where
  /-- The empty byte string: no `c[0]` (log entry 9). -/
  | emptyCommand
  /-- R104 (a). -/
  | badOpcode
  /-- R104 (b). -/
  | badLength
  /-- R104 (c). -/
  | badBoolean
  /-- A frame that is none of the wire rows. -/
  | notAWireRow
  deriving DecidableEq, Repr

/-- Operand shapes: exactly this many operand bytes, else R104 (b). -/
def operands0 (i : Instr) : List Byte → Except DecodeError Instr
  | [] => .ok i
  | _ => .error .badLength

def operands1 (f : Byte → Except DecodeError Instr) : List Byte → Except DecodeError Instr
  | [x] => f x
  | _ => .error .badLength

def operands2 (f : Byte → Byte → Instr) : List Byte → Except DecodeError Instr
  | [x, y] => .ok (f x y)
  | _ => .error .badLength

/-- A count byte and exactly that many bytes (R100, R104 (b)). -/
def operandsCounted (f : List Byte → Instr) : List Byte → Except DecodeError Instr
  | k :: bs => if bs.length = k.toNat then .ok (f bs) else .error .badLength
  | [] => .error .badLength

/-- A boolean operand: `0x00` false, `0x01` true, else R104 (c). -/
def operandBool (f : Bool → Instr) (x : Byte) : Except DecodeError Instr :=
  if x = 0x00 then .ok (f false) else if x = 0x01 then .ok (f true) else .error .badBoolean

/-- Operand assembly, big-endian (R66, R103): `hz = f3<<24 | f2<<16 | f1<<8 | f0`. -/
def assembleHz (f3 f2 f1 f0 : Byte) : BitVec 32 := f3 ++ f2 ++ f1 ++ f0

/-- Operand assembly, big-endian (R66, R103): `level = l1<<8 | l0`. -/
def assembleLevel (l1 l0 : Byte) : BitVec 16 := l1 ++ l0

/-- The operand bytes `args` of opcode `op` (R102). -/
def decodeOperands (op : Byte) (args : List Byte) : Except DecodeError Instr :=
  if op = 0x01 then operandsCounted .transact args
  else if op = 0x02 then operands0 .reset args
  else if op = 0x10 then operands1 (fun a => .ok (.readSingle a)) args
  else if op = 0x11 then operands2 .readBurst args
  else if op = 0x12 then operands2 .writeSingle args
  else if op = 0x13 then
    match args with
    | a :: rest => operandsCounted (.writeBurst a) rest
    | [] => .error .badLength
  else if op = 0x14 then operands1 (fun v => .ok (.strobe v)) args
  else if op = 0x20 then operands1 (fun s => .ok (.setModType s)) args
  else if op = 0x21 then operands1 (fun s => .ok (.setSyncMode s)) args
  else if op = 0x22 then operands1 (operandBool .setManchester) args
  else if op = 0x23 then operands1 (operandBool .setDcFilter) args
  else if op = 0x24 then
    match args with
    | [f3, f2, f1, f0] => .ok (.setFrequency (assembleHz f3 f2 f1 f0))
    | _ => .error .badLength
  else if op = 0x25 then operands0 .getFrequency args
  else if op = 0x30 then operands0 .enterReceive args
  else if op = 0x31 then operands0 .enterTransmit args
  else if op = 0x32 then operandsCounted .sendPacket args
  else if op = 0x33 then operands0 .receivePacket args
  else if op = 0x34 then operands2 (fun l1 l0 => .setTxPower (assembleLevel l1 l0)) args
  else .error .badOpcode

/-- The command-port decoder (R100 to R105): the checks in the order (a), (b), (c) of R104. -/
def decodeCommand : List Byte → Except DecodeError Instr
  | [] => .error .emptyCommand
  | op :: args => decodeOperands op args

/-- R106: the length of the command that starts with these bytes; `none` where the opcode is illegal or the count
byte is missing. -/
def commandLength : List Byte → Option Nat
  | [] => none
  | op :: args =>
    if op = 0x01 ∨ op = 0x32 then args[0]?.map (fun k => 2 + k.toNat)
    else if op = 0x13 then args[1]?.map (fun k => 3 + k.toNat)
    else if op = 0x02 ∨ op = 0x25 ∨ op = 0x30 ∨ op = 0x31 ∨ op = 0x33 then some 1
    else if op = 0x10 ∨ op = 0x14 ∨ op = 0x20 ∨ op = 0x21 ∨ op = 0x22 ∨ op = 0x23 then some 2
    else if op = 0x11 ∨ op = 0x12 ∨ op = 0x34 then some 3
    else if op = 0x24 then some 5
    else none

/-- The strobe rows of the table, by code (R160 to R173). -/
def strobeRow (h : Byte) : Option Instr :=
  if h = 0x30 then some .sres
  else if h = 0x31 then some .sfstxon
  else if h = 0x32 then some .sxoff
  else if h = 0x33 then some .scal
  else if h = 0x34 then some .srx
  else if h = 0x35 then some .stx
  else if h = 0x36 then some .sidle
  else if h = 0x37 then some .reserved37
  else if h = 0x38 then some .swor
  else if h = 0x39 then some .spwd
  else if h = 0x3A then some .sfrx
  else if h = 0x3B then some .sftx
  else if h = 0x3C then some .sworrst
  else if h = 0x3D then some .snop
  else none

/-- The header rows of the table: `RW` bit 7, `B` bit 6, `A` bits 5:0 (R91), a status read before a burst read (R96). -/
def headerRow (h : Byte) (data : List Byte) : Except DecodeError Instr :=
  let a : RegAddr := h.extractLsb' 0 6
  if h.getLsbD 7 then
    if h.getLsbD 6 then
      if isStatusField a && decide (data = [Config.dummyByte]) then .ok (.hdrStatusRead a)
      else if fitsCount data && decide (data = List.replicate data.length Config.dummyByte) then
        .ok (.hdrReadBurst a (BitVec.ofNat 8 data.length))
      else .error .notAWireRow
    else if data = [Config.dummyByte] then .ok (.hdrReadSingle a) else .error .notAWireRow
  else if h.getLsbD 6 then
    if fitsCount data then .ok (.hdrWriteBurst a data) else .error .notAWireRow
  else
    match data with
    | [v] => .ok (.hdrWriteSingle a v)
    | _ => .error .notAWireRow

/-- The wire rows, from the bytes of one frame: a one-byte frame of a strobe code is a strobe (R95), else by header. It
reads what the block composes, so that a header can be checked bit for bit (R90), and the words of the opcode table; it
is no part of the machine: no step calls it (log entry 5). -/
def decodeWire : List Byte → Except DecodeError Instr
  | [] => .error .notAWireRow
  | h :: data =>
    match data, strobeRow h with
    | [], some i => .ok i
    | _, _ => headerRow h data

/-- The bytes of an instruction: a command (R102) or, for a wire row, the frame (R91, R95 to R98). -/
def encode : Instr → List Byte
  | .transact bs => 0x01 :: BitVec.ofNat 8 bs.length :: bs
  | .reset => [0x02]
  | .readSingle a => [0x10, a]
  | .readBurst a k => [0x11, a, k]
  | .writeSingle a v => [0x12, a, v]
  | .writeBurst a vs => 0x13 :: a :: BitVec.ofNat 8 vs.length :: vs
  | .strobe v => [0x14, v]
  | .setModType s => [0x20, s]
  | .setSyncMode s => [0x21, s]
  | .setManchester b => [0x22, if b then 0x01 else 0x00]
  | .setDcFilter b => [0x23, if b then 0x01 else 0x00]
  | .setFrequency hz =>
    [0x24, hz.extractLsb' 24 8, hz.extractLsb' 16 8, hz.extractLsb' 8 8, hz.extractLsb' 0 8]
  | .getFrequency => [0x25]
  | .enterReceive => [0x30]
  | .enterTransmit => [0x31]
  | .sendPacket p => 0x32 :: BitVec.ofNat 8 p.length :: p
  | .receivePacket => [0x33]
  | .setTxPower level => [0x34, level.extractLsb' 8 8, level.extractLsb' 0 8]
  | .hdrWriteSingle a v => [0b00#2 ++ a, v]
  | .hdrWriteBurst a vs => (0b01#2 ++ a) :: vs
  | .hdrReadSingle a => [0b10#2 ++ a, Config.dummyByte]
  | .hdrReadBurst a k => (0b11#2 ++ a) :: List.replicate k.toNat Config.dummyByte
  | .hdrStatusRead a => [0b11#2 ++ a, Config.dummyByte]
  | .sres => [0x30]
  | .sfstxon => [0x31]
  | .sxoff => [0x32]
  | .scal => [0x33]
  | .srx => [0x34]
  | .stx => [0x35]
  | .sidle => [0x36]
  | .reserved37 => [0x37]
  | .swor => [0x38]
  | .spwd => [0x39]
  | .sfrx => [0x3A]
  | .sftx => [0x3B]
  | .sworrst => [0x3C]
  | .snop => [0x3D]

/-- The bytes of a table word, first byte in bits 7:0. -/
def tableBytes (nbits w : Nat) : List Byte :=
  (List.range ((nbits + 7) / 8)).map (fun k => BitVec.ofNat 8 (w >>> (8 * k)))

/-- A table word as a command: its bytes, then zero bytes up to the length R106 reads off them. -/
def tableCommand (nbits w : Nat) : List Byte :=
  let bs := tableBytes nbits w
  let padded := bs ++ List.replicate 258 0
  padded.take (max bs.length ((commandLength padded).getD bs.length))

/-- A table word as a frame: a strobe code alone; any other lone header with one zero byte after it. -/
def tableFrame (nbits w : Nat) : List Byte :=
  match tableBytes nbits w with
  | [h] => if (strobeRow h).isSome then [h] else [h, 0]
  | bs => bs

/-- The decoder on a word of spec/opcode_table.json. The command rows and the wire rows share byte values, and the
block decodes only commands (R90): a word that is a command is that command, any other is read as a wire row (log entry
8). No step calls this. -/
def decodeTableWord (nbits w : Nat) : Option Instr :=
  match decodeCommand (tableCommand nbits w) with
  | .ok i => some i
  | .error _ =>
    match decodeWire (tableFrame nbits w) with
    | .ok i => some i
    | .error _ => none

end Sys2Proof
end

