-- ==== Sys2Proof/Machine/State.lean ====
section
/-! DEFINITION. The state of one bus sequencer (10_state R30 to R53) as plain data, the outcomes of a step, and the
state after power-on reset (R51). The block has no memory: the registers of the peer are not block state
(10_state section 5) and reach it only as the peer's answers. -/

namespace Sys2Proof.Machine

/-- The error codes of R270. -/
inductive Err where
  | ok
  | transportError
  | invalidArgument
  | payloadTooLarge
  | stateTransitionTimeout
  | readyTimeout
  | illegalCommand
  deriving DecidableEq, Repr

/-- The response register `S.resp` (R32): an error code and data bytes. -/
structure Response where
  err : Err
  data : List Byte
  deriving DecidableEq, Repr

/-- The named delays (R13). -/
inductive DelayName where
  | readyPoll
  | statePoll
  | rst1
  | rst2
  | settle
  deriving DecidableEq, Repr

/-- The events of the trace (R18, R20). -/
inductive Event where
  /-- `CS(a)`. -/
  | cs (asserted : Bool)
  /-- `BUSY(v)`, the logical value. -/
  | busy (v : Bool)
  /-- `XFER(b, r)`. -/
  | xfer (sent got : Byte)
  /-- `XFERFAIL(b)`. -/
  | xferFail (sent : Byte)
  /-- `DELAY(T)`. -/
  | delay (d : DelayName)
  deriving DecidableEq, Repr

/-- The exit conditions of the state poll (R231, R232, R235). -/
inductive PollExit where
  | isRx
  | isTx
  | leftTx
  deriving DecidableEq, Repr

/-- What the sequencer does once the frame in progress is complete (R31): go on, end with the received bytes less the
first `drop`, test MARCSTATE with `left` more reads allowed (R230), or one of receivePacket's two tests (R240). -/
inductive After where
  | go
  | reply (drop : Nat)
  | poll (exit : PollExit) (left : Nat)
  | receiveState
  | receiveCount
  deriving DecidableEq, Repr

/-- One entry of the sequencer position (R31): exactly one primitive action of R18, or the write of the response. -/
inductive Micro where
  /-- `CsSet(1)`, the start of a frame. -/
  | assert
  /-- `CsSet(0)`, then what follows the frame. -/
  | release (after : After)
  /-- One `BusyRead` of a ready-wait, with `left` more reads allowed (R130). -/
  | busyRead (left : Nat)
  /-- One exchange. -/
  | exchange (b : Byte)
  /-- One named delay. -/
  | delay (d : DelayName)
  /-- The final write of the response (R8, R32). -/
  | respond (r : Response)
  deriving DecidableEq, Repr

/-- What waits for the sequencer: a byte string of the command port (R100), or a wire row of the opcode table. A row is
held as the operation itself, never as bytes, so that no step decodes a header byte (R90); no host action makes one
(log entry 5). -/
inductive Request where
  | command (bytes : List Byte)
  | row (i : Instr)
  deriving DecidableEq, Repr

structure State where
  /-- The parameters of the instance; no operation writes them (R52). -/
  params : Params
  /-- `S.cs`: true = asserted (R33). -/
  cs : Bool
  /-- `S.active` (R42). -/
  active : Bool
  /-- The sequencer position (R31): the actions still to do; `[]` is "no operation". -/
  seq : List Micro
  /-- The bytes received so far in the frame in progress: the local `rx` of R131. -/
  rx : List Byte
  /-- `S.dcfilter` (R36). -/
  dcfilter : Byte
  /-- `S.modtype` (R37). -/
  modtype : Byte
  /-- `S.manchester` (R38). -/
  manchester : Byte
  /-- `S.syncmode` (R39). -/
  syncmode : Byte
  /-- `S.resp` (R32): `none` is the spec's own state "holds no value", its reset value (R32, R51). -/
  resp : Option Response
  /-- The command waiting on the command port (R100). -/
  port : Option Request
  /-- The peer's answers to the coming busy reads, as logic levels (R7, R34): the model's own field. -/
  busyIn : List Bool
  /-- The peer's answers to the coming exchanges, `none` = failed (R7, R18): the model's own field. -/
  xferIn : List (Option Byte)
  /-- How many busy answers were drawn: the counter of `Config.freeBusyLevel` (the model's own field). -/
  busyDrawn : Nat
  /-- How many exchange answers were drawn: the counter of `Config.freeXfer` (the model's own field). -/
  xferDrawn : Nat
  /-- The events so far, oldest first (R20). -/
  trace : List Event
  deriving DecidableEq, Repr

/-- Why the machine stops with a fault. -/
inductive Fault where
  /-- The host read `S.resp` before the first operation completed: "a model must fault on it" (R32; R51, 93 U1). Raised
  by `readResponse` only, by no instruction and no step. Safe. -/
  | responseNotWritten
  /-- The block is active and its sequencer position is empty. Raised by `tick` only, in states no run reaches. Safe. -/
  | noPosition
  deriving DecidableEq, Repr

/-- Why an action is refused. -/
inductive Refusal where
  /-- An instruction without a meaning. Raised by no arm of `exec`. Safe. -/
  | notModelled (mnemonic : String)
  /-- The host issued a command while one executes (R284, 93 U10): no move. Raised by `issue` only. Safe. -/
  | commandWhileActive
  /-- The host issued a command while another still waits (log entry 10): no move. Raised by `issue` only. Safe. -/
  | commandWaiting
  deriving DecidableEq, Repr

/-- Power-on reset (R51, R300): no bus action, the shadows zero, no response. -/
def State.reset : State where
  params := Config.params
  cs := false
  active := false
  seq := []
  rx := []
  dcfilter := 0x00
  modtype := 0x00
  manchester := 0x00
  syncmode := 0x00
  resp := none
  port := none
  busyIn := []
  xferIn := []
  busyDrawn := 0
  xferDrawn := 0
  trace := []

end Sys2Proof.Machine
end

