-- ==== Sys2Proof/Machine/Flags.lean ====
section
/-! DEFINITION. The status an operation produces (the block has no condition codes, R32): error codes and response
bytes, and the fields the block reads out of the peer's status bytes. -/

namespace Sys2Proof.Machine

/-- The numeric error codes (R270). -/
def Err.code : Err → Byte
  | .ok => 0x00
  | .transportError => 0x01
  | .invalidArgument => 0x02
  | .payloadTooLarge => 0x03
  | .stateTransitionTimeout => 0x04
  | .readyTimeout => 0x05
  | .illegalCommand => 0x06

/-- The response as the byte string `[err, k, d0, ..., d(k-1)]` (R101). -/
def Response.bytes (r : Response) : List Byte :=
  r.err.code :: BitVec.ofNat 8 r.data.length :: r.data

/-- The masked operating state: `MARCSTATE & 0x1F` (R45, R230). -/
def radioState (marcstate : Byte) : RadioState := marcstate.extractLsb' 0 5

/-- The RX byte count: `RXBYTES & 0x7F`, the overflow flag bit dropped (R46, R241). -/
def rxCount (rxbytes : Byte) : Nat := (rxbytes &&& 0x7F).toNat

/-- The exit conditions `done` of the state polls (R231, R232, R235, R236). -/
def PollExit.done (e : PollExit) (t : PeerTable) (m : RadioState) : Bool :=
  match e with
  | .isRx => decide (m = t.msRx)
  | .isTx => decide (m = t.msTx)
  | .leftTx => decide (m ≠ t.msTx) && decide (m ≠ t.msTxEnd)

/-- The states MARCSTATE can report (R45); `none` for the codes that are not defined. -/
def radioStateName (m : RadioState) : Option String :=
  (["SLEEP", "IDLE", "XOFF", "VCOON_MC", "REGON_MC", "MANCAL", "VCOON", "REGON", "STARTCAL", "BWBOOST", "FS_LOCK",
    "IFADCON", "ENDCAL", "RX", "RX_END", "RX_RST", "TXRX_SWITCH", "RXFIFO_OVERFLOW", "FSTXON", "TX", "TX_END",
    "RXTX_SWITCH", "TXFIFO_UNDERFLOW"])[m.toNat]?

end Sys2Proof.Machine
end

