-- ==== Sys2Proof/Machine/Operands.lean ====
section
/-! DEFINITION. What an operation computes from its operands before it touches the bus: headers (R150), the packed
modem byte (R40), selectors (R192, R193), the frequency word (R200 to R203), payloads and the power table. -/

namespace Sys2Proof.Machine

/-- `Hdr(addr, opbits) = addr | opbits` (R150): no mask, no check of the address. -/
def hdr (addr opbits : Byte) : Byte := addr ||| opbits

/-- `Packed(S)` (R40). -/
def State.packed (s : State) : Byte :=
  (s.dcfilter &&& 0x80) ||| (s.modtype &&& 0x70) ||| (s.manchester &&& 0x08) ||| (s.syncmode &&& 0x07)

/-- The supported modulation selectors (R192). -/
def supportedModulation (s : Byte) : Bool :=
  decide (s = 0x00) || decide (s = 0x01) || decide (s = 0x03) || decide (s = 0x04) || decide (s = 0x07)

/-- `S.modtype <- s << 4` (R191). -/
def modulationShadow (s : Byte) : Byte := s <<< 4

/-- The FREND0 byte of a modulation type: OOK selects index 1, the others index 0 (R191, R192). -/
def modulationFrend0 (s : Byte) : Byte := if s = 0x03 then Config.frend0Ook else Config.frend0Index0

/-- The supported sync selectors: `0..7` (R193). -/
def supportedSyncMode (s : Byte) : Bool := decide (s.toNat ≤ 0x07)

/-- The Manchester sub-field of a boolean (R195). -/
def manchesterShadow (b : Bool) : Byte := if b then 0x08 else 0x00

/-- The DC-filter sub-field of a boolean (R196). -/
def dcfilterShadow (b : Bool) : Byte := if b then 0x80 else 0x00

/-- `Encode(hz) = (2 * hz * 65536 + F_XOSC) div (2 * F_XOSC)` (R200). -/
def freqEncode (fXosc hz : Nat) : Nat := (2 * hz * 65536 + fXosc) / (2 * fXosc)

/-- `FreqBytes(w) = [w[23:16], w[15:8], w[7:0]]` (R201). -/
def freqBytes (w : Nat) : List Byte :=
  [BitVec.ofNat 8 (w >>> 16), BitVec.ofNat 8 (w >>> 8), BitVec.ofNat 8 w]

/-- `w = b[0] << 16 | b[1] << 8 | b[2]` (R204). -/
def freqWord (b0 b1 b2 : Byte) : Nat := b0.toNat <<< 16 ||| b1.toNat <<< 8 ||| b2.toNat

/-- `Decode(w) = w * F_XOSC / 65536`, an exact rational (R203). -/
def freqDecode (fXosc w : Nat) : Rat := (w * fXosc : Nat) / (65536 : Nat)

/-- `DecodeHz(w) = floor(Decode(w) + 1/2)` (R203). -/
def freqDecodeHz (fXosc w : Nat) : Nat := (2 * w * fXosc + 65536) / (2 * 65536)

/-- `Framed(p) = [len(p)] ++ p` (R234). -/
def framedPayload (p : List Byte) : List Byte := BitVec.ofNat 8 p.length :: p

/-- The power table: entry 0 `level`, entries 1 to 7 zero (R245, R246). -/
def powerTable (level : Byte) : List Byte := level :: List.replicate 7 0x00

/-- The address operand a wire row's field `A` stands for (R91). -/
def fieldAddr (a : RegAddr) : Byte := 0b00#2 ++ a

/-- The status address of a field `A` (R96). -/
def statusAddr (a : RegAddr) : Byte := 0b11#2 ++ a

end Sys2Proof.Machine
end

