-- ==== Sys2Proof/Machine/Ops.lean ====
section
/-! DEFINITION. The shared operations: the primitive actions (R18), raising an error and writing the response
(R19, R279, R280), the ready-wait (R130) and the frame (R131), and running one operation from its acceptance to its
response (R100, R8). -/

namespace Sys2Proof.Machine

/-- A piece of an operation: it ends with a value, or it has raised an error; either way the state goes on. -/
abbrev Op (α : Type) := EStateM Err State α

/-- The logical value of the k-th busy read to come: the level on the input against `BUSY_ACTIVE_HIGH` (R18, R34). -/
def State.busyAt (s : State) (k : Nat) : Bool :=
  (s.busyIn[k]?).getD (Config.freeBusyLevel (s.busyDrawn + k)) == s.params.busyActiveHigh

/-- The answer of the k-th exchange to come (R18). -/
def State.xferAt (s : State) (k : Nat) : Option Byte :=
  (s.xferIn[k]?).getD (Config.freeXfer (s.xferDrawn + k))

/-- Append one event to the trace (R18). -/
def State.log (s : State) (e : Event) : State := { s with trace := s.trace ++ [e] }

/-- `CsSet(a)` (R18). -/
def State.csSet (s : State) (a : Bool) : State := { s with cs := a }.log (.cs a)

/-- The state after one `BusyRead` (R18): one answer drawn, its event recorded. -/
def State.busyNext (s : State) : State :=
  { s with busyIn := s.busyIn.tail, busyDrawn := s.busyDrawn + 1 }.log (.busy (s.busyAt 0))

/-- The event of `Xfer(b)` with answer `a` (R18). -/
def xferEvent (b : Byte) : Option Byte → Event
  | some r => .xfer b r
  | none => .xferFail b

/-- The state after one `Xfer(b)` (R18): one answer drawn, its event recorded. -/
def State.xferNext (s : State) (b : Byte) : State :=
  { s with xferIn := s.xferIn.tail, xferDrawn := s.xferDrawn + 1 }.log (xferEvent b (s.xferAt 0))

/-- `Delay(T)` (R18): a named event, no time (R20). -/
def State.wait (s : State) (d : DelayName) : State := s.log (.delay d)

/-- What an error does to chip-select (R19, R279 (1)): release it if it is asserted. -/
def State.releaseIfHeld (s : State) : State := if s.cs then s.csSet false else s

/-- Acceptance of a command: `S.active <- 1` (R42, R100). -/
def State.accept (s : State) : State := { s with active := true }

/-- The end of an operation: the response is written, the block is idle (R32, R42, R279 (3), R280). -/
def State.respond (s : State) (r : Response) : State :=
  { s with resp := some r, active := false, seq := [], rx := [] }

def csSet (a : Bool) : Op Unit := fun s => .ok () (s.csSet a)

def busyRead : Op Bool := fun s => .ok (s.busyAt 0) s.busyNext

def delay (d : DelayName) : Op Unit := fun s => .ok () (s.wait d)

/-- `raise E`: the shared operation of taking an error (R19, R279). What follows it in the operation is not run. -/
def raise {α : Type} (e : Err) : Op α := fun s => .error e s.releaseIfHeld

/-- One exchange, a failed one raising TransportError (R131, R271). -/
def exchange (b : Byte) : Op Byte := fun s =>
  match s.xferAt 0 with
  | some r => .ok r (s.xferNext b)
  | none => raise .transportError (s.xferNext b)

/-- The parameters of the instance. -/
def params : Op Params := fun s => .ok s.params s

/-- `WaitReady` with this many reads still allowed (R130): read first, a delay only between two reads. -/
def waitReady : Nat → Op Unit
  | 0 => raise .readyTimeout
  | n + 1 => do
    if ← busyRead then
      if n ≠ 0 then delay .readyPoll
      waitReady n

/-- The byte exchanges of a frame, in list order (R64, R131). -/
def exchanges : List Byte → Op (List Byte)
  | [] => pure []
  | b :: bs => do
    let r ← exchange b
    let rs ← exchanges bs
    pure (r :: rs)

/-- `Frame(bytes)` (R131). -/
def frame (bytes : List Byte) : Op (List Byte) := do
  csSet true
  waitReady (← params).readyPollLimit
  let rx ← exchanges bytes
  csSet false
  pure rx

/-- One operation from its acceptance to its response: `return d` gives `(OK, d)`, `raise E` gives `(E, [])`
(R19, R101, R279). -/
def runOp (op : Op (List Byte)) (s : State) : State :=
  match op s.accept with
  | .ok d t => t.respond ⟨.ok, d⟩
  | .error e t => t.respond ⟨e, []⟩

/-- The answer to a byte string that is no command: no bus action (R104, R277). -/
def rejectCommand (s : State) : State := s.accept.respond ⟨.illegalCommand, []⟩

end Sys2Proof.Machine
end

