-- ==== Sys2Proof/Machine/BusFrame.lean ====
section
/-! DEFINITION. BusFrame: transact and the device reset (41_busframe R132 to R137). -/

namespace Sys2Proof.Machine

/-- R132: one frame of the host's bytes; every received byte is returned, the first included. -/
def transact (writeBytes : List Byte) : Op (List Byte) := frame writeBytes

/-- R134: the reset framing sequence, with the error paths of R135. -/
def deviceReset : Op (List Byte) := do
  csSet false
  delay .rst1
  csSet true
  delay .rst2
  let p ← params
  waitReady p.readyPollLimit
  let _ ← exchange p.peer.strobeSres
  waitReady p.readyPollLimit
  csSet false
  delay .settle
  pure []

def execTransact (bytes : List Byte) (s : State) : Host.Outcome State Fault Refusal :=
  .next (runOp (transact bytes) s)

def execReset (s : State) : Host.Outcome State Fault Refusal := .next (runOp deviceReset s)

end Sys2Proof.Machine
end

