-- ==== Sys2Proof/Machine/RegisterAccess.lean ====
section
/-! DEFINITION. RegisterAccess: the five primitives (42_register_access R151 to R155). Each is one frame; the answer
during the header byte is discarded (R50). -/

namespace Sys2Proof.Machine

/-- The data-phase bytes of a frame's answers (R50, R98). -/
def dataPhase (rx : List Byte) : List Byte := rx.drop 1

/-- R151. -/
def readSingle (addr : Byte) : Op (List Byte) := do
  let p ← params
  let rx ← frame [hdr addr p.peer.readBit, p.dummyByte]
  pure (dataPhase rx)

/-- R152. -/
def readBurst (addr : Byte) (length : Nat) : Op (List Byte) := do
  let p ← params
  let rx ← frame (hdr addr p.peer.readBurstBits :: List.replicate length p.dummyByte)
  pure (dataPhase rx)

/-- R153. -/
def writeSingle (addr value : Byte) : Op (List Byte) := do
  let _ ← frame [addr, value]
  pure []

/-- R154. -/
def writeBurst (addr : Byte) (values : List Byte) : Op (List Byte) := do
  let p ← params
  let _ ← frame (hdr addr p.peer.burstBit :: values)
  pure []

/-- R155. -/
def strobe (cmd : Byte) : Op (List Byte) := do
  let _ ← frame [cmd]
  pure []

def execReadSingle (a : Byte) (s : State) : Host.Outcome State Fault Refusal := .next (runOp (readSingle a) s)

def execReadBurst (a k : Byte) (s : State) : Host.Outcome State Fault Refusal :=
  .next (runOp (readBurst a k.toNat) s)

def execWriteSingle (a v : Byte) (s : State) : Host.Outcome State Fault Refusal :=
  .next (runOp (writeSingle a v) s)

def execWriteBurst (a : Byte) (vs : List Byte) (s : State) : Host.Outcome State Fault Refusal :=
  .next (runOp (writeBurst a vs) s)

def execStrobe (v : Byte) (s : State) : Host.Outcome State Fault Refusal := .next (runOp (strobe v) s)

end Sys2Proof.Machine
end

