-- ==== Sys2Proof/Machine/ConfigModel.lean ====
section
/-! DEFINITION. ConfigModel: the four modulation setters and the frequency (43_config_model R190 to R204). -/

namespace Sys2Proof.Machine

/-- Write a shadow of the block's own state (R35): no bus action. -/
def update (f : State → State) : Op Unit := fun s => .ok () (f s)

def State.setModtype (s : State) (v : Byte) : State := { s with modtype := v }

def State.setSyncmode (s : State) (v : Byte) : State := { s with syncmode := v }

def State.setManchester (s : State) (v : Byte) : State := { s with manchester := v }

def State.setDcfilter (s : State) (v : Byte) : State := { s with dcfilter := v }

/-- `Packed(S)` of the state as it stands (R40). -/
def packed : Op Byte := fun s => .ok s.packed s

/-- `WriteModem` (R190): the packed byte to the modem-configuration register. -/
def writeModem : Op (List Byte) := do
  writeSingle (← params).peer.regMdmcfg2 (← packed)

/-- R191. -/
def setModulationType (s : Byte) : Op (List Byte) := do
  if supportedModulation s then
    update (fun t => t.setModtype (modulationShadow s))
    let _ ← writeModem
    writeSingle (← params).peer.regFrend0 (modulationFrend0 s)
  else raise .invalidArgument

/-- R193. -/
def setSyncMode (s : Byte) : Op (List Byte) := do
  if supportedSyncMode s then
    update (fun t => t.setSyncmode s)
    writeModem
  else raise .invalidArgument

/-- R195. -/
def setManchester (b : Bool) : Op (List Byte) := do
  update (fun t => t.setManchester (manchesterShadow b))
  writeModem

/-- R196. -/
def setDCFilter (b : Bool) : Op (List Byte) := do
  update (fun t => t.setDcfilter (dcfilterShadow b))
  writeModem

/-- R202. -/
def setFrequency (hz : Nat) : Op (List Byte) := do
  let p ← params
  if freqEncode p.fXosc hz < 2 ^ 24 then
    writeBurst p.peer.regFreq2 (freqBytes (freqEncode p.fXosc hz))
  else raise .invalidArgument

/-- R204: the three bytes of the word, high byte first; the host computes `Decode`. -/
def getFrequency : Op (List Byte) := do
  readBurst (← params).peer.regFreq2 3

def execSetModType (s : Byte) (t : State) : Host.Outcome State Fault Refusal :=
  .next (runOp (setModulationType s) t)

def execSetSyncMode (s : Byte) (t : State) : Host.Outcome State Fault Refusal := .next (runOp (setSyncMode s) t)

def execSetManchester (b : Bool) (s : State) : Host.Outcome State Fault Refusal :=
  .next (runOp (setManchester b) s)

def execSetDcFilter (b : Bool) (s : State) : Host.Outcome State Fault Refusal := .next (runOp (setDCFilter b) s)

def execSetFrequency (hz : BitVec 32) (s : State) : Host.Outcome State Fault Refusal :=
  .next (runOp (setFrequency hz.toNat) s)

def execGetFrequency (s : State) : Host.Outcome State Fault Refusal := .next (runOp getFrequency s)

end Sys2Proof.Machine
end

