-- ==== Sys2Proof/Machine/RadioControl.lean ====
section
/-! DEFINITION. RadioControl: mode transitions, transmit, receive, transmit power (44_radio_control R230 to R247). -/

namespace Sys2Proof.Machine

/-- One status read: the single data byte of a readSingle (R156). -/
def readStatus (addr : Byte) : Op Byte := do
  let data ← readSingle addr
  pure (data.headD 0)

/-- `PollState` with this many reads still allowed (R230): a delay only between two reads. -/
def pollState (e : PollExit) : Nat → Op Unit
  | 0 => raise .stateTransitionTimeout
  | n + 1 => do
    let p ← params
    let m := radioState (← readStatus p.peer.statusMarcstate)
    if e.done p.peer m then pure ()
    else do
      if n ≠ 0 then delay .statePoll
      pollState e n

/-- R231. -/
def enterReceive : Op (List Byte) := do
  let p ← params
  let _ ← strobe p.peer.strobeSrx
  pollState .isRx p.statePollLimit
  pure []

/-- R232. -/
def enterTransmit : Op (List Byte) := do
  let p ← params
  let _ ← strobe p.peer.strobeStx
  pollState .isTx p.statePollLimit
  pure []

/-- R235, with the size check of R233 and the length byte of R234. -/
def sendPacket (payload : List Byte) : Op (List Byte) := do
  let p ← params
  if payload.length > p.fifoCapacity then raise .payloadTooLarge
  else do
    let _ ← strobe p.peer.strobeSidle
    let _ ← strobe p.peer.strobeSftx
    let _ ← writeBurst p.peer.addrFifo (framedPayload payload)
    let _ ← strobe p.peer.strobeStx
    pollState .leftTx p.statePollLimit
    pure []

/-- R240, with the overflow self-heal of R242 and the count of R241. -/
def receivePacket : Op (List Byte) := do
  let p ← params
  let m := radioState (← readStatus p.peer.statusMarcstate)
  if m = p.peer.msRxfifoOverflow then do
    let _ ← strobe p.peer.strobeSfrx
    let _ ← strobe p.peer.strobeSrx
    pure []
  else do
    let c := rxCount (← readStatus p.peer.statusRxbytes)
    if c = 0 then pure [] else readBurst p.peer.addrFifo c

/-- R245, with the table of R246 and the index-0 value of R247. -/
def setTxPower (level : Nat) : Op (List Byte) := do
  let p ← params
  if level > 0xFF then raise .invalidArgument
  else do
    let _ ← writeBurst p.peer.addrPatable (powerTable (BitVec.ofNat 8 level))
    writeSingle p.peer.regFrend0 Config.frend0Index0

def execEnterReceive (s : State) : Host.Outcome State Fault Refusal := .next (runOp enterReceive s)

def execEnterTransmit (s : State) : Host.Outcome State Fault Refusal := .next (runOp enterTransmit s)

def execSendPacket (p : List Byte) (s : State) : Host.Outcome State Fault Refusal := .next (runOp (sendPacket p) s)

def execReceivePacket (s : State) : Host.Outcome State Fault Refusal := .next (runOp receivePacket s)

def execSetTxPower (level : BitVec 16) (s : State) : Host.Outcome State Fault Refusal :=
  .next (runOp (setTxPower level.toNat) s)

end Sys2Proof.Machine
end

