-- ==== Sys2Proof/Machine/Wire.lean ====
section
/-! DEFINITION. The wire rows of the opcode table: each is the frame that the RegisterAccess primitive of the row's own
rule puts on the bus (R91, R95, R96; 42_register_access R151 to R156 and R160 to R173). "To the block every strobe is
the same operation, strobe": what the peer does with the code is the peer's (R312). -/

namespace Sys2Proof.Machine

/-- R153: header `A`, then one value byte. -/
def execHdrWriteSingle (a : RegAddr) (v : Byte) (s : State) : Host.Outcome State Fault Refusal :=
  .next (runOp (writeSingle (fieldAddr a) v) s)

/-- R154: header `A | 0x40`, then the values. -/
def execHdrWriteBurst (a : RegAddr) (vs : List Byte) (s : State) : Host.Outcome State Fault Refusal :=
  .next (runOp (writeBurst (fieldAddr a) vs) s)

/-- R151: header `A | 0x80`, then one dummy byte. -/
def execHdrReadSingle (a : RegAddr) (s : State) : Host.Outcome State Fault Refusal :=
  .next (runOp (readSingle (fieldAddr a)) s)

/-- R152: header `A | 0xC0`, then dummy bytes. -/
def execHdrReadBurst (a : RegAddr) (k : Byte) (s : State) : Host.Outcome State Fault Refusal :=
  .next (runOp (readBurst (fieldAddr a) k.toNat) s)

/-- R156: the status address, then exactly one dummy byte. -/
def execHdrStatusRead (a : RegAddr) (s : State) : Host.Outcome State Fault Refusal :=
  .next (runOp (readSingle (statusAddr a)) s)

/-- R160. -/
def execSres (s : State) : Host.Outcome State Fault Refusal := .next (runOp (strobe 0x30) s)

/-- R161. -/
def execSfstxon (s : State) : Host.Outcome State Fault Refusal := .next (runOp (strobe 0x31) s)

/-- R162. -/
def execSxoff (s : State) : Host.Outcome State Fault Refusal := .next (runOp (strobe 0x32) s)

/-- R163. -/
def execScal (s : State) : Host.Outcome State Fault Refusal := .next (runOp (strobe 0x33) s)

/-- R164. -/
def execSrx (s : State) : Host.Outcome State Fault Refusal := .next (runOp (strobe 0x34) s)

/-- R165. -/
def execStx (s : State) : Host.Outcome State Fault Refusal := .next (runOp (strobe 0x35) s)

/-- R166. -/
def execSidle (s : State) : Host.Outcome State Fault Refusal := .next (runOp (strobe 0x36) s)

/-- R167: the block sends the code although the peer defines no strobe there. -/
def execReserved37 (s : State) : Host.Outcome State Fault Refusal := .next (runOp (strobe 0x37) s)

/-- R168. -/
def execSwor (s : State) : Host.Outcome State Fault Refusal := .next (runOp (strobe 0x38) s)

/-- R169. -/
def execSpwd (s : State) : Host.Outcome State Fault Refusal := .next (runOp (strobe 0x39) s)

/-- R170. -/
def execSfrx (s : State) : Host.Outcome State Fault Refusal := .next (runOp (strobe 0x3A) s)

/-- R171. -/
def execSftx (s : State) : Host.Outcome State Fault Refusal := .next (runOp (strobe 0x3B) s)

/-- R172. -/
def execSworrst (s : State) : Host.Outcome State Fault Refusal := .next (runOp (strobe 0x3C) s)

/-- R173. -/
def execSnop (s : State) : Host.Outcome State Fault Refusal := .next (runOp (strobe 0x3D) s)

end Sys2Proof.Machine
end

