-- ==== Sys2Proof/Machine/Dispatch.lean ====
section
/-! DEFINITION. `exec`: one arm per constructor of `Instr`, each one call of that instruction's meaning. -/

namespace Sys2Proof.Machine

def exec (i : Instr) (s : State) : Host.Outcome State Fault Refusal :=
  match i with
  | .transact bytes => Sys2Proof.Machine.execTransact bytes s
  | .reset => Sys2Proof.Machine.execReset s
  | .readSingle a => Sys2Proof.Machine.execReadSingle a s
  | .readBurst a k => Sys2Proof.Machine.execReadBurst a k s
  | .writeSingle a v => Sys2Proof.Machine.execWriteSingle a v s
  | .writeBurst a vs => Sys2Proof.Machine.execWriteBurst a vs s
  | .strobe v => Sys2Proof.Machine.execStrobe v s
  | .setModType x => Sys2Proof.Machine.execSetModType x s
  | .setSyncMode x => Sys2Proof.Machine.execSetSyncMode x s
  | .setManchester b => Sys2Proof.Machine.execSetManchester b s
  | .setDcFilter b => Sys2Proof.Machine.execSetDcFilter b s
  | .setFrequency hz => Sys2Proof.Machine.execSetFrequency hz s
  | .getFrequency => Sys2Proof.Machine.execGetFrequency s
  | .enterReceive => Sys2Proof.Machine.execEnterReceive s
  | .enterTransmit => Sys2Proof.Machine.execEnterTransmit s
  | .sendPacket p => Sys2Proof.Machine.execSendPacket p s
  | .receivePacket => Sys2Proof.Machine.execReceivePacket s
  | .setTxPower level => Sys2Proof.Machine.execSetTxPower level s
  | .hdrWriteSingle a v => Sys2Proof.Machine.execHdrWriteSingle a v s
  | .hdrWriteBurst a vs => Sys2Proof.Machine.execHdrWriteBurst a vs s
  | .hdrReadSingle a => Sys2Proof.Machine.execHdrReadSingle a s
  | .hdrReadBurst a k => Sys2Proof.Machine.execHdrReadBurst a k s
  | .hdrStatusRead a => Sys2Proof.Machine.execHdrStatusRead a s
  | .sres => Sys2Proof.Machine.execSres s
  | .sfstxon => Sys2Proof.Machine.execSfstxon s
  | .sxoff => Sys2Proof.Machine.execSxoff s
  | .scal => Sys2Proof.Machine.execScal s
  | .srx => Sys2Proof.Machine.execSrx s
  | .stx => Sys2Proof.Machine.execStx s
  | .sidle => Sys2Proof.Machine.execSidle s
  | .reserved37 => Sys2Proof.Machine.execReserved37 s
  | .swor => Sys2Proof.Machine.execSwor s
  | .spwd => Sys2Proof.Machine.execSpwd s
  | .sfrx => Sys2Proof.Machine.execSfrx s
  | .sftx => Sys2Proof.Machine.execSftx s
  | .sworrst => Sys2Proof.Machine.execSworrst s
  | .snop => Sys2Proof.Machine.execSnop s

end Sys2Proof.Machine
end

