-- ==== Sys2Proof/Machine/Sequencer.lean ====
section
/-! DEFINITION. The sequencer at its own grain (R8, R31): one step performs exactly one primitive action of R18, or
writes the response. The position is data: the list of the actions still to do, worked out from the answers so far and
never from the answers to come. `exec` runs the same operations from acceptance to response in one go. -/

namespace Sys2Proof.Machine

/-- The position of an operation that has nothing left but its success (R19). -/
def doneSeq : List Micro := [.respond ⟨.ok, []⟩]

/-- `raise E` as a position (R19, R279): release chip-select if it is asserted, then the response. -/
def raiseSeq (s : State) (e : Err) : List Micro :=
  (if s.cs then [.release .go] else []) ++ [.respond ⟨e, []⟩]

/-- A ready-wait and what follows it (R130); chip-select is asserted here. -/
def readySeq (p : Params) (k : List Micro) : List Micro :=
  match p.readyPollLimit with
  | 0 => [.release .go, .respond ⟨.readyTimeout, []⟩]
  | n + 1 => .busyRead n :: k

/-- A frame, what its bytes decide, and what follows (R131). -/
def frameSeq (p : Params) (bytes : List Byte) (after : After) (k : List Micro) : List Micro :=
  .assert :: readySeq p (bytes.map .exchange ++ .release after :: k)

/-- The bytes of a status read (R156). -/
def statusBytes (p : Params) (addr : Byte) : List Byte := [hdr addr p.peer.readBit, p.dummyByte]

/-- A state poll with this many reads still allowed (R230). -/
def pollSeq (p : Params) (e : PollExit) : Nat → List Micro → List Micro
  | 0, _ => [.respond ⟨.stateTransitionTimeout, []⟩]
  | n + 1, k => frameSeq p (statusBytes p p.peer.statusMarcstate) (.poll e n) k

/-- The position after the frame just completed in `s`, `k` being what was to follow. -/
def After.position (a : After) (s : State) (k : List Micro) : List Micro :=
  let p := s.params
  let answer := (dataPhase s.rx).headD 0
  match a with
  | .go => k
  | .reply n => [.respond ⟨.ok, s.rx.drop n⟩]
  | .poll e left =>
    if e.done p.peer (radioState answer) then k
    else if left = 0 then pollSeq p e 0 k
    else .delay .statePoll :: pollSeq p e left k
  | .receiveState =>
    if radioState answer = p.peer.msRxfifoOverflow then
      frameSeq p [p.peer.strobeSfrx] .go (frameSeq p [p.peer.strobeSrx] .go doneSeq)
    else frameSeq p (statusBytes p p.peer.statusRxbytes) .receiveCount []
  | .receiveCount =>
    if rxCount answer = 0 then doneSeq
    else
      frameSeq p (hdr p.peer.addrFifo p.peer.readBurstBits :: List.replicate (rxCount answer) p.dummyByte)
        (.reply 1) []

/-- One action of the position `m :: k`. -/
def Micro.perform (m : Micro) (k : List Micro) (s : State) : State :=
  match m with
  | .assert => { s.csSet true with seq := k, rx := [] }
  | .release a => { s.csSet false with seq := a.position (s.csSet false) k }
  | .busyRead left =>
    if s.busyAt 0 then
      if left = 0 then { s.busyNext with seq := raiseSeq s.busyNext .readyTimeout }
      else { s.busyNext with seq := .delay .readyPoll :: .busyRead (left - 1) :: k }
    else { s.busyNext with seq := k }
  | .exchange b =>
    match s.xferAt 0 with
    | some r => { s.xferNext b with seq := k, rx := s.rx ++ [r] }
    | none => { s.xferNext b with seq := raiseSeq (s.xferNext b) .transportError }
  | .delay d => { s.wait d with seq := k }
  | .respond r => s.respond r

/-- One step of the sequencer while an operation executes (R8). -/
def tick (s : State) : Host.Outcome State Fault Refusal :=
  match s.seq with
  | [] => .fault .noPosition
  | m :: k => .next (m.perform k s)

/-- The shadow a setter writes before its first bus action (R191, R193, R195, R196, R198). The spec says no more of
when: that it is written in the acceptance step is the model's choice (DESIGN CHOICE, log entry 4). -/
def shadowWrite (i : Instr) (s : State) : State :=
  match i with
  | .setModType x => if supportedModulation x then s.setModtype (modulationShadow x) else s
  | .setSyncMode x => if supportedSyncMode x then s.setSyncmode x else s
  | .setManchester b => s.setManchester (manchesterShadow b)
  | .setDcFilter b => s.setDcfilter (dcfilterShadow b)
  | .transact _ | .reset | .readSingle _ | .readBurst _ _ | .writeSingle _ _ | .writeBurst _ _ | .strobe _
  | .setFrequency _ | .getFrequency | .enterReceive | .enterTransmit | .sendPacket _ | .receivePacket
  | .setTxPower _ | .hdrWriteSingle _ _ | .hdrWriteBurst _ _ | .hdrReadSingle _ | .hdrReadBurst _ _
  | .hdrStatusRead _ | .sres | .sfstxon | .sxoff | .scal | .srx | .stx | .sidle | .reserved37 | .swor | .spwd
  | .sfrx | .sftx | .sworrst | .snop => s

/-- A frame whose answers are discarded, alone in its operation. -/
def writeSeq (p : Params) (bytes : List Byte) : List Micro := frameSeq p bytes .go doneSeq

/-- A frame whose data-phase bytes are the result (R151, R152). -/
def readSeq (p : Params) (bytes : List Byte) : List Micro := frameSeq p bytes (.reply 1) []

/-- The position at the start of an operation, in the state after its shadow write. -/
def startSeq (i : Instr) (s : State) : List Micro :=
  let p := s.params
  let t := p.peer
  match i with
  | .transact bs => frameSeq p bs (.reply 0) []
  | .reset =>
    .release .go :: .delay .rst1 :: .assert :: .delay .rst2 ::
      readySeq p (.exchange t.strobeSres :: readySeq p (.release .go :: .delay .settle :: doneSeq))
  | .readSingle a => readSeq p (statusBytes p a)
  | .readBurst a k => readSeq p (hdr a t.readBurstBits :: List.replicate k.toNat p.dummyByte)
  | .writeSingle a v => writeSeq p [a, v]
  | .writeBurst a vs => writeSeq p (hdr a t.burstBit :: vs)
  | .strobe v => writeSeq p [v]
  | .setModType x =>
    if supportedModulation x then
      frameSeq p [t.regMdmcfg2, s.packed] .go (writeSeq p [t.regFrend0, modulationFrend0 x])
    else raiseSeq s .invalidArgument
  | .setSyncMode x =>
    if supportedSyncMode x then writeSeq p [t.regMdmcfg2, s.packed] else raiseSeq s .invalidArgument
  | .setManchester _ => writeSeq p [t.regMdmcfg2, s.packed]
  | .setDcFilter _ => writeSeq p [t.regMdmcfg2, s.packed]
  | .setFrequency hz =>
    if freqEncode p.fXosc hz.toNat < 2 ^ 24 then
      writeSeq p (hdr t.regFreq2 t.burstBit :: freqBytes (freqEncode p.fXosc hz.toNat))
    else raiseSeq s .invalidArgument
  | .getFrequency => readSeq p (hdr t.regFreq2 t.readBurstBits :: List.replicate 3 p.dummyByte)
  | .enterReceive => frameSeq p [t.strobeSrx] .go (pollSeq p .isRx p.statePollLimit doneSeq)
  | .enterTransmit => frameSeq p [t.strobeStx] .go (pollSeq p .isTx p.statePollLimit doneSeq)
  | .sendPacket b =>
    if b.length > p.fifoCapacity then raiseSeq s .payloadTooLarge
    else
      frameSeq p [t.strobeSidle] .go (frameSeq p [t.strobeSftx] .go
        (frameSeq p (hdr t.addrFifo t.burstBit :: framedPayload b) .go
          (frameSeq p [t.strobeStx] .go (pollSeq p .leftTx p.statePollLimit doneSeq))))
  | .receivePacket => frameSeq p (statusBytes p t.statusMarcstate) .receiveState []
  | .setTxPower level =>
    if level.toNat > 0xFF then raiseSeq s .invalidArgument
    else
      frameSeq p (hdr t.addrPatable t.burstBit :: powerTable (BitVec.ofNat 8 level.toNat)) .go
        (writeSeq p [t.regFrend0, Config.frend0Index0])
  | .hdrWriteSingle a v => writeSeq p [fieldAddr a, v]
  | .hdrWriteBurst a vs => writeSeq p (hdr (fieldAddr a) t.burstBit :: vs)
  | .hdrReadSingle a => readSeq p (statusBytes p (fieldAddr a))
  | .hdrReadBurst a k => readSeq p (hdr (fieldAddr a) t.readBurstBits :: List.replicate k.toNat p.dummyByte)
  | .hdrStatusRead a => readSeq p (statusBytes p (statusAddr a))
  | .sres => writeSeq p [0x30]
  | .sfstxon => writeSeq p [0x31]
  | .sxoff => writeSeq p [0x32]
  | .scal => writeSeq p [0x33]
  | .srx => writeSeq p [0x34]
  | .stx => writeSeq p [0x35]
  | .sidle => writeSeq p [0x36]
  | .reserved37 => writeSeq p [0x37]
  | .swor => writeSeq p [0x38]
  | .spwd => writeSeq p [0x39]
  | .sfrx => writeSeq p [0x3A]
  | .sftx => writeSeq p [0x3B]
  | .sworrst => writeSeq p [0x3C]
  | .snop => writeSeq p [0x3D]

/-- Acceptance of an instruction at the sequencer's grain (R42, R100): active, at its first action. The argument checks
and the setters' shadow writes are done in this step, which records no event: R8 and R100 do not say which step does
them, and R198 only puts the shadow before the bus write (DESIGN CHOICE, log entry 4). -/
def start (i : Instr) (s : State) : State :=
  { shadowWrite i s.accept with seq := startSeq i (shadowWrite i s.accept) }

/-- `n` steps of the sequencer; `none` where it has no position to go on from. -/
def ticks : Nat → State → Option State
  | 0, s => some s
  | n + 1, s =>
    match tick s with
    | .next t => ticks n t
    | .fault _ => none
    | .refused _ => none

end Sys2Proof.Machine
end

