-- ==== Sys2Proof/Machine/Fetch.lean ====
section
/-! DEFINITION. Where the next instruction comes from (R100; the block has no program counter, R31), and the host's two
moves on the ports (R32, R100, R284). -/

namespace Sys2Proof.Machine

/-- The instruction a request stands for. The command-port encoding is the only one decoded (R90): a row of the opcode
table is held as the operation itself (log entry 5). -/
def decodeRequest : Request → Except DecodeError Instr
  | .command bs => decodeCommand bs
  | .row i => .ok i

/-- The request that stands for a word of spec/opcode_table.json: the command, or the operation of a wire row. It is
worked out from outside the machine, for `withFetchWord` alone: no step calls it (log entries 5 and 8). -/
def tableRequest (nbits w : Nat) : Request :=
  match decodeCommand (tableCommand nbits w) with
  | .ok _ => .command (tableCommand nbits w)
  | .error _ =>
    match decodeWire (tableFrame nbits w) with
    | .ok i => .row i
    | .error _ => .command (tableCommand nbits w)

/-- The waiting request is taken off the port. -/
def State.takePort (s : State) : State := { s with port := none }

/-- The host issues a command (R100): it has a move only when no operation executes (R284, 93 U10). -/
def issue (c : List Byte) (s : State) : Host.Outcome State Fault Refusal :=
  if s.active then .refused .commandWhileActive
  else if s.port.isSome then .refused .commandWaiting
  else .next { s with port := some (.command c) }

/-- The host reads the response as bytes (R32, R101). Before the first operation completes `S.resp` holds no value and
"a model must fault on it" (R32; R51: "no value (reading faults)"; 93 U1: `fault`). -/
def readResponse (s : State) : Except Fault (List Byte) :=
  match s.resp with
  | some r => .ok r.bytes
  | none => .error .responseNotWritten

/-- One step at the sequencer's grain (R8): acceptance, one primitive action, or the write of the response. Acceptance
is a step of its own, without an event, in which a setter's shadow is written (DESIGN CHOICE, log entry 4). -/
def fineStep (s : State) : Host.Outcome State Fault Refusal :=
  if s.active then tick s
  else
    match s.port with
    | none => .next s
    | some r =>
      match decodeRequest r with
      | .ok i => .next (start i s.takePort)
      | .error _ => .next { s.takePort.accept with seq := [.respond ⟨.illegalCommand, []⟩] }

end Sys2Proof.Machine
end

