-- ==== Sys2Proof/Machine/Step.lean ====
section
/-! DEFINITION. One step of the machine. From an idle block it is one operation, from its acceptance to its response
(the unit of observation, R20); in the middle of an operation it is one action of the sequencer (R8). Log entry 4. -/

namespace Sys2Proof.Machine

def step (s : State) : Host.Outcome State Fault Refusal :=
  if s.active then tick s
  else
    match s.port with
    | none => .next s
    | some r =>
      match decodeRequest r with
      | .ok i => exec i s.takePort
      | .error _ => .next (rejectCommand s.takePort)

/-- The state whose next step runs the given word of spec/opcode_table.json: the word waits on the port of an idle
block (log entry 6). -/
def State.withFetchWord (s : State) (nbits w : Nat) : State :=
  { s with port := some (tableRequest nbits w), active := false, seq := [] }

end Sys2Proof.Machine
end

