-- ==== Sys2Proof/Machine/Assembler.lean ====
section
/-! DEFINITION. The assembler syntax of 30_encoding R107 and the pseudo-instructions of R108: a line of text gives an
instruction of the command port, whose bytes are `encode`. No step of the machine uses it. -/

namespace Sys2Proof.Machine

/-- An operand of a line: a number, a word, or a byte list in brackets. -/
inductive AsmArg where
  | num (n : Nat)
  | word (w : String)
  | bytes (bs : List Nat)
  deriving DecidableEq, Repr

def asmDigit (base : Nat) (c : Char) : Option Nat :=
  let v :=
    if '0' ≤ c ∧ c ≤ '9' then c.toNat - '0'.toNat
    else if 'a' ≤ c ∧ c ≤ 'f' then c.toNat - 'a'.toNat + 10
    else if 'A' ≤ c ∧ c ≤ 'F' then c.toNat - 'A'.toNat + 10
    else base
  if v < base then some v else none

def asmDigits (base : Nat) : List Char → Nat → Option Nat
  | [], n => some n
  | c :: cs, n => (asmDigit base c).bind (fun d => asmDigits base cs (base * n + d))

/-- A number, decimal or `0x` hex (R107). -/
def asmNumber : List Char → Option Nat
  | [] => none
  | '0' :: 'x' :: c :: cs => asmDigits 16 (c :: cs) 0
  | c :: cs => asmDigits 10 (c :: cs) 0

def asmTrim (cs : List Char) : List Char :=
  ((cs.dropWhile (· == ' ')).reverse.dropWhile (· == ' ')).reverse

/-- Split at the commas outside brackets; `depth` counts open brackets. -/
def asmSplit : List Char → Nat → List Char → List (List Char)
  | [], _, cur => [cur.reverse]
  | c :: cs, depth, cur =>
    if c = ',' ∧ depth = 0 then cur.reverse :: asmSplit cs 0 []
    else asmSplit cs (if c = '[' then depth + 1 else if c = ']' then depth - 1 else depth) (c :: cur)

def asmArg (text : List Char) : Option AsmArg :=
  match asmTrim text with
  | '[' :: rest =>
    match rest.reverse with
    | ']' :: inner =>
      if asmTrim inner = [] then some (.bytes [])
      else ((asmSplit inner.reverse 0 []).mapM (fun t => asmNumber (asmTrim t))).map .bytes
    | _ => none
  | [] => none
  | t => some (match asmNumber t with
    | some n => .num n
    | none => .word (String.ofList t))

def asmByte (n : Nat) : Option Byte := if n < 256 then some (BitVec.ofNat 8 n) else none

def asmByteList (bs : List Nat) : Option (List Byte) :=
  if bs.length ≤ 255 then bs.mapM asmByte else none

/-- The selector of a modulation name (R107, R192). -/
def modulationName (w : String) : Option Byte :=
  if w = "2FSK" then some 0x00 else if w = "GFSK" then some 0x01 else if w = "OOK" then some 0x03
  else if w = "4FSK" then some 0x04 else if w = "MSK" then some 0x07 else none

def asmBool (w : String) : Option Bool :=
  if w = "true" then some true else if w = "false" then some false else none

/-- The strobe pseudo-instructions (R108). -/
def strobePseudo (m : String) : Option Byte :=
  if m = "sres" then some 0x30 else if m = "sfstxon" then some 0x31 else if m = "sxoff" then some 0x32
  else if m = "scal" then some 0x33 else if m = "srx" then some 0x34 else if m = "stx" then some 0x35
  else if m = "sidle" then some 0x36 else if m = "swor" then some 0x38 else if m = "spwd" then some 0x39
  else if m = "sfrx" then some 0x3A else if m = "sftx" then some 0x3B else if m = "sworrst" then some 0x3C
  else if m = "snop" then some 0x3D else none

def asmNoOperand (m : String) : Option Instr :=
  if m = "reset" then some .reset
  else if m = "getFrequency" then some .getFrequency
  else if m = "enterReceive" then some .enterReceive
  else if m = "enterTransmit" then some .enterTransmit
  else if m = "receivePacket" then some .receivePacket
  else if m = "readMarcstate" then some (.readSingle 0xF5)
  else if m = "readRxBytes" then some (.readSingle 0xFB)
  else (strobePseudo m).map .strobe

def asmNum (m : String) (n : Nat) : Option Instr :=
  if m = "readSingle" then (asmByte n).map .readSingle
  else if m = "readStatus" then
    if 0x30 ≤ n ∧ n ≤ 0x3D then some (.readSingle (BitVec.ofNat 8 n ||| 0xC0)) else none
  else if m = "strobe" then (asmByte n).map .strobe
  else if m = "setModulationType" ∨ m = "setModulation" then (asmByte n).map .setModType
  else if m = "setSyncMode" then (asmByte n).map .setSyncMode
  else if m = "setFrequency" then if n < 2 ^ 32 then some (.setFrequency (BitVec.ofNat 32 n)) else none
  else if m = "setTxPower" then if n < 2 ^ 16 then some (.setTxPower (BitVec.ofNat 16 n)) else none
  else none

/-- The instruction of a mnemonic and its operands (R107, R108). -/
def assemble (m : String) : List AsmArg → Option Instr
  | [] => asmNoOperand m
  | [.num n] => asmNum m n
  | [.word w] =>
    if m = "setModulationType" ∨ m = "setModulation" then (modulationName w).map .setModType
    else if m = "setManchester" then (asmBool w).map .setManchester
    else if m = "setDCFilter" then (asmBool w).map .setDcFilter
    else none
  | [.bytes bs] =>
    if m = "transact" then (asmByteList bs).map .transact
    else if m = "sendPacket" then (asmByteList bs).map .sendPacket
    else none
  | [.num a, .num b] =>
    if m = "readBurst" then (asmByte a).bind (fun x => (asmByte b).map (.readBurst x))
    else if m = "writeSingle" then (asmByte a).bind (fun x => (asmByte b).map (.writeSingle x))
    else none
  | [.num a, .bytes bs] =>
    if m = "writeBurst" then (asmByte a).bind (fun x => (asmByteList bs).map (.writeBurst x)) else none
  | _ => none

/-- One line of assembler text: the mnemonic, then the operands separated by commas (R107). -/
def assembleLine (line : List Char) : Option Instr :=
  let text := asmTrim line
  let mnemonic := String.ofList (text.takeWhile (· != ' '))
  let rest := asmTrim (text.dropWhile (· != ' '))
  if rest = [] then assemble mnemonic []
  else ((asmSplit rest 0 []).mapM asmArg).bind (assemble mnemonic)

end Sys2Proof.Machine
end

