-- ==== Sys2Proof/Machine/SimPeer.lean ====
section
/-! DEFINITION. SimPeer, the simulated register store of 95_test_vectors ("verify via a simulated register store"). It
is a premise a claim may state about the peer (R312), never part of the block: no step reads it. It is driven by the
events of a trace and says which peer answers agree with it. -/

namespace Sys2Proof.Machine

structure SimPeer where
  /-- Registers `0x00..0x2F`. -/
  regs : List Byte
  /-- The power table. -/
  power : List Byte
  txFifo : List Byte
  rxFifo : List Byte
  /-- The scripted status values, (status address, value), the next one of an address first. -/
  script : List (Byte × Byte)
  /-- The strobes seen, oldest first. -/
  strobes : List Byte
  /-- The bytes of the open frame. -/
  frame : List Byte
  deriving DecidableEq, Repr

/-- The store at its start values: MDMCFG2 `0x02`, FREND0 `0x10`, every other register `0x00`. -/
def SimPeer.start : SimPeer where
  regs := ((List.replicate 48 0x00).set 0x12 0x02).set 0x22 0x10
  power := List.replicate 8 0x00
  txFifo := []
  rxFifo := []
  script := []
  strobes := []
  frame := []

def simField (h : Byte) : Nat := (h &&& 0x3F).toNat

def simRead (h : Byte) : Bool := h.getLsbD 7

def simBurst (h : Byte) : Bool := h.getLsbD 6

/-- A header whose field is a strobe or status address. -/
def simStatus (h : Byte) : Bool := decide (0x30 ≤ simField h) && decide (simField h ≤ 0x3D)

/-- The next scripted value of a status address; MARCSTATE is IDLE when its script is empty. -/
def SimPeer.status (p : SimPeer) (h : Byte) : Byte :=
  match p.script.find? (fun e => e.1 == h) with
  | some e => e.2
  | none => if h = 0xF5 then 0x01 else 0x00

/-- The answer to the k-th data byte after a read header; `none` where the fixture does not say. -/
def SimPeer.answer (p : SimPeer) (h : Byte) (k : Nat) : Option Byte :=
  let at' := if simBurst h then k else 0
  if simStatus h then (if simBurst h then some (p.status h) else none)
  else if simField h = 0x3F then p.rxFifo.head?
  else if simField h = 0x3E then p.power[at']?
  else p.regs[simField h + at']?

/-- The store after the k-th data byte `b` of a frame with header `h`. -/
def SimPeer.data (p : SimPeer) (h : Byte) (k : Nat) (b : Byte) : SimPeer :=
  if simRead h then
    if simStatus h then { p with script := p.script.eraseP (fun e => e.1 == h) }
    else if simField h = 0x3F then { p with rxFifo := p.rxFifo.tail } else p
  else if simStatus h then p
  else if simField h = 0x3F then { p with txFifo := p.txFifo ++ [b] }
  else if simField h = 0x3E then { p with power := p.power.set k b }
  else { p with regs := p.regs.set (simField h + if simBurst h then k else 0) b }

/-- The store after one event, or `none` when the event's answer is not the store's. -/
def SimPeer.event (p : SimPeer) : Event → Option SimPeer
  | .cs true => some { p with frame := [] }
  | .cs false =>
    match p.frame with
    | [h] => if simStatus h then some { p with strobes := p.strobes ++ [h], frame := [] } else some { p with frame := [] }
    | _ => some { p with frame := [] }
  | .xfer b r =>
    match p.frame with
    | [] => some { p with frame := [b] }
    | h :: sent =>
      if simRead h && (p.answer h sent.length).any (fun a => a != r) then none
      else some { p.data h sent.length b with frame := h :: sent ++ [b] }
  | .xferFail _ => some p
  | .busy _ => some p
  | .delay _ => some p

/-- The store after a list of events; `none` as soon as an answer disagrees with it. -/
def SimPeer.follow : List Event → SimPeer → Option SimPeer
  | [], p => some p
  | e :: es, p => (p.event e).bind (SimPeer.follow es)

/-- A register of the store. -/
def SimPeer.reg (p : SimPeer) (a : Byte) : Byte := p.regs.getD a.toNat 0x00

end Sys2Proof.Machine
end

