-- ==== Sys2Proof/Safety.lean ====
section
/-! DEFINITION. The words claims are stated in: how one frame can run against the peer's answers, how the frames of an
operation follow each other, the state an operation ends in, the bus discipline, and the machine's invariant. None of
it is used by the machine. -/

namespace Sys2Proof.Machine

/-! ## One frame against the peer's answers (R130, R131) -/

/-- The three ways a frame ends: every byte exchanged; the ready-wait ran out; an exchange failed. -/
inductive FrameEnd where
  | complete
  | notReady
  | broken
  deriving DecidableEq, Repr

/-- One frame on the bus: the bytes to send, the busy reads that gave 1, the bytes received, and how it ended. -/
structure FrameRun where
  sent : List Byte
  waits : Nat
  got : List Byte
  ending : FrameEnd
  deriving DecidableEq, Repr

/-- The busy reads a frame makes. -/
def FrameRun.busyReads (f : FrameRun) : Nat :=
  match f.ending with
  | .notReady => f.waits
  | .complete | .broken => f.waits + 1

/-- The exchanges a frame makes, the failed one counted. -/
def FrameRun.exchanged (f : FrameRun) : Nat :=
  match f.ending with
  | .broken => f.got.length + 1
  | .complete | .notReady => f.got.length

/-- The events of a ready-wait with this many reads of 1 before a read of 0 (R130). -/
def readyEvents : Nat → List Event
  | 0 => [.busy false]
  | n + 1 => .busy true :: .delay .readyPoll :: readyEvents n

/-- The events of a ready-wait that runs out after this many reads of 1: delays only between reads (R130). -/
def timeoutEvents : Nat → List Event
  | 0 => []
  | 1 => [.busy true]
  | n + 2 => .busy true :: .delay .readyPoll :: timeoutEvents (n + 1)

/-- The events of the exchanges that succeeded. -/
def exchangeEvents (sent got : List Byte) : List Event := List.zipWith Event.xfer sent got

/-- The events of a frame, bracketed by chip-select on every path (R131, R19). -/
def FrameRun.events (f : FrameRun) : List Event :=
  .cs true ::
    ((match f.ending with
      | .notReady => timeoutEvents f.waits
      | .complete => readyEvents f.waits ++ exchangeEvents f.sent f.got
      | .broken =>
        readyEvents f.waits ++ exchangeEvents f.sent f.got ++ [.xferFail (f.sent.getD f.got.length 0)]) ++
      [.cs false])

/-- The peer's next answers, from the `nx`-th exchange on, are these bytes. -/
def State.gives (s : State) (nx : Nat) (got : List Byte) : Bool :=
  decide ((List.range got.length).map (fun k => s.xferAt (nx + k)) = got.map some)

/-- The peer's answers in `s`, from the `nb`-th busy read and the `nx`-th exchange on, make the frame run so. -/
def State.runsFrame (s : State) (nb nx : Nat) (f : FrameRun) : Bool :=
  (List.range f.waits).all (fun k => s.busyAt (nb + k)) && s.gives nx f.got &&
  match f.ending with
  | .notReady => decide (f.waits = s.params.readyPollLimit) && decide (f.got = [])
  | .complete =>
    decide (f.waits < s.params.readyPollLimit) && !s.busyAt (nb + f.waits) &&
      decide (f.got.length = f.sent.length)
  | .broken =>
    decide (f.waits < s.params.readyPollLimit) && !s.busyAt (nb + f.waits) &&
      decide (f.got.length < f.sent.length) && decide (s.xferAt (nx + f.got.length) = none)

/-- The peer's answers in `s` make these frames run, one after another. -/
def State.runs (s : State) : Nat → Nat → List FrameRun → Bool
  | _, _, [] => true
  | nb, nx, f :: fs => s.runsFrame nb nx f && s.runs (nb + f.busyReads) (nx + f.exchanged) fs

/-! ## The state an operation ends in -/

/-- `s` with `nb` busy answers and `nx` exchange answers drawn, these events recorded, and the response written: an
idle block. Every field not named here is as in `s`. -/
def State.endsAfter (s : State) (nb nx : Nat) (evs : List Event) (r : Response) : State :=
  { s with
    cs := false
    active := false
    seq := []
    rx := []
    resp := some r
    busyIn := s.busyIn.drop nb
    busyDrawn := s.busyDrawn + nb
    xferIn := s.xferIn.drop nx
    xferDrawn := s.xferDrawn + nx
    trace := s.trace ++ evs }

/-- `s` at the end of an operation that ran these frames. -/
def State.ends (s : State) (fs : List FrameRun) (evs : List Event) (r : Response) : State :=
  s.endsAfter (fs.map FrameRun.busyReads).sum (fs.map FrameRun.exchanged).sum evs r

/-- The events of frames sent one after another with nothing between them. -/
def framesEvents (fs : List FrameRun) : List Event := (fs.map FrameRun.events).flatten

/-- The events of the reads of a state poll: a delay between two reads only (R230). -/
def pollEvents : List FrameRun → List Event
  | [] => []
  | [f] => f.events
  | f :: g :: fs => f.events ++ .delay .statePoll :: pollEvents (g :: fs)

/-- The error a frame that did not complete raises (R271, R276). -/
def FrameEnd.error : FrameEnd → Option Err
  | .complete => none
  | .notReady => some .readyTimeout
  | .broken => some .transportError

/-- The frames follow this plan: every frame sends the planned bytes, and the first one that does not complete is the
last (R19, R278). The error is that frame's, or none when the whole plan ran. -/
def followPlan : List (List Byte) → List FrameRun → Option Err → Bool
  | [], [], e => decide (e = none)
  | b :: bs, f :: fs, e =>
    decide (f.sent = b) &&
      (if f.ending = .complete then followPlan bs fs e else decide (fs = []) && decide (e = f.ending.error))
  | _, _, _ => false

/-- The masked MARCSTATE a completed status read gave (R156, R230). -/
def FrameRun.state (f : FrameRun) : RadioState := radioState (f.got.getD 1 0)

/-- The frames are the reads of a state poll with `left` reads allowed (R230): each reads MARCSTATE; the poll ends at the
first read that meets the exit condition, at the first read that fails, or with StateTransitionTimeout after `left`. -/
def followPoll (p : Params) (exit : PollExit) : Nat → List FrameRun → Option Err → Bool
  | 0, [], e => decide (e = some .stateTransitionTimeout)
  | left + 1, f :: fs, e =>
    decide (f.sent = statusBytes p p.peer.statusMarcstate) &&
      (if f.ending = .complete then
        if exit.done p.peer f.state then decide (fs = []) && decide (e = none) else followPoll p exit left fs e
      else decide (fs = []) && decide (e = f.ending.error))
  | _, _, _ => false

/-- The frames `fs` of a plan, then the reads `ps` of a state poll; or frames that stop short of the plan's end. -/
def followPlanThenPoll (p : Params) (plan : List (List Byte)) (exit : PollExit) (fs ps : List FrameRun)
    (e : Option Err) : Bool :=
  (followPlan plan fs none && followPoll p exit p.statePollLimit ps e) ||
    (decide (ps = []) && e.isSome && followPlan plan fs e)

/-- The bytes sent right after the byte `a` in the same frame. -/
def bytesAfter (a : Byte) : List Event → List Byte
  | .xfer b _ :: .xfer v r :: es => (if b = a then [v] else []) ++ bytesAfter a (.xfer v r :: es)
  | .xfer b _ :: .xferFail v :: es => (if b = a then [v] else []) ++ bytesAfter a es
  | _ :: es => bytesAfter a es
  | [] => []

/-- The events one operation added to the trace. -/
def newEvents (s t : State) : List Event := t.trace.drop s.trace.length

/-- The response of an operation without data that ended with this error or none (R19, R101). -/
def ending (e : Option Err) : Response := ⟨e.getD .ok, []⟩

/-- The response of one frame whose received bytes, less the first `drop`, are the result. -/
def FrameRun.reply (f : FrameRun) (drop : Nat) : Response :=
  match f.ending.error with
  | none => ⟨.ok, f.got.drop drop⟩
  | some e => ⟨e, []⟩

/-- The instructions that are one frame without data returned, and its bytes (R153, R154, R155, R160 to R173). -/
def writeFrameOf (p : Params) : Instr → Option (List Byte)
  | .writeSingle a v => some [a, v]
  | .writeBurst a vs => some (hdr a p.peer.burstBit :: vs)
  | .strobe v => some [v]
  | .hdrWriteSingle a v => some [fieldAddr a, v]
  | .hdrWriteBurst a vs => some (hdr (fieldAddr a) p.peer.burstBit :: vs)
  | .sres => some [0x30]
  | .sfstxon => some [0x31]
  | .sxoff => some [0x32]
  | .scal => some [0x33]
  | .srx => some [0x34]
  | .stx => some [0x35]
  | .sidle => some [0x36]
  | .reserved37 => some [0x37]
  | .swor => some [0x38]
  | .spwd => some [0x39]
  | .sfrx => some [0x3A]
  | .sftx => some [0x3B]
  | .sworrst => some [0x3C]
  | .snop => some [0x3D]
  | .transact _ | .reset | .readSingle _ | .readBurst _ _ | .setModType _ | .setSyncMode _ | .setManchester _
  | .setDcFilter _ | .setFrequency _ | .getFrequency | .enterReceive | .enterTransmit | .sendPacket _
  | .receivePacket | .setTxPower _ | .hdrReadSingle _ | .hdrReadBurst _ _ | .hdrStatusRead _ => none

/-- The wire rows that read, and the bytes of their frame (R151, R152, R156). -/
def readFrameOf (p : Params) : Instr → Option (List Byte)
  | .readSingle a => some [hdr a p.peer.readBit, p.dummyByte]
  | .readBurst a k => some (hdr a p.peer.readBurstBits :: List.replicate k.toNat p.dummyByte)
  | .hdrReadSingle a => some [hdr (fieldAddr a) p.peer.readBit, p.dummyByte]
  | .hdrReadBurst a k => some (hdr (fieldAddr a) p.peer.readBurstBits :: List.replicate k.toNat p.dummyByte)
  | .hdrStatusRead a => some [hdr (statusAddr a) p.peer.readBit, p.dummyByte]
  | _ => none

/-- The arguments the operations refuse with InvalidArgument (R272). -/
def invalidArgument (p : Params) : Instr → Bool
  | .setModType x => !([0x00, 0x01, 0x03, 0x04, 0x07] : List Byte).contains x
  | .setSyncMode x => decide (0x07 < x.toNat)
  | .setTxPower level => decide (0xFF < level.toNat)
  | .setFrequency hz => decide (2 ^ 24 ≤ freqEncode p.fXosc hz.toNat)
  | _ => false

/-- The errors an operation can answer with (R157, R270 "raised by", R278). -/
def mayRaise (i : Instr) (e : Err) : Bool :=
  match e with
  | .ok | .transportError | .readyTimeout => true
  | .illegalCommand => false
  | .invalidArgument =>
    match i with
    | .setModType _ | .setSyncMode _ | .setFrequency _ | .setTxPower _ => true
    | _ => false
  | .payloadTooLarge =>
    match i with
    | .sendPacket _ => true
    | _ => false
  | .stateTransitionTimeout =>
    match i with
    | .enterReceive | .enterTransmit | .sendPacket _ => true
    | _ => false

/-! ## The commands that are illegal (R104) -/

/-- Every `c[0]` that is no opcode of R102. -/
def illegalOpcode (op : Byte) : Bool :=
  let n := op.toNat
  decide (n = 0x00) || (decide (0x03 ≤ n) && decide (n ≤ 0x0F)) || (decide (0x15 ≤ n) && decide (n ≤ 0x1F)) ||
    (decide (0x26 ≤ n) && decide (n ≤ 0x2F)) || decide (0x35 ≤ n)

/-- A boolean operand that is neither `0x00` nor `0x01`. -/
def illegalBoolean : List Byte → Bool
  | [op, x] => (decide (op = 0x22) || decide (op = 0x23)) && decide (x ≠ 0x00) && decide (x ≠ 0x01)
  | _ => false

/-! ## Idle blocks, the bus discipline and the invariant -/

/-- Between two operations (R42, R133, R280): idle, chip-select released, no position. -/
def State.idle (s : State) : Bool :=
  !s.active && !s.cs && decide (s.seq = []) && decide (s.rx = [])

/-- The chip-select level after these events, starting from `cur`; `none` where an event breaks the bracket: a second
`CS(1)`, a second `CS(0)`, or a busy read or exchange without chip-select (R131, R133). -/
def bracket : Bool → List Event → Option Bool
  | cur, [] => some cur
  | cur, .cs a :: es => if a = cur then none else bracket a es
  | cur, .busy _ :: es => if cur then bracket cur es else none
  | cur, .xfer _ _ :: es => if cur then bracket cur es else none
  | cur, .xferFail _ :: es => if cur then bracket cur es else none
  | cur, .delay _ :: es => bracket cur es

/-- As `bracket`, but a `CS(0)` may come at any time: the leading `CS(0)` of the reset sequence (R134). -/
def busLevel : Bool → List Event → Option Bool
  | cur, [] => some cur
  | cur, .cs a :: es => if a && cur then none else busLevel a es
  | cur, .busy _ :: es => if cur then busLevel cur es else none
  | cur, .xfer _ _ :: es => if cur then busLevel cur es else none
  | cur, .xferFail _ :: es => if cur then busLevel cur es else none
  | cur, .delay _ :: es => busLevel cur es

/-- A response is legal: no data with an error (R101). -/
def Response.legal (r : Response) : Bool := decide (r.err = .ok) || decide (r.data = [])

/-- A position leads to a response with chip-select released and drives the bus only while it is asserted. -/
def positionOk : Bool → List Micro → Bool
  | _, [] => false
  | cs, .respond r :: k => !cs && decide (k = []) && r.legal
  | cs, .assert :: k => !cs && positionOk true k
  | _, .release .go :: k => positionOk false k
  | _, .release (.poll _ _) :: k => positionOk false k
  | _, .release (.reply _) :: k => decide (k = [])
  | _, .release .receiveState :: k => decide (k = [])
  | _, .release .receiveCount :: k => decide (k = [])
  | cs, .busyRead _ :: k => cs && positionOk true k
  | cs, .exchange _ :: k => cs && positionOk true k
  | cs, .delay _ :: k => positionOk cs k

/-- The legal values of the four shadows (R36 to R39). -/
def State.shadowsLegal (s : State) : Bool :=
  ([0x00, 0x80] : List Byte).contains s.dcfilter &&
  ([0x00, 0x10, 0x30, 0x40, 0x70] : List Byte).contains s.modtype &&
  ([0x00, 0x08] : List Byte).contains s.manchester &&
  decide (s.syncmode.toNat ≤ 0x07)

/-- The machine's invariant: the parameters keep their bounds, the shadows are legal (R36 to R39), an idle block holds
neither the bus nor a position (R133), an active one has a position that ends with the bus released, the trace never
drives the bus outside a frame and agrees with `S.cs` (R131, R133), and a response with an error has no data (R101). -/
def State.inv (s : State) : Bool :=
  s.params.wf && s.shadowsLegal &&
  (if s.active then positionOk s.cs s.seq else s.idle) &&
  decide (busLevel false s.trace = some s.cs) &&
  s.resp.all Response.legal

/-- The most events one frame of `n` bytes can record. -/
def frameBound (p : Params) (n : Nat) : Nat := 2 + 2 * p.readyPollLimit + n

/-- The most events one state poll can record. -/
def pollBound (p : Params) : Nat := p.statePollLimit * (frameBound p 2 + 1)

/-- The most events one operation can record (R21: no operation has an unbounded loop). -/
def eventBound (p : Params) : Instr → Nat
  | .reset => 7 + 4 * p.readyPollLimit
  | .setModType _ => 2 * frameBound p 2
  | .setTxPower _ => frameBound p 9 + frameBound p 2
  | .enterReceive | .enterTransmit => frameBound p 1 + pollBound p
  | .sendPacket b => 3 * frameBound p 1 + frameBound p (b.length + 2) + pollBound p
  | .receivePacket => 2 * frameBound p 2 + frameBound p 128
  | .transact bs => frameBound p bs.length
  | .readBurst _ k | .hdrReadBurst _ k => frameBound p (k.toNat + 1)
  | .writeBurst _ vs | .hdrWriteBurst _ vs => frameBound p (vs.length + 1)
  | .setFrequency _ | .getFrequency => frameBound p 4
  | _ => frameBound p 2

end Sys2Proof.Machine
end

