-- ==== Sys2Proof/Certificates/Slice0/Obligations.lean ====
section
/-! DEFINITION. The statements for the provers. Hypotheses are on the state and the operands alone; `State.runs` says how
the peer answers, `State.ends` is the whole state an operation ends in (every field it does not name is unchanged). A
statement about every instruction takes in the wire rows of the opcode table: that they run as operations of their own is
the model's choice (log entry 5). -/

open Sys2Proof Sys2Proof.Machine

/-! ## Encoding -/

/-- R102, R103: one word of every kind of layout, written out byte by byte. The last four words are wire forms (R91, R95,
R96): that they are read at all is the model's choice (log entry 5), and no step of the machine reads one (R90). -/
def Obligations.CommandWordsDecodeAsLaidOut : Prop :=
  decodeCommand [0x01, 0x02, 0x92, 0x00] = .ok (.transact [0x92, 0x00]) ∧
  decodeCommand [0x02] = .ok .reset ∧
  decodeCommand [0x11, 0x0D, 0x03] = .ok (.readBurst 0x0D 0x03) ∧
  decodeCommand [0x13, 0x0D, 0x02, 0x10, 0xB0] = .ok (.writeBurst 0x0D [0x10, 0xB0]) ∧
  decodeCommand [0x22, 0x01] = .ok (.setManchester true) ∧
  decodeCommand [0x24, 0x19, 0xDD, 0x18, 0x00] = .ok (.setFrequency 433920000) ∧
  decodeCommand [0x32, 0x02, 0xAA, 0x55] = .ok (.sendPacket [0xAA, 0x55]) ∧
  decodeCommand [0x34, 0x01, 0x00] = .ok (.setTxPower 0x100) ∧
  decodeWire [0x92, 0x00] = .ok (.hdrReadSingle 0x12) ∧
  decodeWire [0xF5, 0x00] = .ok (.hdrStatusRead 0x35) ∧
  decodeWire [0x4D, 0x10] = .ok (.hdrWriteBurst 0x0D [0x10]) ∧
  decodeWire [0x36] = .ok .sidle

/-- R102, R103: the decoder gives back every well-formed operation of the command port. -/
def Obligations.DecodeOfEncodedCommand : Prop :=
  ∀ i : Instr, i.wellFormed = true → i.onCommandPort = true → decodeCommand (encode i) = .ok i

/-- R102, R104, D18: a byte string that decodes is the encoding of what it decodes to, so the command encoding is
one-to-one. -/
def Obligations.DecodedCommandIsItsEncoding : Prop :=
  ∀ (c : List Byte) (i : Instr), decodeCommand c = .ok i →
    encode i = c ∧ i.wellFormed = true ∧ i.onCommandPort = true

/-- R91, R95, R96: the wire rows of the opcode table, in both directions. That a model reads them at all is log entry 5. -/
def Obligations.WireRowsRoundTrip : Prop :=
  (∀ i : Instr, i.wellFormed = true → i.onCommandPort = false → decodeWire (encode i) = .ok i) ∧
  (∀ (bs : List Byte) (i : Instr), decodeWire bs = .ok i →
    encode i = bs ∧ i.wellFormed = true ∧ i.onCommandPort = false)

/-- R104: the three causes, in their order; a command with none of them is decoded; and the block answers
`(IllegalCommand, [])`, nothing else of an idle block changing but the port the command came from (R277). The last
clause takes in the empty byte string, which has no `c[0]`: that it is illegal is log entry 9 (DEDUCED). -/
def Obligations.IllegalCommandsAreAnswered : Prop :=
  (∀ (op : Byte) (args : List Byte),
    (illegalOpcode op = true → decodeCommand (op :: args) = .error .badOpcode) ∧
    (illegalOpcode op = false → commandLength (op :: args) ≠ some (op :: args).length →
      decodeCommand (op :: args) = .error .badLength) ∧
    (illegalOpcode op = false → commandLength (op :: args) = some (op :: args).length →
      illegalBoolean (op :: args) = true → decodeCommand (op :: args) = .error .badBoolean) ∧
    (illegalOpcode op = false → commandLength (op :: args) = some (op :: args).length →
      illegalBoolean (op :: args) = false → ∃ i, decodeCommand (op :: args) = .ok i)) ∧
  (∀ (s : State) (c : List Byte) (e : DecodeError), s.idle = true → s.port = some (.command c) →
    decodeCommand c = .error e →
    step s = .next { s with port := none, resp := some ⟨.illegalCommand, []⟩ })

/-- R106: the length read off the first bytes is the length of the command, at most 258, which WRITE_BURST reaches. -/
def Obligations.CommandLengthIsDetermined : Prop :=
  (∀ (c : List Byte) (i : Instr), decodeCommand c = .ok i → commandLength c = some c.length ∧ c.length ≤ 258) ∧
  (∃ (a : Byte) (vs : List Byte), decodeCommand (0x13 :: a :: 0xFF :: vs) = .ok (.writeBurst a vs) ∧
    (0x13 :: a :: 0xFF :: vs : List Byte).length = 258)

/-- R66, R103: the frequency and the power level are big-endian. -/
def Obligations.OperandsAreBigEndian : Prop :=
  (∀ f3 f2 f1 f0 : Byte, ∃ hz : BitVec 32, decodeCommand [0x24, f3, f2, f1, f0] = .ok (.setFrequency hz) ∧
    hz.toNat = f3.toNat * 2 ^ 24 + f2.toNat * 2 ^ 16 + f1.toNat * 2 ^ 8 + f0.toNat) ∧
  (∀ l1 l0 : Byte, ∃ level : BitVec 16, decodeCommand [0x34, l1, l0] = .ok (.setTxPower level) ∧
    level.toNat = l1.toNat * 2 ^ 8 + l0.toNat)

/-! ## Reset, response and the host -/

/-- R51, R300: the state after power-on reset. -/
def Obligations.PowerOnResetState : Prop :=
  State.reset.cs = false ∧ State.reset.active = false ∧ State.reset.seq = [] ∧ State.reset.dcfilter = 0x00 ∧
  State.reset.modtype = 0x00 ∧ State.reset.manchester = 0x00 ∧ State.reset.syncmode = 0x00 ∧
  State.reset.packed = 0x00 ∧ State.reset.resp = none ∧
  readResponse State.reset = .error .responseNotWritten ∧ State.reset.trace = []

/-- The machine's invariant holds after power-on reset, whatever the OPEN parameters are (log entry 3). -/
def Obligations.InvariantHoldsAtReset : Prop := State.reset.inv = true

/-- R101: after a well-formed instruction the host reads `[err, k, d0, ...]`, `k` the number of data bytes, no data with
an error; after a command that is none it reads `[06, 00]`. -/
def Obligations.ResponseBytesCountTheirData : Prop :=
  (∀ (i : Instr) (s : State), i.wellFormed = true →
    ∃ (t : State) (r : Response) (k : Byte), exec i s = .next t ∧ t.resp = some r ∧
      readResponse t = .ok (r.err.code :: k :: r.data) ∧ k.toNat = r.data.length ∧ (r.err ≠ .ok → k = 0)) ∧
  (∀ s : State, readResponse (rejectCommand s) = .ok [0x06, 0x00])

/-- R102, column "data returned", for the operations of the command port. The rows hdrReadSingle, hdrStatusRead and
hdrReadBurst, and the other wire rows, are no rows of R102: that they run, and answer as the primitive of their own rule
does, is the model's choice (log entry 5). -/
def Obligations.DataReturnedPerOperation : Prop :=
  ∀ (i : Instr) (s t : State) (d : List Byte), exec i s = .next t → t.resp = some ⟨.ok, d⟩ →
    match i with
    | .transact bs => d.length = bs.length
    | .readSingle _ | .hdrReadSingle _ | .hdrStatusRead _ => d.length = 1
    | .readBurst _ k | .hdrReadBurst _ k => d.length = k.toNat
    | .getFrequency => d.length = 3
    | .receivePacket => d.length ≤ 127
    | _ => d = []

/-- A step of an idle block runs the instruction its waiting command decodes to, on the state with the port emptied; at
the sequencer's grain it starts that instruction, and the next step answers a command that does not decode (R104). In the
middle of an operation both are one step of the sequencer. The model's choices in it: the two grains and the acceptance
step (log entry 4), a wire row waiting as an operation (log entry 5), and that with nothing waiting a step changes
nothing (log entry 14, DEDUCED), which is so right after reset, whose port is empty (log entry 1). -/
def Obligations.StepRunsTheDecodedInstruction : Prop :=
  (∀ (s : State) (c : List Byte) (i : Instr), s.active = false → s.port = some (.command c) →
    decodeCommand c = .ok i →
    step s = exec i { s with port := none } ∧ fineStep s = .next (start i { s with port := none })) ∧
  (∀ (s : State) (i : Instr), s.active = false → s.port = some (.row i) →
    step s = exec i { s with port := none } ∧ fineStep s = .next (start i { s with port := none })) ∧
  (∀ (s : State) (c : List Byte) (e : DecodeError), s.active = false → s.port = some (.command c) →
    decodeCommand c = .error e →
    step s = .next (rejectCommand { s with port := none }) ∧
    ∃ u, fineStep s = .next u ∧ u.active = true ∧ fineStep u = .next (rejectCommand { s with port := none })) ∧
  (∀ s : State, s.active = false → s.port = none → step s = .next s ∧ fineStep s = .next s) ∧
  (∀ s : State, s.active = true → step s = tick s ∧ fineStep s = tick s) ∧
  step State.reset = .next State.reset

/-- R100, R284: the host's command is taken only when no operation executes, and then runs. That a second command is
refused while one waits is log entry 10. -/
def Obligations.CommandsAreTakenOnlyWhenIdle : Prop :=
  (∀ (s : State) (c : List Byte), s.active = true → issue c s = .refused .commandWhileActive) ∧
  (∀ (s : State) (c : List Byte) (i : Instr), s.active = false → s.port = none → decodeCommand c = .ok i →
    ∃ t, issue c s = .next t ∧ step t = exec i s)

/-! ## BusFrame and RegisterAccess -/

/-- Every list of bytes has exactly one frame run against the peer's answers: the hypotheses `runs` below never shut
out a case. -/
def Obligations.EveryFrameRunsExactlyOneWay : Prop :=
  ∀ (s : State) (nb nx : Nat) (bytes : List Byte),
    (∃ f : FrameRun, f.sent = bytes ∧ s.runsFrame nb nx f = true) ∧
    (∀ f g : FrameRun, f.sent = bytes → g.sent = bytes → s.runsFrame nb nx f = true →
      s.runsFrame nb nx g = true → f = g)

/-- R130, R131, R132: transact is one frame, whatever the peer answers; success returns every received byte. -/
def Obligations.TransactIsOneFrame : Prop :=
  ∀ (s : State) (f : FrameRun), s.runs 0 0 [f] = true →
    exec (.transact f.sent) s = .next (s.ends [f] f.events (f.reply 0))

/-- R134, R135, R137: the reset sequence in its four cases: the first ready-wait runs out, the reset byte's exchange
fails, the second ready-wait runs out, or it succeeds. The shadows are not among the fields that change. -/
def Obligations.DeviceResetSequence : Prop :=
  ∀ (s : State) (w1 w2 : Nat) (r : Byte),
    let head := [Event.cs false, .delay .rst1, .cs true, .delay .rst2]
    let sres := s.params.peer.strobeSres
    let limit := s.params.readyPollLimit
    ((∀ k < limit, s.busyAt k = true) →
      exec .reset s = .next (s.endsAfter limit 0 (head ++ timeoutEvents limit ++ [.cs false]) ⟨.readyTimeout, []⟩)) ∧
    (w1 < limit → (∀ k < w1, s.busyAt k = true) → s.busyAt w1 = false →
      (s.xferAt 0 = none →
        exec .reset s = .next (s.endsAfter (w1 + 1) 1 (head ++ readyEvents w1 ++ [.xferFail sres, .cs false])
          ⟨.transportError, []⟩)) ∧
      (s.xferAt 0 = some r → (∀ k < limit, s.busyAt (w1 + 1 + k) = true) →
        exec .reset s = .next (s.endsAfter (w1 + 1 + limit) 1
          (head ++ readyEvents w1 ++ [.xfer sres r] ++ timeoutEvents limit ++ [.cs false]) ⟨.readyTimeout, []⟩)) ∧
      (s.xferAt 0 = some r → w2 < limit → (∀ k < w2, s.busyAt (w1 + 1 + k) = true) →
        s.busyAt (w1 + 1 + w2) = false →
        exec .reset s = .next (s.endsAfter (w1 + 1 + (w2 + 1)) 1
          (head ++ readyEvents w1 ++ [.xfer sres r] ++ readyEvents w2 ++ [.cs false, .delay .settle]) ⟨.ok, []⟩)))

/-- R151, R152: readSingle and readBurst are one frame, header then dummy bytes; success returns the data-phase
bytes. -/
def Obligations.ReadsReturnTheDataPhase : Prop :=
  ∀ (i : Instr) (s : State) (f : FrameRun), i.onCommandPort = true → readFrameOf s.params i = some f.sent →
    s.runs 0 0 [f] = true → exec i s = .next (s.ends [f] f.events (f.reply 1))

/-- R153, R154, R155: writeSingle, writeBurst and strobe are one frame and return no data. -/
def Obligations.WritesAndStrobesSendOneFrame : Prop :=
  ∀ (i : Instr) (s : State) (f : FrameRun), i.onCommandPort = true → writeFrameOf s.params i = some f.sent →
    s.runs 0 0 [f] = true → exec i s = .next (s.ends [f] f.events (ending f.ending.error))

/-- The wire rows of the opcode table run as operations of their own, which is the model's choice (log entry 5): each
is one frame, a read row returning the data phase, a write or strobe row returning nothing. -/
def Obligations.WireRowsRunAsOneFrame : Prop :=
  ∀ (i : Instr) (s : State) (f : FrameRun), i.onCommandPort = false → s.runs 0 0 [f] = true →
    (readFrameOf s.params i = some f.sent → exec i s = .next (s.ends [f] f.events (f.reply 1))) ∧
    (writeFrameOf s.params i = some f.sent → exec i s = .next (s.ends [f] f.events (ending f.ending.error)))

/-- R91, R95, R96, R97: with the CC1101's constants and the spec's dummy byte, the frame a wire row puts on the bus is
its encoding, bit for bit, whatever the peer answers; a row with `RW` set (bit 7 of the header, R92) returns the data
phase, any other nothing. That a wire row runs as an operation of its own is the model's choice (log entry 5). -/
def Obligations.WireRowsSendTheirEncoding : Prop :=
  ∀ (i : Instr) (s : State), i.onCommandPort = false → s.params.peer = Config.cc1101 →
    s.params.dummyByte = Config.dummyByte →
    (readFrameOf s.params i = some (encode i) ∨ writeFrameOf s.params i = some (encode i)) ∧
    ∀ f : FrameRun, f.sent = encode i → s.runs 0 0 [f] = true →
      exec i s = .next (s.ends [f] f.events
        (if ((encode i).headD 0x00).getLsbD 7 then f.reply 1 else ending f.ending.error))

/-- R94, R96: every status address passes through the read header unchanged, and the OR never clears a bit of an
address. -/
def Obligations.HeadersKeepTheAddressBits : Prop :=
  (∀ a : Byte, 0xF0 ≤ a.toNat → a.toNat ≤ 0xFD → hdr a Config.cc1101.readBit = a) ∧
  (∀ (a opbits : Byte) (k : Nat), a.getLsbD k = true → (hdr a opbits).getLsbD k = true)

/-! ## ConfigModel -/

/-- R40: the packed byte, field by field. -/
def Obligations.PackedByteHasFourFields : Prop :=
  ∀ s : State,
    s.packed = (s.dcfilter &&& 0x80) ||| (s.modtype &&& 0x70) ||| (s.manchester &&& 0x08) ||| (s.syncmode &&& 0x07) ∧
    s.packed.getLsbD 7 = s.dcfilter.getLsbD 7 ∧
    s.packed.extractLsb' 4 3 = s.modtype.extractLsb' 4 3 ∧
    s.packed.getLsbD 3 = s.manchester.getLsbD 3 ∧
    s.packed.extractLsb' 0 3 = s.syncmode.extractLsb' 0 3

/-- R190, R191, R192, R198: an unsupported selector does nothing; a supported one writes its shadow, then MDMCFG2, then
FREND0, and the shadow is kept if a write fails. -/
def Obligations.SetModulationTypeWrites : Prop :=
  ∀ (s : State) (x : Byte), s.cs = false →
    (x ∉ ([0x00, 0x01, 0x03, 0x04, 0x07] : List Byte) →
      exec (.setModType x) s = .next (s.ends [] [] ⟨.invalidArgument, []⟩)) ∧
    (x ∈ ([0x00, 0x01, 0x03, 0x04, 0x07] : List Byte) →
      ∀ (fs : List FrameRun) (e : Option Err),
        let t := { s with modtype := x <<< 4 }
        let p := s.params.peer
        followPlan [[p.regMdmcfg2, t.packed], [p.regFrend0, if x = 0x03 then 0x11 else 0x10]] fs e = true →
        s.runs 0 0 fs = true →
        exec (.setModType x) s = .next (t.ends fs (framesEvents fs) (ending e)))

/-- R190, R193, R198. -/
def Obligations.SetSyncModeWrites : Prop :=
  ∀ (s : State) (x : Byte), s.cs = false →
    (0x07 < x.toNat → exec (.setSyncMode x) s = .next (s.ends [] [] ⟨.invalidArgument, []⟩)) ∧
    (x.toNat ≤ 0x07 →
      ∀ f : FrameRun,
        let t := { s with syncmode := x }
        f.sent = [s.params.peer.regMdmcfg2, t.packed] → s.runs 0 0 [f] = true →
        exec (.setSyncMode x) s = .next (t.ends [f] f.events (ending f.ending.error)))

/-- R190, R195, R198. -/
def Obligations.SetManchesterWrites : Prop :=
  ∀ (s : State) (b : Bool) (f : FrameRun),
    let t := { s with manchester := if b then 0x08 else 0x00 }
    f.sent = [s.params.peer.regMdmcfg2, t.packed] → s.runs 0 0 [f] = true →
    exec (.setManchester b) s = .next (t.ends [f] f.events (ending f.ending.error))

/-- R190, R196, R198. -/
def Obligations.SetDCFilterWrites : Prop :=
  ∀ (s : State) (b : Bool) (f : FrameRun),
    let t := { s with dcfilter := if b then 0x80 else 0x00 }
    f.sent = [s.params.peer.regMdmcfg2, t.packed] → s.runs 0 0 [f] = true →
    exec (.setDcFilter b) s = .next (t.ends [f] f.events (ending f.ending.error))

/-- R197: a setter changes its own shadow only, and the MDMCFG2 byte it sends differs from the packed byte of the start
state at most in its own field. -/
def Obligations.SettersAreIndependent : Prop :=
  ∀ (s t : State), s.params.peer = Config.cc1101 →
    (∀ x : Byte, exec (.setModType x) s = .next t →
      (t.dcfilter = s.dcfilter ∧ t.manchester = s.manchester ∧ t.syncmode = s.syncmode) ∧
      ∀ v ∈ bytesAfter 0x12 (newEvents s t), (v ^^^ s.packed) &&& 0x8F = 0) ∧
    (∀ x : Byte, exec (.setSyncMode x) s = .next t →
      (t.dcfilter = s.dcfilter ∧ t.modtype = s.modtype ∧ t.manchester = s.manchester) ∧
      ∀ v ∈ bytesAfter 0x12 (newEvents s t), (v ^^^ s.packed) &&& 0xF8 = 0) ∧
    (∀ b : Bool, exec (.setManchester b) s = .next t →
      (t.dcfilter = s.dcfilter ∧ t.modtype = s.modtype ∧ t.syncmode = s.syncmode) ∧
      ∀ v ∈ bytesAfter 0x12 (newEvents s t), (v ^^^ s.packed) &&& 0xF7 = 0) ∧
    (∀ b : Bool, exec (.setDcFilter b) s = .next t →
      (t.modtype = s.modtype ∧ t.manchester = s.manchester ∧ t.syncmode = s.syncmode) ∧
      ∀ v ∈ bytesAfter 0x12 (newEvents s t), (v ^^^ s.packed) &&& 0x7F = 0)

/-- R202: a word that does not fit 24 bits is refused before any bus action; any other is one three-byte burst. -/
def Obligations.SetFrequencyBursts : Prop :=
  ∀ (s : State) (hz : BitVec 32), s.cs = false →
    let w := freqEncode s.params.fXosc hz.toNat
    (2 ^ 24 ≤ w → exec (.setFrequency hz) s = .next (s.ends [] [] ⟨.invalidArgument, []⟩)) ∧
    (w < 2 ^ 24 →
      ∀ f : FrameRun,
        f.sent = [hdr s.params.peer.regFreq2 s.params.peer.burstBit, BitVec.ofNat 8 (w / 65536),
          BitVec.ofNat 8 (w / 256), BitVec.ofNat 8 w] → s.runs 0 0 [f] = true →
        exec (.setFrequency hz) s = .next (s.ends [f] f.events (ending f.ending.error)))

/-- R204: one burst read of three bytes, returned high byte first. -/
def Obligations.GetFrequencyReads : Prop :=
  ∀ (s : State) (f : FrameRun),
    f.sent = [hdr s.params.peer.regFreq2 s.params.peer.readBurstBits, s.params.dummyByte, s.params.dummyByte,
      s.params.dummyByte] → s.runs 0 0 [f] = true →
    exec .getFrequency s = .next (s.ends [f] f.events (f.reply 1))

/-- R200: the integer form is the exact rational rounded half up. -/
def Obligations.EncodeRoundsHalfUp : Prop :=
  ∀ fXosc hz : Nat, 0 < fXosc →
    ((freqEncode fXosc hz : Nat) : Int) = ⌊((hz * 65536 : Nat) : Rat) / (fXosc : Nat) + 1 / 2⌋

/-- R203, R205: decoding an encoded frequency gives it back within half a unit of the word. -/
def Obligations.FrequencyRoundTrip : Prop :=
  ∀ fXosc hz : Nat, 0 < fXosc → freqEncode fXosc hz < 2 ^ 24 →
    |freqDecode fXosc (freqEncode fXosc hz) - ((hz : Nat) : Rat)| ≤ ((fXosc : Nat) : Rat) / ((2 ^ 17 : Nat) : Rat)

/-- The corners the spec derives beside R200 and R202: at 26 MHz no tie occurs, and the largest operand that encodes is
6 655 999 801 Hz, above every 32-bit one; a 32-bit operand can overflow the word only at a crystal of 16 777 216 Hz or
less. -/
def Obligations.FrequencyOverflowCorners : Prop :=
  (∀ hz n : Nat, ((hz * 65536 : Nat) : Rat) / ((26000000 : Nat) : Rat) ≠ ((n : Nat) : Rat) + 1 / 2) ∧
  (∀ hz : Nat, freqEncode 26000000 hz < 2 ^ 24 ↔ hz ≤ 6655999801) ∧
  (∀ fXosc : Nat, 0 < fXosc →
    ((∃ hz : BitVec 32, 2 ^ 24 ≤ freqEncode fXosc hz.toNat) ↔ fXosc ≤ 16777216)) ∧
  freqEncode 26000000 0 = 0 ∧ freqEncode 26000000 198 = 0 ∧ freqEncode 26000000 199 = 1 ∧
  freqEncode 26000000 433920000 = 0x10B071

/-- R63, R201, R204: the three bytes of the word, high byte first, and the word of three bytes. -/
def Obligations.FrequencyBytesAreBigEndian : Prop :=
  (∀ w : Nat, w < 2 ^ 24 → ∃ b0 b1 b2 : Byte, freqBytes w = [b0, b1, b2] ∧ freqWord b0 b1 b2 = w ∧
    w = b0.toNat * 65536 + b1.toNat * 256 + b2.toNat) ∧
  (∀ b0 b1 b2 : Byte, freqBytes (freqWord b0 b1 b2) = [b0, b1, b2])

/-! ## RadioControl -/

/-- R230, R231. -/
def Obligations.EnterReceivePollsForRx : Prop :=
  ∀ (s : State) (fs ps : List FrameRun) (e : Option Err),
    followPlanThenPoll s.params [[s.params.peer.strobeSrx]] .isRx fs ps e = true →
    s.runs 0 0 (fs ++ ps) = true →
    exec .enterReceive s = .next (s.ends (fs ++ ps) (framesEvents fs ++ pollEvents ps) (ending e))

/-- R230, R232. -/
def Obligations.EnterTransmitPollsForTx : Prop :=
  ∀ (s : State) (fs ps : List FrameRun) (e : Option Err),
    followPlanThenPoll s.params [[s.params.peer.strobeStx]] .isTx fs ps e = true →
    s.runs 0 0 (fs ++ ps) = true →
    exec .enterTransmit s = .next (s.ends (fs ++ ps) (framesEvents fs ++ pollEvents ps) (ending e))

/-- R230, R233, R234, R235: the size check first; then idle, flush, load, transmit, and the poll. -/
def Obligations.SendPacketLoadsAndPolls : Prop :=
  ∀ (s : State) (b : List Byte), s.cs = false →
    let p := s.params.peer
    (s.params.fifoCapacity < b.length → exec (.sendPacket b) s = .next (s.ends [] [] ⟨.payloadTooLarge, []⟩)) ∧
    (b.length ≤ s.params.fifoCapacity →
      ∀ (fs ps : List FrameRun) (e : Option Err),
        followPlanThenPoll s.params
          [[p.strobeSidle], [p.strobeSftx], hdr p.addrFifo p.burstBit :: BitVec.ofNat 8 b.length :: b, [p.strobeStx]]
          .leftTx fs ps e = true →
        s.runs 0 0 (fs ++ ps) = true →
        exec (.sendPacket b) s = .next (s.ends (fs ++ ps) (framesEvents fs ++ pollEvents ps) (ending e)))

/-- R240, R241, R242: a failed status read; the overflow self-heal; a failed count read or a count of zero; the read of
that many bytes. -/
def Obligations.ReceivePacketReadsOrHeals : Prop :=
  ∀ (s : State) (f : FrameRun), f.sent = statusBytes s.params s.params.peer.statusMarcstate →
    let p := s.params.peer
    (f.ending ≠ .complete → s.runs 0 0 [f] = true →
      exec .receivePacket s = .next (s.ends [f] f.events (ending f.ending.error))) ∧
    (f.ending = .complete → f.state = p.msRxfifoOverflow →
      ∀ (fs : List FrameRun) (e : Option Err), followPlan [[p.strobeSfrx], [p.strobeSrx]] fs e = true →
        s.runs 0 0 (f :: fs) = true →
        exec .receivePacket s = .next (s.ends (f :: fs) (framesEvents (f :: fs)) (ending e))) ∧
    (f.ending = .complete → f.state ≠ p.msRxfifoOverflow →
      ∀ g : FrameRun, g.sent = statusBytes s.params p.statusRxbytes →
        let c := (g.got.getD 1 0 &&& 0x7F).toNat
        (g.ending ≠ .complete ∨ c = 0 → s.runs 0 0 [f, g] = true →
          exec .receivePacket s = .next (s.ends [f, g] (framesEvents [f, g]) (ending g.ending.error))) ∧
        (g.ending = .complete → c ≠ 0 →
          ∀ h : FrameRun, h.sent = hdr p.addrFifo p.readBurstBits :: List.replicate c s.params.dummyByte →
            s.runs 0 0 [f, g, h] = true →
            exec .receivePacket s = .next (s.ends [f, g, h] (framesEvents [f, g, h]) (h.reply 1))))

/-- R245, R246, R247: a level that is not one byte is refused; else the eight-entry table and FREND0 `0x10`. -/
def Obligations.SetTxPowerWritesTheTable : Prop :=
  ∀ (s : State) (level : BitVec 16), s.cs = false →
    let p := s.params.peer
    (0xFF < level.toNat → exec (.setTxPower level) s = .next (s.ends [] [] ⟨.invalidArgument, []⟩)) ∧
    (level.toNat ≤ 0xFF →
      ∀ (fs : List FrameRun) (e : Option Err),
        followPlan [[hdr p.addrPatable p.burstBit, level.setWidth 8, 0, 0, 0, 0, 0, 0, 0], [p.regFrend0, 0x10]] fs e
          = true →
        s.runs 0 0 fs = true →
        exec (.setTxPower level) s = .next (s.ends fs (framesEvents fs) (ending e)))

/-- R236: the poll of sendPacket ends at the 30 states other than TX and TX_END. (The other two exits and the mask:
StatePollExitsReadTheMaskedState.) -/
def Obligations.SendPacketPollEndsOutsideTx : Prop :=
  (∀ m : RadioState, PollExit.leftTx.done Config.cc1101 m = true ↔ m ≠ 0x13 ∧ m ≠ 0x14) ∧
  ((List.range 32).filter (fun n => PollExit.leftTx.done Config.cc1101 (BitVec.ofNat 5 n))).length = 30

/-- R313, the false variant of 95_test_vectors: this claim FAILS. -/
def Obligations.SendPacketSucceedsOnlyAfterTx : Prop :=
  ∀ (s t : State) (b : List Byte), s.idle = true → s.params.wf = true → s.params.peer = Config.cc1101 →
    exec (.sendPacket b) s = .next t → t.resp = some ⟨.ok, []⟩ →
    ∃ v r, Event.xfer v r ∈ newEvents s t ∧ radioState r = Config.cc1101.msTx

/-! ## The whole machine -/

/-- R133, R134: of every operation, whatever the peer answers, the chip-select events alternate, every busy read and
exchange lies inside the bracket, and the bus is released at the end; reset alone begins with one more `CS(0)`. -/
def Obligations.ChipSelectIsSymmetric : Prop :=
  ∀ (i : Instr) (s t : State), s.cs = false → exec i s = .next t →
    t.cs = false ∧ ∃ evs, t.trace = s.trace ++ evs ∧
      (if i = .reset then evs.head? = some (.cs false) ∧ bracket false evs.tail = some false
       else bracket false evs = some false)

/-- Every step of the machine keeps the invariant, from every state. -/
def Obligations.StepKeepsTheInvariant : Prop :=
  ∀ s t : State, s.inv = true → step s = .next t → t.inv = true

/-- Every step at the sequencer's grain keeps the invariant, from every state. -/
def Obligations.FineStepKeepsTheInvariant : Prop :=
  ∀ s t : State, s.inv = true → fineStep s = .next t → t.inv = true

/-- R18, R8: a step of an active sequencer is exactly one primitive action with its one event: CsSet drives chip-select,
BusyRead and Xfer take the peer's next answer, Delay does neither; or it is the write of the response. The response, the
shadows, the parameters and the port are left alone by a primitive action: that a setter's shadow is written before the
first of them, at acceptance, is the model's choice (log entry 4). -/
def Obligations.SequencerStepIsOneAction : Prop :=
  ∀ s t : State, tick s = .next t →
    t.params = s.params ∧ t.port = s.port ∧ t.dcfilter = s.dcfilter ∧ t.modtype = s.modtype ∧
    t.manchester = s.manchester ∧ t.syncmode = s.syncmode ∧
    ((∃ e, t.trace = s.trace ++ [e] ∧ t.resp = s.resp ∧ t.active = s.active ∧
        (∀ k, t.busyAt k = s.busyAt (k + match e with | .busy _ => 1 | _ => 0)) ∧
        (∀ k, t.xferAt k = s.xferAt (k + match e with | .xfer _ _ => 1 | .xferFail _ => 1 | _ => 0)) ∧
        match e with
        | .cs a => t.cs = a
        | .busy v => t.cs = s.cs ∧ s.busyAt 0 = v
        | .xfer _ r => t.cs = s.cs ∧ s.xferAt 0 = some r
        | .xferFail _ => t.cs = s.cs ∧ s.xferAt 0 = none
        | .delay _ => t.cs = s.cs) ∨
      (t.trace = s.trace ∧ t.cs = s.cs ∧ t.active = false ∧ t.seq = [] ∧
        ∃ r, s.seq.head? = some (.respond r) ∧ t.resp = some r))

/-- R19, R279: an error releases chip-select if it is asserted, abandons the rest of the operation, writes the response
and leaves the block idle; every other field keeps the value it had. -/
def Obligations.ErrorsReleaseAndAnswer : Prop :=
  ∀ (e : Err) (rest : List Byte → Op (List Byte)) (s : State),
    runOp (raise e >>= rest) s =
      { s with
        cs := false
        active := false
        seq := []
        rx := []
        resp := some ⟨e, []⟩
        trace := s.trace ++ if s.cs then [.cs false] else [] }

/-- R8, R31, R42: stepping the sequencer from acceptance, one action at a time, reaches exactly the state `exec` gives,
is active until then, and takes one step per event and one for the response. That `step` runs an operation in one go,
and that `start` is a step without an event in which a setter's shadow is written, are the model's choices (log
entry 4). -/
def Obligations.SequencerRefinesExec : Prop :=
  ∀ (i : Instr) (s : State), ∃ (n : Nat) (t : State), exec i s = .next t ∧ ticks n (start i s) = some t ∧
    t.active = false ∧ n = (newEvents s t).length + 1 ∧
    ∀ m < n, ∃ u, ticks m (start i s) = some u ∧ u.active = true

/-- R157, R270, R278, R280: every operation answers, once, with an error it may raise and no data with it, and leaves
the block idle. -/
def Obligations.EveryOperationAnswers : Prop :=
  ∀ (i : Instr) (s : State), s.cs = false → ∃ (t : State) (r : Response), exec i s = .next t ∧ t.resp = some r ∧
    mayRaise i r.err = true ∧ (r.err ≠ .ok → r.data = []) ∧ t.idle = true

/-- R272, D37: InvalidArgument exactly on an unsupported argument, and then nothing but the response changes. -/
def Obligations.InvalidArgumentBeforeAnyAction : Prop :=
  ∀ (i : Instr) (s : State), s.idle = true → ∃ t, exec i s = .next t ∧
    (t.resp = some ⟨.invalidArgument, []⟩ ↔ invalidArgument s.params i = true) ∧
    (invalidArgument s.params i = true → t = { s with resp := some ⟨.invalidArgument, []⟩ })

/-- R233, R273: PayloadTooLarge exactly when the payload exceeds the capacity, and then nothing but the response
changes. -/
def Obligations.PayloadTooLargeBeforeAnyAction : Prop :=
  ∀ (b : List Byte) (s : State), s.idle = true → ∃ t, exec (.sendPacket b) s = .next t ∧
    (t.resp = some ⟨.payloadTooLarge, []⟩ ↔ s.params.fifoCapacity < b.length) ∧
    (s.params.fifoCapacity < b.length → t = { s with resp := some ⟨.payloadTooLarge, []⟩ })

/-- R35, R52, R61, R137: a shadow is written by its own setter only, and no operation writes the parameters or the
port. -/
def Obligations.ShadowsAreWrittenBySettersOnly : Prop :=
  ∀ (i : Instr) (s t : State), exec i s = .next t →
    t.params = s.params ∧ t.port = s.port ∧
    ((∀ x, i ≠ .setModType x) → t.modtype = s.modtype) ∧
    ((∀ x, i ≠ .setSyncMode x) → t.syncmode = s.syncmode) ∧
    ((∀ b, i ≠ .setManchester b) → t.manchester = s.manchester) ∧
    ((∀ b, i ≠ .setDcFilter b) → t.dcfilter = s.dcfilter)

/-- R35, R41: outside the setters no operation reads a shadow: two blocks that differ in their shadows, and get the
same answers, do the same on the bus and answer the same. -/
def Obligations.OnlySettersReadTheShadows : Prop :=
  ∀ (i : Instr) (s : State) (dc mt ma sy : Byte),
    (∀ x, i ≠ .setModType x) → (∀ x, i ≠ .setSyncMode x) → (∀ b, i ≠ .setManchester b) →
    (∀ b, i ≠ .setDcFilter b) →
    ∃ t, exec i s = .next t ∧
      exec i { s with dcfilter := dc, modtype := mt, manchester := ma, syncmode := sy } =
        .next { t with dcfilter := dc, modtype := mt, manchester := ma, syncmode := sy }

/-- R20, R41: what an operation does on the bus and answers does not depend on the response, the trace or the waiting
command it finds. -/
def Obligations.HistoryDoesNotMatter : Prop :=
  ∀ (i : Instr) (s : State) (r : Option Response) (q : Option Request) (tr : List Event),
    ∃ t, exec i s = .next t ∧
      exec i { s with resp := r, port := q, trace := tr } =
        .next { t with port := q, trace := tr ++ newEvents s t }

/-- R21, R130, R230: no operation has an unbounded loop: the events it can record are bounded by the parameters and its
own operands. -/
def Obligations.EveryOperationIsBounded : Prop :=
  ∀ (i : Instr) (s : State), s.params.wf = true → ∃ t, exec i s = .next t ∧
    (newEvents s t).length ≤ eventBound s.params i

/-! ## Claims under the simulated register store (95_test_vectors; a premise about the peer, R312) -/

/-- R190, R197, R320: whatever the store held, after a setter that answers OK its MDMCFG2 is the packed byte of the
block, and after setModulationType its FREND0 is the type's. -/
def Obligations.SettersSynchroniseTheStore : Prop :=
  ∀ (i : Instr) (s t : State) (p q : SimPeer), s.params.peer = Config.cc1101 → s.cs = false →
    p.regs.length = 48 → exec i s = .next t → t.resp = some ⟨.ok, []⟩ →
    SimPeer.follow (newEvents s t) p = some q →
    match i with
    | .setModType x =>
      q.reg 0x12 = t.packed ∧ q.reg 0x22 = if x = 0x03 then 0x11 else 0x10
    | .setSyncMode _ | .setManchester _ | .setDcFilter _ => q.reg 0x12 = t.packed
    | _ => True

/-- R205 and example W2: with a peer that is a register store, getFrequency after setFrequency returns the word that was
written, within half a unit of the word of the frequency asked for. -/
def Obligations.FrequencyReadsBackFromTheStore : Prop :=
  ∀ (s t u : State) (hz : BitVec 32) (p q : SimPeer) (d : List Byte), s.params.peer = Config.cc1101 →
    0 < s.params.fXosc → s.cs = false → p.regs.length = 48 →
    exec (.setFrequency hz) s = .next t → t.resp = some ⟨.ok, []⟩ →
    exec .getFrequency t = .next u → u.resp = some ⟨.ok, d⟩ →
    SimPeer.follow (newEvents s u) p = some q →
    ∃ b0 b1 b2 : Byte, d = [b0, b1, b2] ∧ freqWord b0 b1 b2 = freqEncode s.params.fXosc hz.toNat ∧
      |freqDecode s.params.fXosc (freqWord b0 b1 b2) - ((hz.toNat : Nat) : Rat)| ≤
        ((s.params.fXosc : Nat) : Rat) / ((2 ^ 17 : Nat) : Rat)

/-- R315: the last of the two writers of FREND0 wins, both OK: setModulationType and then setTxPower leaves the store's
FREND0 at index 0, setTxPower and then setModulationType leaves the type's value; either way the power table holds the
level alone. -/
def Obligations.LastFrend0WriteWins : Prop :=
  ∀ (s t u : State) (x : Byte) (level : BitVec 16) (p q : SimPeer), s.params.peer = Config.cc1101 → s.cs = false →
    p.regs.length = 48 → p.power.length = 8 → t.resp = some ⟨.ok, []⟩ → u.resp = some ⟨.ok, []⟩ →
    SimPeer.follow (newEvents s u) p = some q →
    (exec (.setModType x) s = .next t → exec (.setTxPower level) t = .next u →
      q.reg 0x22 = 0x10 ∧ q.power = [level.setWidth 8, 0, 0, 0, 0, 0, 0, 0]) ∧
    (exec (.setTxPower level) s = .next t → exec (.setModType x) t = .next u →
      q.reg 0x22 = (if x = 0x03 then 0x11 else 0x10) ∧ q.power = [level.setWidth 8, 0, 0, 0, 0, 0, 0, 0])

/-! ## What the statements about state polls read -/

/-- R45, R230, R231, R232, R236: what the words of the poll statements mean, which are the machine's own: the state is the
low five bits of MARCSTATE, the data byte of the status read (`& 0x1F`), and the three exits are RX, TX (TX_END is none)
and anything but TX and TX_END, whatever the peer's codes; the CC1101's codes are those of R16. -/
def Obligations.StatePollExitsReadTheMaskedState : Prop :=
  (∀ b : Byte, (radioState b).setWidth 8 = b &&& 0x1F) ∧
  (∀ (f : FrameRun) (status b : Byte), f.got = [status, b] → f.state.setWidth 8 = b &&& 0x1F) ∧
  (∀ (t : PeerTable) (m : RadioState),
    (PollExit.isRx.done t m = true ↔ m = t.msRx) ∧
    (PollExit.isTx.done t m = true ↔ m = t.msTx) ∧
    (PollExit.leftTx.done t m = true ↔ m ≠ t.msTx ∧ m ≠ t.msTxEnd)) ∧
  PollExit.isTx.done Config.cc1101 0x14 = false ∧
  Config.cc1101.msRx = 0x0D ∧ Config.cc1101.msRxfifoOverflow = 0x11 ∧ Config.cc1101.msTx = 0x13 ∧
  Config.cc1101.msTxEnd = 0x14
end

