-- ==== Sys2Proof/Laws/State.lean ====
section
/-! SUPPORT. One lemma per field of State and per update of it, each true by rfl; and the two updates the laws of the
frame are stated with: answers drawn (`State.drawn`), and frames run (`State.after`). -/

namespace Sys2Proof.Machine

/-- `s` with `nb` busy answers and `nx` exchange answers drawn and these events recorded. -/
def State.drawn (s : State) (nb nx : Nat) (evs : List Event) : State :=
  { s with
    busyIn := s.busyIn.drop nb
    busyDrawn := s.busyDrawn + nb
    xferIn := s.xferIn.drop nx
    xferDrawn := s.xferDrawn + nx
    trace := s.trace ++ evs }

/-- `s` with the chip-select level `a`. -/
def State.withCs (s : State) (a : Bool) : State := { s with cs := a }

/-- `s` with these frames run and chip-select released, in the middle of an operation. -/
def State.after (s : State) (fs : List FrameRun) (evs : List Event) : State :=
  (s.withCs false).drawn (fs.map FrameRun.busyReads).sum (fs.map FrameRun.exchanged).sum evs

section
variable (s : State)

/-! ### withCs -/

@[simp] theorem withCs_params (a : Bool) : (s.withCs a).params = s.params := rfl
@[simp] theorem withCs_cs (a : Bool) : (s.withCs a).cs = a := rfl
@[simp] theorem withCs_active (a : Bool) : (s.withCs a).active = s.active := rfl
@[simp] theorem withCs_seq (a : Bool) : (s.withCs a).seq = s.seq := rfl
@[simp] theorem withCs_rx (a : Bool) : (s.withCs a).rx = s.rx := rfl
@[simp] theorem withCs_dcfilter (a : Bool) : (s.withCs a).dcfilter = s.dcfilter := rfl
@[simp] theorem withCs_modtype (a : Bool) : (s.withCs a).modtype = s.modtype := rfl
@[simp] theorem withCs_manchester (a : Bool) : (s.withCs a).manchester = s.manchester := rfl
@[simp] theorem withCs_syncmode (a : Bool) : (s.withCs a).syncmode = s.syncmode := rfl
@[simp] theorem withCs_resp (a : Bool) : (s.withCs a).resp = s.resp := rfl
@[simp] theorem withCs_port (a : Bool) : (s.withCs a).port = s.port := rfl
@[simp] theorem withCs_busyIn (a : Bool) : (s.withCs a).busyIn = s.busyIn := rfl
@[simp] theorem withCs_xferIn (a : Bool) : (s.withCs a).xferIn = s.xferIn := rfl
@[simp] theorem withCs_busyDrawn (a : Bool) : (s.withCs a).busyDrawn = s.busyDrawn := rfl
@[simp] theorem withCs_xferDrawn (a : Bool) : (s.withCs a).xferDrawn = s.xferDrawn := rfl
@[simp] theorem withCs_trace (a : Bool) : (s.withCs a).trace = s.trace := rfl

/-! ### log -/

@[simp] theorem log_params (e : Event) : (s.log e).params = s.params := rfl
@[simp] theorem log_cs (e : Event) : (s.log e).cs = s.cs := rfl
@[simp] theorem log_active (e : Event) : (s.log e).active = s.active := rfl
@[simp] theorem log_seq (e : Event) : (s.log e).seq = s.seq := rfl
@[simp] theorem log_rx (e : Event) : (s.log e).rx = s.rx := rfl
@[simp] theorem log_dcfilter (e : Event) : (s.log e).dcfilter = s.dcfilter := rfl
@[simp] theorem log_modtype (e : Event) : (s.log e).modtype = s.modtype := rfl
@[simp] theorem log_manchester (e : Event) : (s.log e).manchester = s.manchester := rfl
@[simp] theorem log_syncmode (e : Event) : (s.log e).syncmode = s.syncmode := rfl
@[simp] theorem log_resp (e : Event) : (s.log e).resp = s.resp := rfl
@[simp] theorem log_port (e : Event) : (s.log e).port = s.port := rfl
@[simp] theorem log_busyIn (e : Event) : (s.log e).busyIn = s.busyIn := rfl
@[simp] theorem log_xferIn (e : Event) : (s.log e).xferIn = s.xferIn := rfl
@[simp] theorem log_busyDrawn (e : Event) : (s.log e).busyDrawn = s.busyDrawn := rfl
@[simp] theorem log_xferDrawn (e : Event) : (s.log e).xferDrawn = s.xferDrawn := rfl
@[simp] theorem log_trace (e : Event) : (s.log e).trace = s.trace ++ [e] := rfl

/-! ### csSet -/

@[simp] theorem csSet_params (a : Bool) : (s.csSet a).params = s.params := rfl
@[simp] theorem csSet_cs (a : Bool) : (s.csSet a).cs = a := rfl
@[simp] theorem csSet_active (a : Bool) : (s.csSet a).active = s.active := rfl
@[simp] theorem csSet_seq (a : Bool) : (s.csSet a).seq = s.seq := rfl
@[simp] theorem csSet_rx (a : Bool) : (s.csSet a).rx = s.rx := rfl
@[simp] theorem csSet_dcfilter (a : Bool) : (s.csSet a).dcfilter = s.dcfilter := rfl
@[simp] theorem csSet_modtype (a : Bool) : (s.csSet a).modtype = s.modtype := rfl
@[simp] theorem csSet_manchester (a : Bool) : (s.csSet a).manchester = s.manchester := rfl
@[simp] theorem csSet_syncmode (a : Bool) : (s.csSet a).syncmode = s.syncmode := rfl
@[simp] theorem csSet_resp (a : Bool) : (s.csSet a).resp = s.resp := rfl
@[simp] theorem csSet_port (a : Bool) : (s.csSet a).port = s.port := rfl
@[simp] theorem csSet_busyIn (a : Bool) : (s.csSet a).busyIn = s.busyIn := rfl
@[simp] theorem csSet_xferIn (a : Bool) : (s.csSet a).xferIn = s.xferIn := rfl
@[simp] theorem csSet_busyDrawn (a : Bool) : (s.csSet a).busyDrawn = s.busyDrawn := rfl
@[simp] theorem csSet_xferDrawn (a : Bool) : (s.csSet a).xferDrawn = s.xferDrawn := rfl
@[simp] theorem csSet_trace (a : Bool) : (s.csSet a).trace = s.trace ++ [.cs a] := rfl

/-! ### busyNext -/

@[simp] theorem busyNext_params : (s.busyNext).params = s.params := rfl
@[simp] theorem busyNext_cs : (s.busyNext).cs = s.cs := rfl
@[simp] theorem busyNext_active : (s.busyNext).active = s.active := rfl
@[simp] theorem busyNext_seq : (s.busyNext).seq = s.seq := rfl
@[simp] theorem busyNext_rx : (s.busyNext).rx = s.rx := rfl
@[simp] theorem busyNext_dcfilter : (s.busyNext).dcfilter = s.dcfilter := rfl
@[simp] theorem busyNext_modtype : (s.busyNext).modtype = s.modtype := rfl
@[simp] theorem busyNext_manchester : (s.busyNext).manchester = s.manchester := rfl
@[simp] theorem busyNext_syncmode : (s.busyNext).syncmode = s.syncmode := rfl
@[simp] theorem busyNext_resp : (s.busyNext).resp = s.resp := rfl
@[simp] theorem busyNext_port : (s.busyNext).port = s.port := rfl
@[simp] theorem busyNext_busyIn : (s.busyNext).busyIn = s.busyIn.tail := rfl
@[simp] theorem busyNext_xferIn : (s.busyNext).xferIn = s.xferIn := rfl
@[simp] theorem busyNext_busyDrawn : (s.busyNext).busyDrawn = s.busyDrawn + 1 := rfl
@[simp] theorem busyNext_xferDrawn : (s.busyNext).xferDrawn = s.xferDrawn := rfl
@[simp] theorem busyNext_trace : (s.busyNext).trace = s.trace ++ [.busy (s.busyAt 0)] := rfl

/-! ### xferNext -/

@[simp] theorem xferNext_params (b : Byte) : (s.xferNext b).params = s.params := rfl
@[simp] theorem xferNext_cs (b : Byte) : (s.xferNext b).cs = s.cs := rfl
@[simp] theorem xferNext_active (b : Byte) : (s.xferNext b).active = s.active := rfl
@[simp] theorem xferNext_seq (b : Byte) : (s.xferNext b).seq = s.seq := rfl
@[simp] theorem xferNext_rx (b : Byte) : (s.xferNext b).rx = s.rx := rfl
@[simp] theorem xferNext_dcfilter (b : Byte) : (s.xferNext b).dcfilter = s.dcfilter := rfl
@[simp] theorem xferNext_modtype (b : Byte) : (s.xferNext b).modtype = s.modtype := rfl
@[simp] theorem xferNext_manchester (b : Byte) : (s.xferNext b).manchester = s.manchester := rfl
@[simp] theorem xferNext_syncmode (b : Byte) : (s.xferNext b).syncmode = s.syncmode := rfl
@[simp] theorem xferNext_resp (b : Byte) : (s.xferNext b).resp = s.resp := rfl
@[simp] theorem xferNext_port (b : Byte) : (s.xferNext b).port = s.port := rfl
@[simp] theorem xferNext_busyIn (b : Byte) : (s.xferNext b).busyIn = s.busyIn := rfl
@[simp] theorem xferNext_xferIn (b : Byte) : (s.xferNext b).xferIn = s.xferIn.tail := rfl
@[simp] theorem xferNext_busyDrawn (b : Byte) : (s.xferNext b).busyDrawn = s.busyDrawn := rfl
@[simp] theorem xferNext_xferDrawn (b : Byte) : (s.xferNext b).xferDrawn = s.xferDrawn + 1 := rfl
@[simp] theorem xferNext_trace (b : Byte) : (s.xferNext b).trace = s.trace ++ [xferEvent b (s.xferAt 0)] := rfl

/-! ### wait -/

@[simp] theorem wait_params (d : DelayName) : (s.wait d).params = s.params := rfl
@[simp] theorem wait_cs (d : DelayName) : (s.wait d).cs = s.cs := rfl
@[simp] theorem wait_active (d : DelayName) : (s.wait d).active = s.active := rfl
@[simp] theorem wait_seq (d : DelayName) : (s.wait d).seq = s.seq := rfl
@[simp] theorem wait_rx (d : DelayName) : (s.wait d).rx = s.rx := rfl
@[simp] theorem wait_dcfilter (d : DelayName) : (s.wait d).dcfilter = s.dcfilter := rfl
@[simp] theorem wait_modtype (d : DelayName) : (s.wait d).modtype = s.modtype := rfl
@[simp] theorem wait_manchester (d : DelayName) : (s.wait d).manchester = s.manchester := rfl
@[simp] theorem wait_syncmode (d : DelayName) : (s.wait d).syncmode = s.syncmode := rfl
@[simp] theorem wait_resp (d : DelayName) : (s.wait d).resp = s.resp := rfl
@[simp] theorem wait_port (d : DelayName) : (s.wait d).port = s.port := rfl
@[simp] theorem wait_busyIn (d : DelayName) : (s.wait d).busyIn = s.busyIn := rfl
@[simp] theorem wait_xferIn (d : DelayName) : (s.wait d).xferIn = s.xferIn := rfl
@[simp] theorem wait_busyDrawn (d : DelayName) : (s.wait d).busyDrawn = s.busyDrawn := rfl
@[simp] theorem wait_xferDrawn (d : DelayName) : (s.wait d).xferDrawn = s.xferDrawn := rfl
@[simp] theorem wait_trace (d : DelayName) : (s.wait d).trace = s.trace ++ [.delay d] := rfl

/-! ### accept -/

@[simp] theorem accept_params : (s.accept).params = s.params := rfl
@[simp] theorem accept_cs : (s.accept).cs = s.cs := rfl
@[simp] theorem accept_active : (s.accept).active = true := rfl
@[simp] theorem accept_seq : (s.accept).seq = s.seq := rfl
@[simp] theorem accept_rx : (s.accept).rx = s.rx := rfl
@[simp] theorem accept_dcfilter : (s.accept).dcfilter = s.dcfilter := rfl
@[simp] theorem accept_modtype : (s.accept).modtype = s.modtype := rfl
@[simp] theorem accept_manchester : (s.accept).manchester = s.manchester := rfl
@[simp] theorem accept_syncmode : (s.accept).syncmode = s.syncmode := rfl
@[simp] theorem accept_resp : (s.accept).resp = s.resp := rfl
@[simp] theorem accept_port : (s.accept).port = s.port := rfl
@[simp] theorem accept_busyIn : (s.accept).busyIn = s.busyIn := rfl
@[simp] theorem accept_xferIn : (s.accept).xferIn = s.xferIn := rfl
@[simp] theorem accept_busyDrawn : (s.accept).busyDrawn = s.busyDrawn := rfl
@[simp] theorem accept_xferDrawn : (s.accept).xferDrawn = s.xferDrawn := rfl
@[simp] theorem accept_trace : (s.accept).trace = s.trace := rfl

/-! ### respond -/

@[simp] theorem respond_params (r : Response) : (s.respond r).params = s.params := rfl
@[simp] theorem respond_cs (r : Response) : (s.respond r).cs = s.cs := rfl
@[simp] theorem respond_active (r : Response) : (s.respond r).active = false := rfl
@[simp] theorem respond_seq (r : Response) : (s.respond r).seq = [] := rfl
@[simp] theorem respond_rx (r : Response) : (s.respond r).rx = [] := rfl
@[simp] theorem respond_dcfilter (r : Response) : (s.respond r).dcfilter = s.dcfilter := rfl
@[simp] theorem respond_modtype (r : Response) : (s.respond r).modtype = s.modtype := rfl
@[simp] theorem respond_manchester (r : Response) : (s.respond r).manchester = s.manchester := rfl
@[simp] theorem respond_syncmode (r : Response) : (s.respond r).syncmode = s.syncmode := rfl
@[simp] theorem respond_resp (r : Response) : (s.respond r).resp = some r := rfl
@[simp] theorem respond_port (r : Response) : (s.respond r).port = s.port := rfl
@[simp] theorem respond_busyIn (r : Response) : (s.respond r).busyIn = s.busyIn := rfl
@[simp] theorem respond_xferIn (r : Response) : (s.respond r).xferIn = s.xferIn := rfl
@[simp] theorem respond_busyDrawn (r : Response) : (s.respond r).busyDrawn = s.busyDrawn := rfl
@[simp] theorem respond_xferDrawn (r : Response) : (s.respond r).xferDrawn = s.xferDrawn := rfl
@[simp] theorem respond_trace (r : Response) : (s.respond r).trace = s.trace := rfl

/-! ### setModtype -/

@[simp] theorem setModtype_params (v : Byte) : (s.setModtype v).params = s.params := rfl
@[simp] theorem setModtype_cs (v : Byte) : (s.setModtype v).cs = s.cs := rfl
@[simp] theorem setModtype_active (v : Byte) : (s.setModtype v).active = s.active := rfl
@[simp] theorem setModtype_seq (v : Byte) : (s.setModtype v).seq = s.seq := rfl
@[simp] theorem setModtype_rx (v : Byte) : (s.setModtype v).rx = s.rx := rfl
@[simp] theorem setModtype_dcfilter (v : Byte) : (s.setModtype v).dcfilter = s.dcfilter := rfl
@[simp] theorem setModtype_modtype (v : Byte) : (s.setModtype v).modtype = v := rfl
@[simp] theorem setModtype_manchester (v : Byte) : (s.setModtype v).manchester = s.manchester := rfl
@[simp] theorem setModtype_syncmode (v : Byte) : (s.setModtype v).syncmode = s.syncmode := rfl
@[simp] theorem setModtype_resp (v : Byte) : (s.setModtype v).resp = s.resp := rfl
@[simp] theorem setModtype_port (v : Byte) : (s.setModtype v).port = s.port := rfl
@[simp] theorem setModtype_busyIn (v : Byte) : (s.setModtype v).busyIn = s.busyIn := rfl
@[simp] theorem setModtype_xferIn (v : Byte) : (s.setModtype v).xferIn = s.xferIn := rfl
@[simp] theorem setModtype_busyDrawn (v : Byte) : (s.setModtype v).busyDrawn = s.busyDrawn := rfl
@[simp] theorem setModtype_xferDrawn (v : Byte) : (s.setModtype v).xferDrawn = s.xferDrawn := rfl
@[simp] theorem setModtype_trace (v : Byte) : (s.setModtype v).trace = s.trace := rfl

/-! ### setSyncmode -/

@[simp] theorem setSyncmode_params (v : Byte) : (s.setSyncmode v).params = s.params := rfl
@[simp] theorem setSyncmode_cs (v : Byte) : (s.setSyncmode v).cs = s.cs := rfl
@[simp] theorem setSyncmode_active (v : Byte) : (s.setSyncmode v).active = s.active := rfl
@[simp] theorem setSyncmode_seq (v : Byte) : (s.setSyncmode v).seq = s.seq := rfl
@[simp] theorem setSyncmode_rx (v : Byte) : (s.setSyncmode v).rx = s.rx := rfl
@[simp] theorem setSyncmode_dcfilter (v : Byte) : (s.setSyncmode v).dcfilter = s.dcfilter := rfl
@[simp] theorem setSyncmode_modtype (v : Byte) : (s.setSyncmode v).modtype = s.modtype := rfl
@[simp] theorem setSyncmode_manchester (v : Byte) : (s.setSyncmode v).manchester = s.manchester := rfl
@[simp] theorem setSyncmode_syncmode (v : Byte) : (s.setSyncmode v).syncmode = v := rfl
@[simp] theorem setSyncmode_resp (v : Byte) : (s.setSyncmode v).resp = s.resp := rfl
@[simp] theorem setSyncmode_port (v : Byte) : (s.setSyncmode v).port = s.port := rfl
@[simp] theorem setSyncmode_busyIn (v : Byte) : (s.setSyncmode v).busyIn = s.busyIn := rfl
@[simp] theorem setSyncmode_xferIn (v : Byte) : (s.setSyncmode v).xferIn = s.xferIn := rfl
@[simp] theorem setSyncmode_busyDrawn (v : Byte) : (s.setSyncmode v).busyDrawn = s.busyDrawn := rfl
@[simp] theorem setSyncmode_xferDrawn (v : Byte) : (s.setSyncmode v).xferDrawn = s.xferDrawn := rfl
@[simp] theorem setSyncmode_trace (v : Byte) : (s.setSyncmode v).trace = s.trace := rfl

/-! ### setManchester -/

@[simp] theorem setManchester_params (v : Byte) : (s.setManchester v).params = s.params := rfl
@[simp] theorem setManchester_cs (v : Byte) : (s.setManchester v).cs = s.cs := rfl
@[simp] theorem setManchester_active (v : Byte) : (s.setManchester v).active = s.active := rfl
@[simp] theorem setManchester_seq (v : Byte) : (s.setManchester v).seq = s.seq := rfl
@[simp] theorem setManchester_rx (v : Byte) : (s.setManchester v).rx = s.rx := rfl
@[simp] theorem setManchester_dcfilter (v : Byte) : (s.setManchester v).dcfilter = s.dcfilter := rfl
@[simp] theorem setManchester_modtype (v : Byte) : (s.setManchester v).modtype = s.modtype := rfl
@[simp] theorem setManchester_manchester (v : Byte) : (s.setManchester v).manchester = v := rfl
@[simp] theorem setManchester_syncmode (v : Byte) : (s.setManchester v).syncmode = s.syncmode := rfl
@[simp] theorem setManchester_resp (v : Byte) : (s.setManchester v).resp = s.resp := rfl
@[simp] theorem setManchester_port (v : Byte) : (s.setManchester v).port = s.port := rfl
@[simp] theorem setManchester_busyIn (v : Byte) : (s.setManchester v).busyIn = s.busyIn := rfl
@[simp] theorem setManchester_xferIn (v : Byte) : (s.setManchester v).xferIn = s.xferIn := rfl
@[simp] theorem setManchester_busyDrawn (v : Byte) : (s.setManchester v).busyDrawn = s.busyDrawn := rfl
@[simp] theorem setManchester_xferDrawn (v : Byte) : (s.setManchester v).xferDrawn = s.xferDrawn := rfl
@[simp] theorem setManchester_trace (v : Byte) : (s.setManchester v).trace = s.trace := rfl

/-! ### setDcfilter -/

@[simp] theorem setDcfilter_params (v : Byte) : (s.setDcfilter v).params = s.params := rfl
@[simp] theorem setDcfilter_cs (v : Byte) : (s.setDcfilter v).cs = s.cs := rfl
@[simp] theorem setDcfilter_active (v : Byte) : (s.setDcfilter v).active = s.active := rfl
@[simp] theorem setDcfilter_seq (v : Byte) : (s.setDcfilter v).seq = s.seq := rfl
@[simp] theorem setDcfilter_rx (v : Byte) : (s.setDcfilter v).rx = s.rx := rfl
@[simp] theorem setDcfilter_dcfilter (v : Byte) : (s.setDcfilter v).dcfilter = v := rfl
@[simp] theorem setDcfilter_modtype (v : Byte) : (s.setDcfilter v).modtype = s.modtype := rfl
@[simp] theorem setDcfilter_manchester (v : Byte) : (s.setDcfilter v).manchester = s.manchester := rfl
@[simp] theorem setDcfilter_syncmode (v : Byte) : (s.setDcfilter v).syncmode = s.syncmode := rfl
@[simp] theorem setDcfilter_resp (v : Byte) : (s.setDcfilter v).resp = s.resp := rfl
@[simp] theorem setDcfilter_port (v : Byte) : (s.setDcfilter v).port = s.port := rfl
@[simp] theorem setDcfilter_busyIn (v : Byte) : (s.setDcfilter v).busyIn = s.busyIn := rfl
@[simp] theorem setDcfilter_xferIn (v : Byte) : (s.setDcfilter v).xferIn = s.xferIn := rfl
@[simp] theorem setDcfilter_busyDrawn (v : Byte) : (s.setDcfilter v).busyDrawn = s.busyDrawn := rfl
@[simp] theorem setDcfilter_xferDrawn (v : Byte) : (s.setDcfilter v).xferDrawn = s.xferDrawn := rfl
@[simp] theorem setDcfilter_trace (v : Byte) : (s.setDcfilter v).trace = s.trace := rfl

/-! ### takePort -/

@[simp] theorem takePort_params : (s.takePort).params = s.params := rfl
@[simp] theorem takePort_cs : (s.takePort).cs = s.cs := rfl
@[simp] theorem takePort_active : (s.takePort).active = s.active := rfl
@[simp] theorem takePort_seq : (s.takePort).seq = s.seq := rfl
@[simp] theorem takePort_rx : (s.takePort).rx = s.rx := rfl
@[simp] theorem takePort_dcfilter : (s.takePort).dcfilter = s.dcfilter := rfl
@[simp] theorem takePort_modtype : (s.takePort).modtype = s.modtype := rfl
@[simp] theorem takePort_manchester : (s.takePort).manchester = s.manchester := rfl
@[simp] theorem takePort_syncmode : (s.takePort).syncmode = s.syncmode := rfl
@[simp] theorem takePort_resp : (s.takePort).resp = s.resp := rfl
@[simp] theorem takePort_port : (s.takePort).port = none := rfl
@[simp] theorem takePort_busyIn : (s.takePort).busyIn = s.busyIn := rfl
@[simp] theorem takePort_xferIn : (s.takePort).xferIn = s.xferIn := rfl
@[simp] theorem takePort_busyDrawn : (s.takePort).busyDrawn = s.busyDrawn := rfl
@[simp] theorem takePort_xferDrawn : (s.takePort).xferDrawn = s.xferDrawn := rfl
@[simp] theorem takePort_trace : (s.takePort).trace = s.trace := rfl

/-! ### drawn -/

@[simp] theorem drawn_params (nb nx : Nat) (evs : List Event) : (s.drawn nb nx evs).params = s.params := rfl
@[simp] theorem drawn_cs (nb nx : Nat) (evs : List Event) : (s.drawn nb nx evs).cs = s.cs := rfl
@[simp] theorem drawn_active (nb nx : Nat) (evs : List Event) : (s.drawn nb nx evs).active = s.active := rfl
@[simp] theorem drawn_seq (nb nx : Nat) (evs : List Event) : (s.drawn nb nx evs).seq = s.seq := rfl
@[simp] theorem drawn_rx (nb nx : Nat) (evs : List Event) : (s.drawn nb nx evs).rx = s.rx := rfl
@[simp] theorem drawn_dcfilter (nb nx : Nat) (evs : List Event) : (s.drawn nb nx evs).dcfilter = s.dcfilter := rfl
@[simp] theorem drawn_modtype (nb nx : Nat) (evs : List Event) : (s.drawn nb nx evs).modtype = s.modtype := rfl
@[simp] theorem drawn_manchester (nb nx : Nat) (evs : List Event) :
    (s.drawn nb nx evs).manchester = s.manchester := rfl
@[simp] theorem drawn_syncmode (nb nx : Nat) (evs : List Event) : (s.drawn nb nx evs).syncmode = s.syncmode := rfl
@[simp] theorem drawn_resp (nb nx : Nat) (evs : List Event) : (s.drawn nb nx evs).resp = s.resp := rfl
@[simp] theorem drawn_port (nb nx : Nat) (evs : List Event) : (s.drawn nb nx evs).port = s.port := rfl
@[simp] theorem drawn_busyIn (nb nx : Nat) (evs : List Event) : (s.drawn nb nx evs).busyIn = s.busyIn.drop nb := rfl
@[simp] theorem drawn_xferIn (nb nx : Nat) (evs : List Event) : (s.drawn nb nx evs).xferIn = s.xferIn.drop nx := rfl
@[simp] theorem drawn_busyDrawn (nb nx : Nat) (evs : List Event) :
    (s.drawn nb nx evs).busyDrawn = s.busyDrawn + nb := rfl
@[simp] theorem drawn_xferDrawn (nb nx : Nat) (evs : List Event) :
    (s.drawn nb nx evs).xferDrawn = s.xferDrawn + nx := rfl
@[simp] theorem drawn_trace (nb nx : Nat) (evs : List Event) : (s.drawn nb nx evs).trace = s.trace ++ evs := rfl

/-! ### after -/

@[simp] theorem after_params (fs : List FrameRun) (evs : List Event) : (s.after fs evs).params = s.params := rfl
@[simp] theorem after_cs (fs : List FrameRun) (evs : List Event) : (s.after fs evs).cs = false := rfl
@[simp] theorem after_active (fs : List FrameRun) (evs : List Event) : (s.after fs evs).active = s.active := rfl
@[simp] theorem after_seq (fs : List FrameRun) (evs : List Event) : (s.after fs evs).seq = s.seq := rfl
@[simp] theorem after_rx (fs : List FrameRun) (evs : List Event) : (s.after fs evs).rx = s.rx := rfl
@[simp] theorem after_dcfilter (fs : List FrameRun) (evs : List Event) : (s.after fs evs).dcfilter = s.dcfilter := rfl
@[simp] theorem after_modtype (fs : List FrameRun) (evs : List Event) : (s.after fs evs).modtype = s.modtype := rfl
@[simp] theorem after_manchester (fs : List FrameRun) (evs : List Event) :
    (s.after fs evs).manchester = s.manchester := rfl
@[simp] theorem after_syncmode (fs : List FrameRun) (evs : List Event) : (s.after fs evs).syncmode = s.syncmode := rfl
@[simp] theorem after_resp (fs : List FrameRun) (evs : List Event) : (s.after fs evs).resp = s.resp := rfl
@[simp] theorem after_port (fs : List FrameRun) (evs : List Event) : (s.after fs evs).port = s.port := rfl
@[simp] theorem after_busyIn (fs : List FrameRun) (evs : List Event) :
    (s.after fs evs).busyIn = s.busyIn.drop (fs.map FrameRun.busyReads).sum := rfl
@[simp] theorem after_xferIn (fs : List FrameRun) (evs : List Event) :
    (s.after fs evs).xferIn = s.xferIn.drop (fs.map FrameRun.exchanged).sum := rfl
@[simp] theorem after_busyDrawn (fs : List FrameRun) (evs : List Event) :
    (s.after fs evs).busyDrawn = s.busyDrawn + (fs.map FrameRun.busyReads).sum := rfl
@[simp] theorem after_xferDrawn (fs : List FrameRun) (evs : List Event) :
    (s.after fs evs).xferDrawn = s.xferDrawn + (fs.map FrameRun.exchanged).sum := rfl
@[simp] theorem after_trace (fs : List FrameRun) (evs : List Event) : (s.after fs evs).trace = s.trace ++ evs := rfl

/-! ### ends -/

@[simp] theorem ends_params (fs : List FrameRun) (evs : List Event) (r : Response) :
    (s.ends fs evs r).params = s.params := rfl
@[simp] theorem ends_cs (fs : List FrameRun) (evs : List Event) (r : Response) : (s.ends fs evs r).cs = false := rfl
@[simp] theorem ends_active (fs : List FrameRun) (evs : List Event) (r : Response) :
    (s.ends fs evs r).active = false := rfl
@[simp] theorem ends_seq (fs : List FrameRun) (evs : List Event) (r : Response) : (s.ends fs evs r).seq = [] := rfl
@[simp] theorem ends_rx (fs : List FrameRun) (evs : List Event) (r : Response) : (s.ends fs evs r).rx = [] := rfl
@[simp] theorem ends_dcfilter (fs : List FrameRun) (evs : List Event) (r : Response) :
    (s.ends fs evs r).dcfilter = s.dcfilter := rfl
@[simp] theorem ends_modtype (fs : List FrameRun) (evs : List Event) (r : Response) :
    (s.ends fs evs r).modtype = s.modtype := rfl
@[simp] theorem ends_manchester (fs : List FrameRun) (evs : List Event) (r : Response) :
    (s.ends fs evs r).manchester = s.manchester := rfl
@[simp] theorem ends_syncmode (fs : List FrameRun) (evs : List Event) (r : Response) :
    (s.ends fs evs r).syncmode = s.syncmode := rfl
@[simp] theorem ends_resp (fs : List FrameRun) (evs : List Event) (r : Response) :
    (s.ends fs evs r).resp = some r := rfl
@[simp] theorem ends_port (fs : List FrameRun) (evs : List Event) (r : Response) :
    (s.ends fs evs r).port = s.port := rfl
@[simp] theorem ends_busyIn (fs : List FrameRun) (evs : List Event) (r : Response) :
    (s.ends fs evs r).busyIn = s.busyIn.drop (fs.map FrameRun.busyReads).sum := rfl
@[simp] theorem ends_xferIn (fs : List FrameRun) (evs : List Event) (r : Response) :
    (s.ends fs evs r).xferIn = s.xferIn.drop (fs.map FrameRun.exchanged).sum := rfl
@[simp] theorem ends_busyDrawn (fs : List FrameRun) (evs : List Event) (r : Response) :
    (s.ends fs evs r).busyDrawn = s.busyDrawn + (fs.map FrameRun.busyReads).sum := rfl
@[simp] theorem ends_xferDrawn (fs : List FrameRun) (evs : List Event) (r : Response) :
    (s.ends fs evs r).xferDrawn = s.xferDrawn + (fs.map FrameRun.exchanged).sum := rfl
@[simp] theorem ends_trace (fs : List FrameRun) (evs : List Event) (r : Response) :
    (s.ends fs evs r).trace = s.trace ++ evs := rfl

end

end Sys2Proof.Machine
end

