-- ==== Sys2Proof/Laws/Frame.lean ====
section
/-! SUPPORT. What each shared operation can do, said once: the ready-wait (R130), the exchanges and the frame (R131),
against the peer's answers; and how the answers look after some of them are drawn. -/

namespace Sys2Proof.Machine

/-! ### Sequencing of operations -/

theorem bind_ok {α β : Type} {x : Op α} {f : α → Op β} {s t : State} {a : α} (h : x s = .ok a t) :
    (x >>= f) s = f a t := by simp [bind, EStateM.bind, h]

theorem bind_error {α β : Type} {x : Op α} {f : α → Op β} {s t : State} {e : Err} (h : x s = .error e t) :
    (x >>= f) s = .error e t := by simp [bind, EStateM.bind, h]

@[simp] theorem pure_run {α : Type} (a : α) (s : State) : (pure a : Op α) s = .ok a s := rfl

@[simp] theorem params_bind {α : Type} (f : Params → Op α) (s : State) : (params >>= f) s = f s.params s := rfl

@[simp] theorem csSet_bind {α : Type} (a : Bool) (f : Unit → Op α) (s : State) :
    (csSet a >>= f) s = f () (s.csSet a) := rfl

@[simp] theorem delay_bind {α : Type} (d : DelayName) (f : Unit → Op α) (s : State) :
    (delay d >>= f) s = f () (s.wait d) := rfl

@[simp] theorem busyRead_bind {α : Type} (f : Bool → Op α) (s : State) :
    (busyRead >>= f) s = f (s.busyAt 0) s.busyNext := rfl

@[simp] theorem update_bind {α : Type} (g : State → State) (f : Unit → Op α) (s : State) :
    (update g >>= f) s = f () (g s) := rfl

@[simp] theorem packed_bind {α : Type} (f : Byte → Op α) (s : State) : (packed >>= f) s = f s.packed s := rfl

/-! ### The peer's answers -/

theorem getD_drop {α : Type} (l : List α) (n k : Nat) (d : α) : ((l.drop n)[k]?).getD d = (l[n + k]?).getD d := by
  simp [List.getElem?_drop]

@[simp] theorem busyAt_drawn (s : State) (nb nx k : Nat) (evs : List Event) :
    (s.drawn nb nx evs).busyAt k = s.busyAt (nb + k) := by
  simp [State.busyAt, List.getElem?_drop, Nat.add_assoc]

@[simp] theorem xferAt_drawn (s : State) (nb nx k : Nat) (evs : List Event) :
    (s.drawn nb nx evs).xferAt k = s.xferAt (nx + k) := by
  simp [State.xferAt, List.getElem?_drop, Nat.add_assoc]

theorem busyNext_eq_drawn (s : State) : s.busyNext = s.drawn 1 0 [.busy (s.busyAt 0)] := by
  simp [State.busyNext, State.log, State.drawn]

theorem xferNext_eq_drawn (s : State) (b : Byte) : s.xferNext b = s.drawn 0 1 [xferEvent b (s.xferAt 0)] := by
  simp [State.xferNext, State.log, State.drawn]

theorem wait_eq_drawn (s : State) (d : DelayName) : s.wait d = s.drawn 0 0 [.delay d] := by
  simp [State.wait, State.log, State.drawn]

@[simp] theorem busyAt_withCs (s : State) (a : Bool) (k : Nat) : (s.withCs a).busyAt k = s.busyAt k := rfl

@[simp] theorem xferAt_withCs (s : State) (a : Bool) (k : Nat) : (s.withCs a).xferAt k = s.xferAt k := rfl

@[simp] theorem busyAt_accept (s : State) (k : Nat) : s.accept.busyAt k = s.busyAt k := rfl

@[simp] theorem xferAt_accept (s : State) (k : Nat) : s.accept.xferAt k = s.xferAt k := rfl

@[simp] theorem drawn_withCs (s : State) (nb nx : Nat) (evs : List Event) (a : Bool) :
    (s.drawn nb nx evs).withCs a = (s.withCs a).drawn nb nx evs := rfl

@[simp] theorem withCs_withCs (s : State) (a b : Bool) : (s.withCs a).withCs b = s.withCs b := rfl

theorem csSet_eq_drawn (s : State) (a : Bool) : s.csSet a = (s.withCs a).drawn 0 0 [.cs a] := by
  simp [State.csSet, State.log, State.drawn, State.withCs]

/-- `raise` with chip-select asserted. -/
theorem raise_held {α : Type} (s : State) (e : Err) (h : s.cs = true) :
    (raise e : Op α) s = .error e ((s.withCs false).drawn 0 0 [.cs false]) := by
  simp [raise, State.releaseIfHeld, h, csSet_eq_drawn]

/-- `raise` with chip-select released. -/
theorem raise_free {α : Type} (s : State) (e : Err) (h : s.cs = false) : (raise e : Op α) s = .error e s := by
  simp [raise, State.releaseIfHeld, h]

@[simp] theorem drawn_drawn (s : State) (a b c d : Nat) (es fs : List Event) :
    (s.drawn a b es).drawn c d fs = s.drawn (a + c) (b + d) (es ++ fs) := by
  simp [State.drawn, Nat.add_assoc]

@[simp] theorem drawn_zero (s : State) : s.drawn 0 0 [] = s := by simp [State.drawn]

/-! ### The ready-wait (R130) -/

theorem waitReady_ready (w n : Nat) (s : State) (hw : w < n) (hb : ∀ k < w, s.busyAt k = true)
    (hr : s.busyAt w = false) : waitReady n s = .ok () (s.drawn (w + 1) 0 (readyEvents w)) := by
  induction w generalizing n s with
  | zero =>
    obtain ⟨n, rfl⟩ : ∃ m, n = m + 1 := ⟨n - 1, by omega⟩
    simp [waitReady, hr, busyNext_eq_drawn, readyEvents]
  | succ w ih =>
    obtain ⟨n, rfl⟩ : ∃ m, n = m + 1 := ⟨n - 1, by omega⟩
    have h0 := hb 0 (by omega)
    have hn : n ≠ 0 := by omega
    have := ih n ((s.drawn 1 0 [.busy true]).drawn 0 0 [.delay .readyPoll]) (by omega)
      (fun k hk => by simpa [Nat.add_comm] using hb (k + 1) (by omega)) (by simpa [Nat.add_comm] using hr)
    simp only [waitReady, busyRead_bind, h0, if_true, hn, ne_eq, not_false_eq_true, busyNext_eq_drawn, delay_bind,
      wait_eq_drawn]
    rw [this]
    simp [readyEvents, Nat.add_comm]

theorem waitReady_timeout (n : Nat) (s : State) (hb : ∀ k < n, s.busyAt k = true) :
    waitReady n s = raise .readyTimeout (s.drawn n 0 (timeoutEvents n)) := by
  induction n generalizing s with
  | zero => simp [waitReady, timeoutEvents]
  | succ n ih =>
    have h0 := hb 0 (by omega)
    rcases n with _ | n
    · simp [waitReady, h0, busyNext_eq_drawn, timeoutEvents]
    · have := ih ((s.drawn 1 0 [.busy true]).drawn 0 0 [.delay .readyPoll])
        (fun k hk => by simpa [Nat.add_comm] using hb (k + 1) (by omega))
      rw [waitReady]
      simp only [busyRead_bind, h0, if_true, busyNext_eq_drawn, ne_eq, Nat.succ_ne_zero, not_false_eq_true,
        delay_bind, wait_eq_drawn]
      rw [this]
      simp [timeoutEvents, Nat.add_comm]

/-! ### The exchanges (R131) -/

theorem exchange_ok (b r : Byte) (s : State) (h : s.xferAt 0 = some r) :
    exchange b s = .ok r (s.drawn 0 1 [.xfer b r]) := by
  simp [exchange, h, xferNext_eq_drawn, xferEvent]

theorem exchange_failed (b : Byte) (s : State) (h : s.xferAt 0 = none) :
    exchange b s = raise .transportError (s.drawn 0 1 [.xferFail b]) := by
  simp [exchange, h, xferNext_eq_drawn, xferEvent]

theorem exchanges_ok (bs got : List Byte) (s : State) (hl : got.length = bs.length)
    (hg : ∀ k (h : k < got.length), s.xferAt k = some got[k]) :
    exchanges bs s = .ok got (s.drawn 0 bs.length (exchangeEvents bs got)) := by
  induction bs generalizing got s with
  | nil => simp [exchanges, exchangeEvents, List.length_eq_zero_iff.1 hl]
  | cons b bs ih =>
    obtain ⟨r, got, rfl⟩ := List.exists_cons_of_length_eq_add_one hl
    have h0 := hg 0 (by simp)
    have hs := ih got (s.drawn 0 1 [.xfer b r]) (by simpa using hl)
      (fun k hk => by
        have h1 := hg (k + 1) (by simpa using hk)
        rw [List.getElem_cons_succ] at h1
        simpa [Nat.add_comm 1 k] using h1)
    rw [exchanges, bind_ok (exchange_ok b r s (by simpa using h0)), bind_ok hs]
    simp [exchangeEvents, Nat.add_comm]

theorem exchanges_broken (bs got : List Byte) (s : State) (hl : got.length < bs.length)
    (hg : ∀ k (h : k < got.length), s.xferAt k = some got[k]) (hf : s.xferAt got.length = none) :
    exchanges bs s =
      raise .transportError (s.drawn 0 (got.length + 1) (exchangeEvents bs got ++ [.xferFail (bs.getD got.length 0)])) := by
  induction bs generalizing got s with
  | nil => simp at hl
  | cons b bs ih =>
    cases got with
    | nil =>
      have h := exchange_failed b s (by simpa using hf)
      rw [exchanges, bind_error (t := _) (e := .transportError) (by rw [h]; rfl)]
      simp [exchangeEvents, raise]
    | cons r got =>
      have h0 := hg 0 (by simp)
      have hs := ih got (s.drawn 0 1 [.xfer b r]) (by simpa using hl)
        (fun k hk => by
        have h1 := hg (k + 1) (by simpa using hk)
        rw [List.getElem_cons_succ] at h1
        simpa [Nat.add_comm 1 k] using h1)
        (by simpa [Nat.add_comm] using hf)
      rw [exchanges, bind_ok (exchange_ok b r s (by simpa using h0)),
        bind_error (t := _) (e := .transportError) (by rw [hs]; rfl)]
      simp [exchangeEvents, raise, Nat.add_comm 1]

/-! ### The frame (R131) -/

theorem gives_iff (s : State) (nx : Nat) (got : List Byte) :
    s.gives nx got = true ↔ ∀ k (h : k < got.length), s.xferAt (nx + k) = some got[k] := by
  simp only [State.gives, decide_eq_true_eq]
  constructor
  · intro h k hk
    have := congrArg (fun l => l[k]?) h
    simpa [hk] using this
  · intro h
    apply List.ext_getElem (by simp)
    intro k h1 h2
    simpa using h k (by simpa using h1)

/-- What a frame does in the three ways it can end. -/
theorem frame_runs (s : State) (f : FrameRun) (h : s.runsFrame 0 0 f = true) :
    frame f.sent s =
      match f.ending.error with
      | none => .ok f.got (s.after [f] f.events)
      | some e => .error e (s.after [f] f.events) := by
  obtain ⟨sent, waits, got, ending⟩ := f
  simp only [State.runsFrame, Bool.and_eq_true, List.all_eq_true, List.mem_range, Nat.zero_add, gives_iff] at h
  obtain ⟨⟨hb, hg⟩, he⟩ := h
  simp only [frame, csSet_bind, params_bind, csSet_eq_drawn, drawn_params, withCs_params]
  cases ending with
  | notReady =>
    simp only [Bool.and_eq_true, decide_eq_true_eq] at he
    obtain ⟨hw, rfl⟩ := he
    subst hw
    rw [bind_error (by rw [waitReady_timeout _ _ (by simpa using hb), raise_held _ _ rfl])]
    simp [FrameEnd.error, State.after, FrameRun.events, FrameRun.busyReads, FrameRun.exchanged]
  | complete =>
    simp only [Bool.and_eq_true, decide_eq_true_eq, Bool.not_eq_true'] at he
    obtain ⟨⟨hw, hr⟩, hl⟩ := he
    rw [bind_ok (waitReady_ready waits _ _ hw (by simpa using hb) (by simpa using hr)), drawn_drawn,
      bind_ok (exchanges_ok sent got _ hl (by simpa using hg))]
    simp [FrameEnd.error, State.after, FrameRun.events, FrameRun.busyReads, FrameRun.exchanged, hl, csSet_eq_drawn]
  | broken =>
    simp only [Bool.and_eq_true, decide_eq_true_eq, Bool.not_eq_true'] at he
    obtain ⟨⟨⟨hw, hr⟩, hl⟩, hf⟩ := he
    rw [bind_ok (waitReady_ready waits _ _ hw (by simpa using hb) (by simpa using hr)), drawn_drawn,
      bind_error (by rw [exchanges_broken sent got _ hl (by simpa using hg) (by simpa using hf), raise_held _ _ rfl])]
    simp [FrameEnd.error, State.after, FrameRun.events, FrameRun.busyReads, FrameRun.exchanged]

end Sys2Proof.Machine
end

