-- ==== Sys2Proof/Laws/Runs.lean ====
section
/-! SUPPORT. How the frames of an operation chain: the states between frames, the primitives of RegisterAccess, fixed
plans of frames, the state poll, and the end of an operation. Each law says everything its operation can do. -/

namespace Sys2Proof.Machine

/-! ### States between frames -/

@[simp] theorem after_nil (s : State) (h : s.cs = false) : s.after [] [] = s := by
  cases s; cases h; simp [State.after, State.withCs]

@[simp] theorem after_after (s : State) (fs gs : List FrameRun) (es es' : List Event) :
    (s.after fs es).after gs es' = s.after (fs ++ gs) (es ++ es') := by
  simp [State.after]

theorem after_drawn (s : State) (fs : List FrameRun) (es es' : List Event) :
    (s.after fs es).drawn 0 0 es' = s.after fs (es ++ es') := by
  simp [State.after]

theorem after_wait (s : State) (fs : List FrameRun) (es : List Event) (d : DelayName) :
    (s.after fs es).wait d = s.after fs (es ++ [.delay d]) := by
  rw [wait_eq_drawn, after_drawn]

/-- Raising an error between frames: chip-select is released there, so nothing is done to the bus. -/
theorem raise_after {α : Type} (s : State) (fs : List FrameRun) (es : List Event) (e : Err) :
    (raise e : Op α) (s.after fs es) = .error e (s.after fs es) := raise_free _ _ rfl

theorem accept_after_respond (s : State) (fs : List FrameRun) (es : List Event) (r : Response) :
    (s.accept.after fs es).respond r = s.ends fs es r := rfl

/-! ### Frame runs in those states -/

@[simp] theorem gives_drawn (s : State) (nb nx n : Nat) (es : List Event) (got : List Byte) :
    (s.drawn nb nx es).gives n got = s.gives (nx + n) got := by
  simp [State.gives, Nat.add_assoc]

@[simp] theorem runsFrame_drawn (s : State) (a b nb nx : Nat) (es : List Event) (f : FrameRun) :
    (s.drawn a b es).runsFrame nb nx f = s.runsFrame (a + nb) (b + nx) f := by
  cases h : f.ending <;> simp [State.runsFrame, h, Nat.add_assoc] <;> rfl

@[simp] theorem runs_drawn (s : State) (a b nb nx : Nat) (es : List Event) (fs : List FrameRun) :
    (s.drawn a b es).runs nb nx fs = s.runs (a + nb) (b + nx) fs := by
  induction fs generalizing nb nx with
  | nil => rfl
  | cons f fs ih => simp [State.runs, ih, Nat.add_assoc]

/-- Frame runs depend on the parameters and the peer's answers alone. -/
theorem runsFrame_congr {s t : State} (hp : t.params = s.params) (hb : ∀ k, t.busyAt k = s.busyAt k)
    (hx : ∀ k, t.xferAt k = s.xferAt k) (nb nx : Nat) (f : FrameRun) :
    t.runsFrame nb nx f = s.runsFrame nb nx f := by
  cases h : f.ending <;> simp [State.runsFrame, State.gives, h, hp, hb, hx]

theorem runs_congr {s t : State} (hp : t.params = s.params) (hb : ∀ k, t.busyAt k = s.busyAt k)
    (hx : ∀ k, t.xferAt k = s.xferAt k) (nb nx : Nat) (fs : List FrameRun) :
    t.runs nb nx fs = s.runs nb nx fs := by
  induction fs generalizing nb nx with
  | nil => rfl
  | cons f fs ih => simp [State.runs, ih, runsFrame_congr hp hb hx]

@[simp] theorem runs_withCs (s : State) (a : Bool) (nb nx : Nat) (fs : List FrameRun) :
    (s.withCs a).runs nb nx fs = s.runs nb nx fs := runs_congr (s := s) (t := s.withCs a) rfl (fun _ => rfl) (fun _ => rfl) nb nx fs

@[simp] theorem runs_accept (s : State) (nb nx : Nat) (fs : List FrameRun) :
    s.accept.runs nb nx fs = s.runs nb nx fs :=
  runs_congr (s := s) (t := s.accept) rfl (fun _ => rfl) (fun _ => rfl) nb nx fs

/-- A frame that runs from a state runs from the accepted one. -/
theorem runsFrame_accept {s : State} {f : FrameRun} {fs : List FrameRun} (h : s.runs 0 0 (f :: fs) = true) :
    s.accept.runsFrame 0 0 f = true := by
  rw [← runs_accept] at h
  simp only [State.runs, Bool.and_eq_true] at h
  exact h.1

theorem runs_append (s : State) (nb nx : Nat) (fs gs : List FrameRun) :
    s.runs nb nx (fs ++ gs) =
      (s.runs nb nx fs &&
        s.runs (nb + (fs.map FrameRun.busyReads).sum) (nx + (fs.map FrameRun.exchanged).sum) gs) := by
  induction fs generalizing nb nx with
  | nil => simp [State.runs]
  | cons f fs ih => simp [State.runs, ih, Nat.add_assoc, Bool.and_assoc]

/-- The frames after `fs` run in the state after `fs` as they were to run from the start. -/
theorem runs_after (s : State) (fs gs : List FrameRun) (es : List Event) (h : s.runs 0 0 (fs ++ gs) = true) :
    (s.after fs es).runs 0 0 gs = true := by
  rw [runs_append] at h
  simp only [Bool.and_eq_true] at h
  simpa [State.after] using h.2

theorem runs_head {s : State} {f : FrameRun} {fs : List FrameRun} (h : s.runs 0 0 (f :: fs) = true) :
    s.runsFrame 0 0 f = true := by
  simp only [State.runs, Bool.and_eq_true] at h
  exact h.1

theorem runs_tail {s : State} {f : FrameRun} {fs : List FrameRun} (h : s.runs 0 0 (f :: fs) = true)
    (es : List Event) : (s.after [f] es).runs 0 0 fs = true := runs_after s [f] fs es h

/-! ### The primitives of RegisterAccess -/

/-- The result of a piece of an operation that ends with this error, or with this value. -/
def endOf {α : Type} (a : α) (s : State) : Option Err → EStateM.Result Err State α
  | none => .ok a s
  | some e => .error e s

/-- What one frame followed by a value gives, in the three ways it can end. -/
def frameThen (s : State) (f : FrameRun) (data : List Byte) : EStateM.Result Err State (List Byte) :=
  endOf data (s.after [f] f.events) f.ending.error

theorem frame_then (s : State) (f : FrameRun) (g : List Byte → List Byte) (bytes : List Byte)
    (h : s.runsFrame 0 0 f = true) (hs : f.sent = bytes) :
    (frame bytes >>= fun rx => (pure (g rx) : Op (List Byte))) s = frameThen s f (g f.got) := by
  subst hs
  have := frame_runs s f h
  unfold frameThen
  cases he : f.ending.error with
  | none => rw [he] at this; rw [bind_ok this]; rfl
  | some e => rw [he] at this; rw [bind_error this]; rfl

theorem readSingle_runs (s : State) (f : FrameRun) (a : Byte) (h : s.runsFrame 0 0 f = true)
    (hs : f.sent = [hdr a s.params.peer.readBit, s.params.dummyByte]) :
    readSingle a s = frameThen s f (f.got.drop 1) := frame_then s f dataPhase _ h hs

theorem readBurst_runs (s : State) (f : FrameRun) (a : Byte) (n : Nat) (h : s.runsFrame 0 0 f = true)
    (hs : f.sent = hdr a s.params.peer.readBurstBits :: List.replicate n s.params.dummyByte) :
    readBurst a n s = frameThen s f (f.got.drop 1) := frame_then s f dataPhase _ h hs

theorem writeSingle_runs (s : State) (f : FrameRun) (a v : Byte) (h : s.runsFrame 0 0 f = true)
    (hs : f.sent = [a, v]) : writeSingle a v s = frameThen s f [] := frame_then s f (fun _ => []) _ h hs

theorem writeBurst_runs (s : State) (f : FrameRun) (a : Byte) (vs : List Byte) (h : s.runsFrame 0 0 f = true)
    (hs : f.sent = hdr a s.params.peer.burstBit :: vs) : writeBurst a vs s = frameThen s f [] :=
  frame_then s f (fun _ => []) _ h hs

theorem strobe_runs (s : State) (f : FrameRun) (v : Byte) (h : s.runsFrame 0 0 f = true) (hs : f.sent = [v]) :
    strobe v s = frameThen s f [] := frame_then s f (fun _ => []) _ h hs

/-- What follows a piece of an operation: `next` if it ended with a value, nothing if it raised an error in `t`. -/
def goOn {β : Type} (next : EStateM.Result Err State β) (t : State) : Option Err → EStateM.Result Err State β
  | none => next
  | some err => .error err t

theorem endOf_bind {α β : Type} {x : Op α} {s t : State} {a : α} {e : Option Err} (k : α → Op β)
    (h : x s = endOf a t e) : (x >>= k) s = goOn (k a t) t e := by
  cases e with
  | none => exact bind_ok h
  | some err => exact bind_error h

theorem FrameEnd.error_eq_none (e : FrameEnd) : e.error = none ↔ e = .complete := by
  cases e <;> simp [FrameEnd.error]

theorem FrameEnd.error_of_ne {e : FrameEnd} (h : e ≠ .complete) : ∃ x, e.error = some x := by
  cases e <;> simp_all [FrameEnd.error]

/-- The status read of a completed frame is its second byte (R156). -/
theorem readStatus_runs (s : State) (f : FrameRun) (a : Byte) (h : s.runsFrame 0 0 f = true)
    (hs : f.sent = statusBytes s.params a) :
    readStatus a s = endOf (f.got.getD 1 0) (s.after [f] f.events) f.ending.error := by
  rw [readStatus, endOf_bind _ (readSingle_runs s f a h hs)]
  cases f.ending.error with
  | none => rcases f.got with _ | ⟨x, _ | ⟨y, l⟩⟩ <;> rfl
  | some e => rfl

/-! ### Fixed plans of frames -/

/-- `x` sends this one frame, whose answers it discards. -/
def SendsFrame (x : Op (List Byte)) (p : Params) (bytes : List Byte) : Prop :=
  ∀ (s : State) (f : FrameRun), s.params = p → s.runsFrame 0 0 f = true → f.sent = bytes → x s = frameThen s f []

theorem writeSingle_sends (p : Params) (a v : Byte) : SendsFrame (writeSingle a v) p [a, v] :=
  fun s f _ h hs => writeSingle_runs s f a v h hs

theorem writeBurst_sends (p : Params) (a : Byte) (vs : List Byte) :
    SendsFrame (writeBurst a vs) p (hdr a p.peer.burstBit :: vs) := by
  rintro s f rfl h hs; exact writeBurst_runs s f a vs h hs

theorem strobe_sends (p : Params) (v : Byte) : SendsFrame (strobe v) p [v] :=
  fun s f _ h hs => strobe_runs s f v h hs

/-- One planned frame, then the rest of the operation. -/
theorem plan_step {α : Type} {x : Op (List Byte)} {s : State} {bytes : List Byte} {plan : List (List Byte)}
    {fs gs : List FrameRun} {e : Option Err} (k : List Byte → Op α) (hx : SendsFrame x s.params bytes)
    (hf : followPlan (bytes :: plan) fs e = true) (hr : s.runs 0 0 (fs ++ gs) = true) :
    ∃ f rest, fs = f :: rest ∧
      ((f.ending = .complete ∧ followPlan plan rest e = true ∧
          (x >>= k) s = k [] (s.after [f] f.events) ∧ (s.after [f] f.events).runs 0 0 (rest ++ gs) = true) ∨
        (∃ err, e = some err ∧ rest = [] ∧ (x >>= k) s = .error err (s.after [f] f.events))) := by
  cases fs with
  | nil => simp [followPlan] at hf
  | cons f rest =>
    refine ⟨f, rest, rfl, ?_⟩
    simp only [followPlan, Bool.and_eq_true, decide_eq_true_eq] at hf
    have hb := endOf_bind k (hx s f rfl (runs_head hr) hf.1)
    by_cases hc : f.ending = .complete
    · left
      simp only [hc, if_true] at hf
      exact ⟨hc, hf.2, by simpa [hc, FrameEnd.error, goOn] using hb, runs_tail hr _⟩
    · right
      obtain ⟨err, he⟩ := FrameEnd.error_of_ne hc
      simp only [hc, if_false, Bool.and_eq_true, decide_eq_true_eq] at hf
      exact ⟨err, by rw [hf.2.2, he], hf.2.1, by simpa [he, goOn] using hb⟩

/-! ### The state poll (R230) -/

theorem pollEvents_cons (f : FrameRun) (ps : List FrameRun) :
    pollEvents (f :: ps) = f.events ++ (if ps = [] then [] else .delay .statePoll :: pollEvents ps) := by
  cases ps <;> simp [pollEvents]

theorem followPoll_nil {p : Params} {x : PollExit} {n : Nat} {e : Option Err}
    (h : followPoll p x n [] e = true) : n = 0 ∧ e = some .stateTransitionTimeout := by
  cases n <;> simp_all [followPoll]

theorem pollState_runs (x : PollExit) (n : Nat) (ps : List FrameRun) (e : Option Err) (s : State)
    (hc : s.cs = false) (hf : followPoll s.params x n ps e = true) (hr : s.runs 0 0 ps = true) :
    pollState x n s = endOf () (s.after ps (pollEvents ps)) e := by
  induction n generalizing ps s with
  | zero =>
    cases ps with
    | nil =>
      obtain ⟨-, rfl⟩ := followPoll_nil hf
      simp [pollState, pollEvents, raise_free _ _ hc, hc, endOf]
    | cons f ps => simp [followPoll] at hf
  | succ n ih =>
    cases ps with
    | nil => simp [followPoll] at hf
    | cons f ps =>
      simp only [followPoll, Bool.and_eq_true, decide_eq_true_eq] at hf
      have hst := readStatus_runs s f _ (runs_head hr) hf.1
      by_cases hcomp : f.ending = .complete
      · simp only [hcomp, FrameEnd.error, endOf] at hst
        simp only [hcomp, if_true] at hf
        simp only [pollState, params_bind]
        rw [bind_ok hst]
        change (if x.done s.params.peer f.state = true then _ else _ : Op Unit) _ = _
        by_cases hd : x.done s.params.peer f.state = true
        · simp only [hd, if_true, Bool.and_eq_true, decide_eq_true_eq] at hf
          obtain ⟨rfl, rfl⟩ := hf.2
          simp [hd, pollEvents, endOf]
        · simp only [hd] at hf
          rcases n with _ | n
          · cases ps with
            | cons g ps => simp [followPoll] at hf
            | nil =>
              obtain ⟨-, rfl⟩ := followPoll_nil hf.2
              simp [hd, pollState, pollEvents, raise_after, endOf]
          · cases ps with
            | nil => simp [followPoll] at hf
            | cons g ps =>
              have := ih (g :: ps) (s.after [f] (f.events ++ [.delay .statePoll])) rfl hf.2 (runs_tail hr _)
              simp only [hd, Bool.false_eq_true, if_false, ne_eq, Nat.succ_ne_zero, not_false_eq_true, if_true,
                delay_bind, after_wait]
              rw [this]
              simp [pollEvents_cons f (g :: ps), after_after]
      · obtain ⟨err, he⟩ := FrameEnd.error_of_ne hcomp
        simp only [hcomp, if_false, Bool.and_eq_true, decide_eq_true_eq] at hf
        obtain ⟨rfl, rfl⟩ := hf.2
        simp only [he, endOf] at hst
        simp only [pollState, params_bind]
        rw [bind_error hst]
        simp [he, pollEvents, endOf]

/-! ### The end of an operation -/

theorem runOp_ok {op : Op (List Byte)} {s : State} {fs : List FrameRun} {es : List Event} {d : List Byte}
    (h : op s.accept = .ok d (s.accept.after fs es)) : runOp op s = s.ends fs es ⟨.ok, d⟩ := by
  rw [runOp, h]; exact accept_after_respond s fs es _

theorem runOp_error {op : Op (List Byte)} {s : State} {fs : List FrameRun} {es : List Event} {e : Err}
    (h : op s.accept = .error e (s.accept.after fs es)) : runOp op s = s.ends fs es ⟨e, []⟩ := by
  rw [runOp, h]; exact accept_after_respond s fs es _

/-- An operation that is one frame with these data on success. -/
theorem runOp_frame {op : Op (List Byte)} {s : State} {f : FrameRun} {d : List Byte}
    (h : op s.accept = frameThen s.accept f d) :
    runOp op s = s.ends [f] f.events (match f.ending.error with | none => ⟨.ok, d⟩ | some e => ⟨e, []⟩) := by
  unfold frameThen at h
  cases he : f.ending.error with
  | none => rw [he] at h; exact runOp_ok h
  | some e => rw [he] at h; exact runOp_error h

/-- The end of an operation without data. -/
theorem runOp_endOf {op : Op (List Byte)} {s : State} {fs : List FrameRun} {es : List Event} {e : Option Err}
    (h : op s.accept = endOf [] (s.accept.after fs es) e) : runOp op s = s.ends fs es (ending e) := by
  cases e with
  | none => exact runOp_ok h
  | some err => exact runOp_error h

/-- The end of an operation that did nothing on the bus. -/
theorem respond_free {s : State} (h : s.cs = false) (r : Response) : s.accept.respond r = s.ends [] [] r := by
  simp [State.ends, State.endsAfter, State.accept, State.respond, h]

/-- An operation that raises an error before its first action, with chip-select released (R272, R273). -/
theorem runOp_raise {op : Op (List Byte)} {s : State} {e : Err} (hc : s.cs = false)
    (h : op s.accept = raise e s.accept) : runOp op s = s.ends [] [] ⟨e, []⟩ := by
  have h2 : op s.accept = .error e s.accept := by rw [h]; exact raise_free _ _ hc
  rw [runOp, h2]; exact respond_free hc _

/-! ### A plan of frames, then a state poll -/

/-- One planned frame of a plan that a state poll follows. -/
theorem plan_poll_step {α : Type} {x : Op (List Byte)} {s : State} {p : Params} {bytes : List Byte}
    {plan : List (List Byte)} {ex : PollExit} {fs ps : List FrameRun} {e : Option Err} (k : List Byte → Op α)
    (hp : s.params = p) (hx : SendsFrame x p bytes)
    (hf : followPlanThenPoll p (bytes :: plan) ex fs ps e = true) (hr : s.runs 0 0 (fs ++ ps) = true) :
    ∃ f rest, fs = f :: rest ∧
      ((followPlanThenPoll p plan ex rest ps e = true ∧
          (x >>= k) s = k [] (s.after [f] f.events) ∧ (s.after [f] f.events).runs 0 0 (rest ++ ps) = true) ∨
        (∃ err, e = some err ∧ rest = [] ∧ ps = [] ∧ (x >>= k) s = .error err (s.after [f] f.events))) := by
  subst hp
  simp only [followPlanThenPoll, Bool.or_eq_true, Bool.and_eq_true, decide_eq_true_eq] at hf
  rcases hf with ⟨h1, h2⟩ | ⟨⟨rfl, h2⟩, h3⟩
  · obtain ⟨f, rest, rfl, ⟨hc, hf', hx', hr'⟩ | ⟨err, h, _⟩⟩ := plan_step k hx h1 hr
    · exact ⟨f, rest, rfl, .inl ⟨by simp [followPlanThenPoll, hf', h2], hx', hr'⟩⟩
    · simp at h
  · obtain ⟨f, rest, rfl, ⟨hc, hf', hx', hr'⟩ | ⟨err, rfl, rfl, hx'⟩⟩ := plan_step k hx h3 hr
    · exact ⟨f, rest, rfl, .inl ⟨by simp [followPlanThenPoll, hf', h2], hx', hr'⟩⟩
    · exact ⟨f, [], rfl, .inr ⟨err, rfl, rfl, rfl, hx'⟩⟩

/-- The plan is done: what is left is the poll. -/
theorem plan_poll_nil {p : Params} {ex : PollExit} {fs ps : List FrameRun} {e : Option Err}
    (hf : followPlanThenPoll p [] ex fs ps e = true) :
    fs = [] ∧ followPoll p ex p.statePollLimit ps e = true := by
  simp only [followPlanThenPoll, Bool.or_eq_true, Bool.and_eq_true, decide_eq_true_eq] at hf
  cases fs with
  | cons => simp [followPlan] at hf
  | nil =>
    rcases hf with ⟨_, h⟩ | ⟨⟨rfl, h⟩, h3⟩
    · exact ⟨rfl, h⟩
    · simp [followPlan] at h3; subst h3; simp at h

end Sys2Proof.Machine
end

