-- ==== Sys2Proof/Laws/Exec.lean ====
section
/-! SUPPORT. What a waiting request stands for, and `exec`, one arm at a time: each meaning is one operation run from its acceptance to its response. -/

namespace Sys2Proof.Machine

@[simp] theorem decodeRequest_command (bs : List Byte) : decodeRequest (.command bs) = decodeCommand bs := rfl

@[simp] theorem decodeRequest_row (i : Instr) : decodeRequest (.row i) = .ok i := rfl

section
variable (s : State)

@[simp] theorem exec_transact (bs : List Byte) :
    exec (.transact bs) s = .next (runOp (transact bs) s) := rfl

@[simp] theorem exec_reset :
    exec .reset s = .next (runOp deviceReset s) := rfl

@[simp] theorem exec_readSingle (a : Byte) :
    exec (.readSingle a) s = .next (runOp (readSingle a) s) := rfl

@[simp] theorem exec_readBurst (a k : Byte) :
    exec (.readBurst a k) s = .next (runOp (readBurst a k.toNat) s) := rfl

@[simp] theorem exec_writeSingle (a v : Byte) :
    exec (.writeSingle a v) s = .next (runOp (writeSingle a v) s) := rfl

@[simp] theorem exec_writeBurst (a : Byte) (vs : List Byte) :
    exec (.writeBurst a vs) s = .next (runOp (writeBurst a vs) s) := rfl

@[simp] theorem exec_strobe (v : Byte) :
    exec (.strobe v) s = .next (runOp (strobe v) s) := rfl

@[simp] theorem exec_setModType (x : Byte) :
    exec (.setModType x) s = .next (runOp (setModulationType x) s) := rfl

@[simp] theorem exec_setSyncMode (x : Byte) :
    exec (.setSyncMode x) s = .next (runOp (setSyncMode x) s) := rfl

@[simp] theorem exec_setManchester (b : Bool) :
    exec (.setManchester b) s = .next (runOp (setManchester b) s) := rfl

@[simp] theorem exec_setDcFilter (b : Bool) :
    exec (.setDcFilter b) s = .next (runOp (setDCFilter b) s) := rfl

@[simp] theorem exec_setFrequency (hz : BitVec 32) :
    exec (.setFrequency hz) s = .next (runOp (setFrequency hz.toNat) s) := rfl

@[simp] theorem exec_getFrequency :
    exec .getFrequency s = .next (runOp getFrequency s) := rfl

@[simp] theorem exec_enterReceive :
    exec .enterReceive s = .next (runOp enterReceive s) := rfl

@[simp] theorem exec_enterTransmit :
    exec .enterTransmit s = .next (runOp enterTransmit s) := rfl

@[simp] theorem exec_sendPacket (p : List Byte) :
    exec (.sendPacket p) s = .next (runOp (sendPacket p) s) := rfl

@[simp] theorem exec_receivePacket :
    exec .receivePacket s = .next (runOp receivePacket s) := rfl

@[simp] theorem exec_setTxPower (l : BitVec 16) :
    exec (.setTxPower l) s = .next (runOp (setTxPower l.toNat) s) := rfl

@[simp] theorem exec_hdrWriteSingle (a : RegAddr) (v : Byte) :
    exec (.hdrWriteSingle a v) s = .next (runOp (writeSingle (fieldAddr a) v) s) := rfl

@[simp] theorem exec_hdrWriteBurst (a : RegAddr) (vs : List Byte) :
    exec (.hdrWriteBurst a vs) s = .next (runOp (writeBurst (fieldAddr a) vs) s) := rfl

@[simp] theorem exec_hdrReadSingle (a : RegAddr) :
    exec (.hdrReadSingle a) s = .next (runOp (readSingle (fieldAddr a)) s) := rfl

@[simp] theorem exec_hdrReadBurst (a : RegAddr) (k : Byte) :
    exec (.hdrReadBurst a k) s = .next (runOp (readBurst (fieldAddr a) k.toNat) s) := rfl

@[simp] theorem exec_hdrStatusRead (a : RegAddr) :
    exec (.hdrStatusRead a) s = .next (runOp (readSingle (statusAddr a)) s) := rfl

@[simp] theorem exec_sres :
    exec .sres s = .next (runOp (strobe 0x30) s) := rfl

@[simp] theorem exec_sfstxon :
    exec .sfstxon s = .next (runOp (strobe 0x31) s) := rfl

@[simp] theorem exec_sxoff :
    exec .sxoff s = .next (runOp (strobe 0x32) s) := rfl

@[simp] theorem exec_scal :
    exec .scal s = .next (runOp (strobe 0x33) s) := rfl

@[simp] theorem exec_srx :
    exec .srx s = .next (runOp (strobe 0x34) s) := rfl

@[simp] theorem exec_stx :
    exec .stx s = .next (runOp (strobe 0x35) s) := rfl

@[simp] theorem exec_sidle :
    exec .sidle s = .next (runOp (strobe 0x36) s) := rfl

@[simp] theorem exec_reserved37 :
    exec .reserved37 s = .next (runOp (strobe 0x37) s) := rfl

@[simp] theorem exec_swor :
    exec .swor s = .next (runOp (strobe 0x38) s) := rfl

@[simp] theorem exec_spwd :
    exec .spwd s = .next (runOp (strobe 0x39) s) := rfl

@[simp] theorem exec_sfrx :
    exec .sfrx s = .next (runOp (strobe 0x3A) s) := rfl

@[simp] theorem exec_sftx :
    exec .sftx s = .next (runOp (strobe 0x3B) s) := rfl

@[simp] theorem exec_sworrst :
    exec .sworrst s = .next (runOp (strobe 0x3C) s) := rfl

@[simp] theorem exec_snop :
    exec .snop s = .next (runOp (strobe 0x3D) s) := rfl

end

end Sys2Proof.Machine
end

