-- ==== Sys2Proof/Laws/PerInstr.lean ====
section
/-! SUPPORT. Statements made of every instruction, one lemma per constructor. LengthRule: the length R106 reads off the
first bytes of a well-formed command is the length of its encoding; a wire row is no command, so it has nothing to
show. -/

namespace Sys2Proof

/-- The count byte of a list that fits is its length (R100, R102). -/
theorem count_toNat {bs : List Byte} (h : fitsCount bs = true) : (BitVec.ofNat 8 bs.length).toNat = bs.length := by
  have : bs.length ≤ 255 := by simpa [fitsCount] using h
  rw [BitVec.toNat_ofNat]; omega

namespace Laws.LengthRule

def Statement (i : Instr) : Prop :=
  i.wellFormed = true → i.onCommandPort = true → commandLength (encode i) = some (encode i).length

/-- A wire row is not on the command port, so the rule asks nothing of it. -/
theorem notOnPort {i : Instr} (off : i.onCommandPort = false) : Statement i :=
  fun _ on => Bool.noConfusion (off.symm.trans on)

theorem transact (bs : List Byte) : Statement (.transact bs) := fun h _ => by
  simp [encode, commandLength, count_toNat (bs := bs) h]; omega

theorem reset : Statement .reset := fun _ _ => rfl

theorem readSingle (a : Byte) : Statement (.readSingle a) := fun _ _ => rfl

theorem readBurst (a k : Byte) : Statement (.readBurst a k) := fun _ _ => rfl

theorem writeSingle (a v : Byte) : Statement (.writeSingle a v) := fun _ _ => rfl

theorem writeBurst (a : Byte) (vs : List Byte) : Statement (.writeBurst a vs) := fun h _ => by
  simp [encode, commandLength, count_toNat (bs := vs) h]; omega

theorem strobe (v : Byte) : Statement (.strobe v) := fun _ _ => rfl

theorem setModType (x : Byte) : Statement (.setModType x) := fun _ _ => rfl

theorem setSyncMode (x : Byte) : Statement (.setSyncMode x) := fun _ _ => rfl

theorem setManchester (b : Bool) : Statement (.setManchester b) := fun _ _ => match b with | true => rfl | false => rfl

theorem setDcFilter (b : Bool) : Statement (.setDcFilter b) := fun _ _ => match b with | true => rfl | false => rfl

theorem setFrequency (hz : BitVec 32) : Statement (.setFrequency hz) := fun _ _ => rfl

theorem getFrequency : Statement .getFrequency := fun _ _ => rfl

theorem enterReceive : Statement .enterReceive := fun _ _ => rfl

theorem enterTransmit : Statement .enterTransmit := fun _ _ => rfl

theorem sendPacket (p : List Byte) : Statement (.sendPacket p) := fun h _ => by
  simp [encode, commandLength, count_toNat (bs := p) h]; omega

theorem receivePacket : Statement .receivePacket := fun _ _ => rfl

theorem setTxPower (l : BitVec 16) : Statement (.setTxPower l) := fun _ _ => rfl

theorem hdrWriteSingle (a : RegAddr) (v : Byte) : Statement (.hdrWriteSingle a v) := notOnPort rfl

theorem hdrWriteBurst (a : RegAddr) (vs : List Byte) : Statement (.hdrWriteBurst a vs) := notOnPort rfl

theorem hdrReadSingle (a : RegAddr) : Statement (.hdrReadSingle a) := notOnPort rfl

theorem hdrReadBurst (a : RegAddr) (k : Byte) : Statement (.hdrReadBurst a k) := notOnPort rfl

theorem hdrStatusRead (a : RegAddr) : Statement (.hdrStatusRead a) := notOnPort rfl

theorem sres : Statement .sres := notOnPort rfl

theorem sfstxon : Statement .sfstxon := notOnPort rfl

theorem sxoff : Statement .sxoff := notOnPort rfl

theorem scal : Statement .scal := notOnPort rfl

theorem srx : Statement .srx := notOnPort rfl

theorem stx : Statement .stx := notOnPort rfl

theorem sidle : Statement .sidle := notOnPort rfl

theorem reserved37 : Statement .reserved37 := notOnPort rfl

theorem swor : Statement .swor := notOnPort rfl

theorem spwd : Statement .spwd := notOnPort rfl

theorem sfrx : Statement .sfrx := notOnPort rfl

theorem sftx : Statement .sftx := notOnPort rfl

theorem sworrst : Statement .sworrst := notOnPort rfl

theorem snop : Statement .snop := notOnPort rfl

end Laws.LengthRule

end Sys2Proof
end

