-- ==== Sys2Proof/Tests/Slice0.lean ====
section
/-! SUPPORT. Tests of the model. Expected words are written out from 30_encoding R91 to R102; expected traces and
responses are the vectors of 95_test_vectors (named in each docstring) or the examples of the rules. Then a witness for
the hypotheses of every statement that has some. -/

namespace Sys2Proof.Tests

open Sys2Proof.Machine

/-! ### WellFormed: one ill-formed term for each check -/

theorem fitsCount_replicate (n : Nat) (b : Byte) : fitsCount (List.replicate n b) = decide (n ≤ 255) := by
  simp [fitsCount]

theorem test_wf_transact : (Instr.transact (List.replicate 256 0)).wellFormed = false :=
  (fitsCount_replicate 256 0).trans (by decide)

theorem test_wf_writeBurst : (Instr.writeBurst 0x0D (List.replicate 256 0)).wellFormed = false :=
  (fitsCount_replicate 256 0).trans (by decide)

theorem test_wf_sendPacket : (Instr.sendPacket (List.replicate 256 0)).wellFormed = false :=
  (fitsCount_replicate 256 0).trans (by decide)

theorem test_wf_hdrWriteBurst : (Instr.hdrWriteBurst 0x0D (List.replicate 256 0)).wellFormed = false :=
  (fitsCount_replicate 256 0).trans (by decide)

theorem test_wf_hdrReadBurst : (Instr.hdrReadBurst 0x35 1).wellFormed = false := by decide

theorem test_wf_hdrStatusRead :
    (Instr.hdrStatusRead 0x2F).wellFormed = false ∧ (Instr.hdrStatusRead 0x3E).wellFormed = false := by decide

theorem test_wf_longest : (Instr.writeBurst 0x0D (List.replicate 255 0)).wellFormed = true :=
  (fitsCount_replicate 255 0).trans (by decide)

/-! ### Decoding: every constructor, from words written out (R91, R95, R96, R102) -/

theorem test_decode_busframe :
    decodeCommand [0x01, 0x02, 0x92, 0x00] = .ok (.transact [0x92, 0x00]) ∧ decodeCommand [0x02] = .ok .reset := by
  decide

theorem test_decode_register_access :
    decodeCommand [0x10, 0x12] = .ok (.readSingle 0x12) ∧
    decodeCommand [0x11, 0x0D, 0x03] = .ok (.readBurst 0x0D 3) ∧
    decodeCommand [0x12, 0x12, 0x30] = .ok (.writeSingle 0x12 0x30) ∧
    decodeCommand [0x13, 0x0D, 0x03, 0x10, 0xB0, 0x71] = .ok (.writeBurst 0x0D [0x10, 0xB0, 0x71]) ∧
    decodeCommand [0x14, 0x36] = .ok (.strobe 0x36) := by decide

theorem test_decode_config_model :
    decodeCommand [0x20, 0x03] = .ok (.setModType 0x03) ∧
    decodeCommand [0x21, 0x02] = .ok (.setSyncMode 0x02) ∧
    decodeCommand [0x22, 0x01] = .ok (.setManchester true) ∧
    decodeCommand [0x23, 0x00] = .ok (.setDcFilter false) ∧
    decodeCommand [0x24, 0x19, 0xDD, 0x18, 0x00] = .ok (.setFrequency 433920000) ∧
    decodeCommand [0x25] = .ok .getFrequency := by decide

theorem test_decode_radio_control :
    decodeCommand [0x30] = .ok .enterReceive ∧ decodeCommand [0x31] = .ok .enterTransmit ∧
    decodeCommand [0x32, 0x02, 0xAA, 0x55] = .ok (.sendPacket [0xAA, 0x55]) ∧
    decodeCommand [0x33] = .ok .receivePacket ∧
    decodeCommand [0x34, 0x01, 0x00] = .ok (.setTxPower 0x100) := by decide

/-- The header byte bit by bit: `RW`, `B`, `A` (R91); address 0x12 is 010010, MARCSTATE's field is 110101. -/
theorem test_decode_headers :
    decodeWire [0b00010010, 0x30] = .ok (.hdrWriteSingle 0x12 0x30) ∧
    decodeWire [0b01001101, 0x10, 0xB0] = .ok (.hdrWriteBurst 0x0D [0x10, 0xB0]) ∧
    decodeWire [0b10010010, 0x00] = .ok (.hdrReadSingle 0x12) ∧
    decodeWire [0b11001101, 0x00, 0x00, 0x00] = .ok (.hdrReadBurst 0x0D 3) ∧
    decodeWire [0b11110101, 0x00] = .ok (.hdrStatusRead 0x35) := by decide

theorem test_decode_strobes :
    [[0x30], [0x31], [0x32], [0x33], [0x34], [0x35], [0x36], [0x37], [0x38], [0x39], [0x3A], [0x3B], [0x3C],
      [0x3D]].map decodeWire =
    [.ok .sres, .ok .sfstxon, .ok .sxoff, .ok .scal, .ok .srx, .ok .stx, .ok .sidle, .ok .reserved37, .ok .swor,
      .ok .spwd, .ok .sfrx, .ok .sftx, .ok .sworrst, .ok .snop] := by decide

/-- The words of spec/opcode_table.json: a command byte, a header byte, a strobe code; `0x30` is the command. -/
theorem test_decode_table_words :
    decodeTableWord 8 0x02 = some .reset ∧ decodeTableWord 8 0x11 = some (.readBurst 0 0) ∧
    decodeTableWord 8 0x01 = some (.transact []) ∧ decodeTableWord 8 0x80 = some (.hdrReadSingle 0) ∧
    decodeTableWord 8 0x40 = some (.hdrWriteBurst 0 [0]) ∧ decodeTableWord 8 0xC0 = some (.hdrReadBurst 0 1) ∧
    decodeTableWord 8 0xF0 = some (.hdrStatusRead 0x30) ∧ decodeTableWord 8 0x3D = some .snop ∧
    decodeTableWord 8 0x30 = some .enterReceive := by decide

/-- V-CP1 to V-CP5, and R104 (c). -/
theorem test_decode_illegal :
    decodeCommand [0x00] = .error .badOpcode ∧ decodeCommand [0x10] = .error .badLength ∧
    decodeCommand [0x13, 0x0D, 0x03, 0x10, 0xB0] = .error .badLength ∧
    decodeCommand [0x25, 0x00] = .error .badLength ∧ decodeCommand [0x23, 0xFF] = .error .badBoolean ∧
    decodeCommand [0x22, 0x02] = .error .badBoolean ∧ decodeCommand [] = .error .emptyCommand := by decide

/-! ### One operation on a small state -/

/-- The parameters of every vector (95_test_vectors, Conventions). -/
def vectorParams : Params where
  fXosc := 26000000
  fifoCapacity := 64
  readyPollLimit := 3
  statePollLimit := 3
  dummyByte := 0x00
  busyActiveHigh := true
  peer := Config.cc1101

/-- An idle block with the vectors' parameters and these peer answers. -/
def block (busy : List Bool) (answers : List (Option Byte)) : State :=
  { State.reset with params := vectorParams, busyIn := busy, xferIn := answers }

def got (bs : List Byte) : List (Option Byte) := bs.map some

/-- The observation of an operation (R20): its events and its response. -/
def observe (i : Instr) (s : State) : Option (List Event × Option Response) :=
  match exec i s with
  | .next t => some (newEvents s t, t.resp)
  | .fault _ => none
  | .refused _ => none

/-- `F[b0,b1,...]` with the answers: a frame whose ready-wait read busy 0 once. -/
def fr (xs : List (Byte × Byte)) : List Event :=
  [.cs true, .busy false] ++ xs.map (fun p => .xfer p.1 p.2) ++ [.cs false]

/-- A status or register read of one byte, the header-phase answer being `0x0F`. -/
def rd (h r : Byte) : List Event := fr [(h, 0x0F), (0x00, r)]

def ok (d : List Byte) : Option Response := some ⟨.ok, d⟩

def err (e : Err) : Option Response := some ⟨e, []⟩

/-- V-BF1. -/
theorem test_transact_empty : observe (.transact []) (block [false] []) =
    some ([.cs true, .busy false, .cs false], ok []) := by decide

/-- V-BF3. -/
theorem test_transact : observe (.transact [0x92, 0x00]) (block [false] (got [0x0F, 0x02])) =
    some (fr [(0x92, 0x0F), (0x00, 0x02)], ok [0x0F, 0x02]) := by decide

/-- V-BF5. -/
theorem test_reset : observe .reset (block [false, true, false] (got [0x0F])) =
    some ([.cs false, .delay .rst1, .cs true, .delay .rst2, .busy false, .xfer 0x30 0x0F, .busy true, .delay .readyPoll,
      .busy false, .cs false, .delay .settle], ok []) := by decide

/-- V-BF6. -/
theorem test_reset_second_wait : observe .reset (block [false, true, true, true] (got [0x0F])) =
    some ([.cs false, .delay .rst1, .cs true, .delay .rst2, .busy false, .xfer 0x30 0x0F, .busy true, .delay .readyPoll,
      .busy true, .delay .readyPoll, .busy true, .cs false], err .readyTimeout) := by decide

/-- V-RA4. -/
theorem test_readSingle : observe (.readSingle 0x12) (block [true, false] (got [0x0F, 0x02])) =
    some ([.cs true, .busy true, .delay .readyPoll, .busy false, .xfer 0x92 0x0F, .xfer 0x00 0x02, .cs false],
      ok [0x02]) := by decide

/-- V-RA5. -/
theorem test_readSingle_not_ready : observe (.readSingle 0x12) (block [true, true, true] []) =
    some ([.cs true, .busy true, .delay .readyPoll, .busy true, .delay .readyPoll, .busy true, .cs false],
      err .readyTimeout) := by decide

/-- V-RA6. -/
theorem test_readBurst : observe (.readBurst 0x0D 3) (block [false] (got [0x0F, 0x10, 0xB0, 0x71])) =
    some (fr [(0xCD, 0x0F), (0x00, 0x10), (0x00, 0xB0), (0x00, 0x71)], ok [0x10, 0xB0, 0x71]) := by decide

/-- V-RA7. -/
theorem test_readBurst_zero : observe (.readBurst 0x3F 0) (block [false] (got [0x0F])) =
    some (fr [(0xFF, 0x0F)], ok []) := by decide

/-- V-RA10: the burst bit of the address is kept. -/
theorem test_writeSingle : observe (.writeSingle 0x52 0x30) (block [false] (got [0x0F, 0x0F])) =
    some (fr [(0x52, 0x0F), (0x30, 0x0F)], ok []) := by decide

/-- V-RA11. -/
theorem test_writeBurst : observe (.writeBurst 0x0D [0x10, 0xB0, 0x71]) (block [false] [some 0x0F, some 0x0F, none]) =
    some ([.cs true, .busy false, .xfer 0x4D 0x0F, .xfer 0x10 0x0F, .xferFail 0xB0, .cs false],
      err .transportError) := by decide

/-- V-RA13. -/
theorem test_writeBurst_header : observe (.writeBurst 0x7F [0x01]) (block [false] (got [0x0F, 0x0F])) =
    some (fr [(0x7F, 0x0F), (0x01, 0x0F)], ok []) := by decide

/-- V-RA15. -/
theorem test_strobe : observe (.strobe 0x12) (block [false] (got [0x0F])) = some (fr [(0x12, 0x0F)], ok []) := by
  decide

/-- The shadows after an operation. -/
def shadowsAfter (i : Instr) (s : State) : Option (Byte × Byte × Byte × Byte) :=
  match exec i s with
  | .next t => some (t.dcfilter, t.modtype, t.manchester, t.syncmode)
  | .fault _ => none
  | .refused _ => none

/-- V-CM2: the fourth exchange fails; the shadow is kept. -/
theorem test_setModType_kept :
    observe (.setModType 0x03) (block [false, false] [some 0x0F, some 0x0F, some 0x0F, none]) =
      some (fr [(0x12, 0x0F), (0x30, 0x0F)] ++ [.cs true, .busy false, .xfer 0x22 0x0F, .xferFail 0x11, .cs false],
        err .transportError) ∧
    shadowsAfter (.setModType 0x03) (block [false, false] [some 0x0F, some 0x0F, some 0x0F, none]) =
      some (0x00, 0x30, 0x00, 0x00) := by decide

/-- W10. -/
theorem test_setModType_unsupported :
    observe (.setModType 0x02) (block [] []) = some ([], err .invalidArgument) ∧
    shadowsAfter (.setModType 0x02) (block [] []) = some (0x00, 0x00, 0x00, 0x00) := by decide

/-- V-CM1, step 3. -/
theorem test_setSyncMode :
    observe (.setSyncMode 7) { block [false] (got [0x0F, 0x0F]) with modtype := 0x70 } =
      some (fr [(0x12, 0x0F), (0x77, 0x0F)], ok []) := by decide

/-- V-CM1, step 10. -/
theorem test_setSyncMode_unsupported :
    observe (.setSyncMode 8) (block [] []) = some ([], err .invalidArgument) := by decide

/-- The example of R195. -/
theorem test_setManchester :
    observe (.setManchester true) { block [false] (got [0x0F, 0x0F]) with modtype := 0x30, syncmode := 0x02 } =
      some (fr [(0x12, 0x0F), (0x3A, 0x0F)], ok []) := by decide

/-- The example of R196. -/
theorem test_setDcFilter :
    observe (.setDcFilter true)
        { block [false] (got [0x0F, 0x0F]) with modtype := 0x30, manchester := 0x08, syncmode := 0x02 } =
      some (fr [(0x12, 0x0F), (0xBA, 0x0F)], ok []) := by decide

/-- V-CM1, step 8. -/
theorem test_setDcFilter_false :
    observe (.setDcFilter false) { block [false] (got [0x0F, 0x0F]) with dcfilter := 0x80, syncmode := 0x07 } =
      some (fr [(0x12, 0x0F), (0x07, 0x0F)], ok []) := by decide

/-- W1. -/
theorem test_setFrequency :
    observe (.setFrequency 433920000) (block [false] (got [0x0F, 0x0F, 0x0F, 0x0F])) =
      some (fr [(0x4D, 0x0F), (0x10, 0x0F), (0xB0, 0x0F), (0x71, 0x0F)], ok []) := by decide

/-- V-CM4. -/
theorem test_setFrequency_overflow :
    observe (.setFrequency 4294967295) { block [] [] with params := { vectorParams with fXosc := 16000000 } } =
      some ([], err .invalidArgument) := by decide

/-- V-CM3, columns Encode and DecodeHz. -/
theorem test_frequency_words :
    [0, 198, 199, 300000000, 315000000, 348000000, 387000000, 464000000, 779000000, 868300000, 915000000, 928000000,
      4294967295].map (freqEncode 26000000) =
      [0x000000, 0x000000, 0x000001, 0x0B89D9, 0x0C1D8A, 0x0D6276, 0x0EE276, 0x11D89E, 0x1DF627, 0x21656A, 0x23313B,
        0x23B13B, 0xA530E9] ∧
    [0x000000, 0x000001, 0x0B89D9, 0x0C1D8A, 0x0D6276, 0x0EE276, 0x10B071, 0x11D89E, 0x1DF627, 0x21656A, 0x23313B,
      0x23B13B].map (freqDecodeHz 26000000) =
      [0, 397, 300000153, 315000061, 347999939, 386999939, 433919830, 464000183, 778999847, 868299866, 914999969,
        927999969] := by decide

/-- The example of R204. -/
theorem test_getFrequency : observe .getFrequency (block [false] (got [0x0F, 0x10, 0xB0, 0x71])) =
    some (fr [(0xCD, 0x0F), (0x00, 0x10), (0x00, 0xB0), (0x00, 0x71)], ok [0x10, 0xB0, 0x71]) ∧
    freqWord 0x10 0xB0 0x71 = 0x10B071 := by decide

/-- W2: `Decode(0x10B071) = 222 166 953 125 / 512` Hz. -/
theorem test_freqDecode : freqDecode 26000000 0x10B071 = 222166953125 / 512 := by norm_num [freqDecode]

/-- V-RC1. -/
theorem test_enterReceive :
    observe .enterReceive (block [false, false, false] (got [0x0F, 0x0F, 0x08, 0x0F, 0x0D])) =
      some (fr [(0x34, 0x0F)] ++ rd 0xF5 0x08 ++ [.delay .statePoll] ++ rd 0xF5 0x0D, ok []) := by decide

/-- V-RC2. -/
theorem test_enterReceive_masked :
    observe .enterReceive (block [false, false] (got [0x0F, 0x0F, 0x2D])) =
      some (fr [(0x34, 0x0F)] ++ rd 0xF5 0x2D, ok []) := by decide

/-- V-RC3: no delay after the third read. -/
theorem test_enterTransmit_timeout :
    observe .enterTransmit (block [false, false, false, false] (got [0x0F, 0x0F, 0x01, 0x0F, 0x08, 0x0F, 0x0C])) =
      some (fr [(0x35, 0x0F)] ++ rd 0xF5 0x01 ++ [.delay .statePoll] ++ rd 0xF5 0x08 ++ [.delay .statePoll] ++
        rd 0xF5 0x0C, err .stateTransitionTimeout) := by decide

/-- V-RC4. -/
theorem test_enterTransmit :
    observe .enterTransmit (block [false, false, false] (got [0x0F, 0x0F, 0x14, 0x0F, 0x13])) =
      some (fr [(0x35, 0x0F)] ++ rd 0xF5 0x14 ++ [.delay .statePoll] ++ rd 0xF5 0x13, ok []) := by decide

/-- V-RC5. -/
theorem test_sendPacket :
    observe (.sendPacket [0xAA, 0x55])
        (block (List.replicate 7 false)
          (got ([0x0F, 0x0F] ++ [0x0F, 0x0F, 0x0F, 0x0F] ++ [0x0F] ++ [0x0F, 0x13, 0x0F, 0x14, 0x0F, 0x01]))) =
      some (fr [(0x36, 0x0F)] ++ fr [(0x3B, 0x0F)] ++ fr [(0x7F, 0x0F), (0x02, 0x0F), (0xAA, 0x0F), (0x55, 0x0F)] ++
        fr [(0x35, 0x0F)] ++ rd 0xF5 0x13 ++ [.delay .statePoll] ++ rd 0xF5 0x14 ++ [.delay .statePoll] ++ rd 0xF5 0x01,
        ok []) := by decide

/-- V-RC9: 65 bytes. -/
theorem test_sendPacket_too_large :
    observe (.sendPacket (List.replicate 65 0x00)) (block [] []) = some ([], err .payloadTooLarge) := by decide

/-- V-RC13. -/
theorem test_receivePacket :
    observe .receivePacket (block [false, false, false] (got [0x0F, 0x0D, 0x0F, 0x83, 0x0F, 0x01, 0x02, 0x03])) =
      some (rd 0xF5 0x0D ++ rd 0xFB 0x83 ++ fr [(0xFF, 0x0F), (0x00, 0x01), (0x00, 0x02), (0x00, 0x03)],
        ok [0x01, 0x02, 0x03]) := by decide

/-- V-RC14. -/
theorem test_receivePacket_overflow :
    observe .receivePacket (block [false, false, false] (got [0x0F, 0x31, 0x0F, 0x0F])) =
      some (rd 0xF5 0x31 ++ fr [(0x3A, 0x0F)] ++ fr [(0x34, 0x0F)], ok []) := by decide

/-- V-RC15. -/
theorem test_setTxPower :
    observe (.setTxPower 0xC0) (block [false, false] (List.replicate 11 (some 0x0F))) =
      some (fr ([0x7E, 0xC0, 0, 0, 0, 0, 0, 0, 0].map (fun b => (b, 0x0F))) ++ fr [(0x22, 0x0F), (0x10, 0x0F)],
        ok []) := by decide

/-- V-RC16. -/
theorem test_setTxPower_unsupported :
    observe (.setTxPower 0x100) (block [] []) = some ([], err .invalidArgument) := by decide

/-- The wire forms of R153, R154, R151, R152, R156. -/
theorem test_headers :
    observe (.hdrWriteSingle 0x12 0x30) (block [false] (got [0x0F, 0x0F])) =
      some (fr [(0x12, 0x0F), (0x30, 0x0F)], ok []) ∧
    observe (.hdrWriteBurst 0x3F []) (block [false] (got [0x0F])) = some (fr [(0x7F, 0x0F)], ok []) ∧
    observe (.hdrReadSingle 0x35) (block [false] (got [0x0F, 0x0F])) =
      some (fr [(0xB5, 0x0F), (0x00, 0x0F)], ok [0x0F]) ∧
    observe (.hdrReadBurst 0x12 1) (block [false] (got [0x0F, 0x02])) =
      some (fr [(0xD2, 0x0F), (0x00, 0x02)], ok [0x02]) ∧
    observe (.hdrStatusRead 0x35) (block [false] (got [0x0F, 0x0D])) =
      some (fr [(0xF5, 0x0F), (0x00, 0x0D)], ok [0x0D]) := by decide

/-- R155 and R160 to R173: every strobe sends its code alone. -/
theorem test_strobes :
    [Instr.sres, .sfstxon, .sxoff, .scal, .srx, .stx, .sidle, .reserved37, .swor, .spwd, .sfrx, .sftx, .sworrst,
      .snop].map (fun i => observe i (block [false] (got [0x1F]))) =
    ([0x30, 0x31, 0x32, 0x33, 0x34, 0x35, 0x36, 0x37, 0x38, 0x39, 0x3A, 0x3B, 0x3C, 0x3D] : List Byte).map
      (fun v => some (fr [(v, 0x1F)], ok [])) := by decide

/-- U14: with the other polarity the same levels mean the opposite. -/
theorem test_busy_polarity :
    observe (.strobe 0x36)
        { block [false, true] (got [0x1F]) with params := { vectorParams with busyActiveHigh := false } } =
      some ([.cs true, .busy true, .delay .readyPoll, .busy false, .xfer 0x36 0x1F, .cs false], ok []) := by decide

/-! ### The ports -/

/-- The host's side of one command: issue it, step once, read the response. -/
def hostRun (c : List Byte) (s : State) : Option (List Byte) :=
  match issue c s with
  | .next t =>
    match step t with
    | .next u =>
      match readResponse u with
      | .ok r => some r
      | .error _ => none
    | .fault _ => none
    | .refused _ => none
  | .fault _ => none
  | .refused _ => none

/-- V-CP1, V-CP6, V-CP7. -/
theorem test_port :
    hostRun [0x00] (block [] []) = some [0x06, 0x00] ∧
    hostRun [0x10, 0xF5] (block [false] (got [0x0F, 0x0D])) = some [0x00, 0x01, 0x0D] ∧
    hostRun [0x25] (block [false] (got [0x0F, 0x10, 0xB0, 0x71])) = some [0x00, 0x03, 0x10, 0xB0, 0x71] := by
  decide

/-- U1. -/
theorem test_response_before_any : readResponse State.reset = .error .responseNotWritten := by decide

/-- U10. -/
theorem test_issue_while_active : issue [0x02] (block [] []).accept = .refused .commandWhileActive := rfl

/-- A second command while one waits (log entry 10). -/
theorem test_issue_while_waiting :
    issue [0x02] { block [] [] with port := some (.command [0x25]) } = .refused .commandWaiting := rfl

/-! ### The sequencer at its own grain (R8) against the vectors -/

/-- The observation after `n` steps of the sequencer from the acceptance of `i`. -/
def observeTicks (n : Nat) (i : Instr) (s : State) : Option (List Event × Option Response × Bool) :=
  (ticks n (start i s)).map (fun t => (t.trace, t.resp, t.active))

/-- V-BF5, eleven events and the response. -/
theorem test_ticks_reset : observeTicks 12 .reset (block [false, true, false] (got [0x0F])) =
    some ([.cs false, .delay .rst1, .cs true, .delay .rst2, .busy false, .xfer 0x30 0x0F, .busy true, .delay .readyPoll,
      .busy false, .cs false, .delay .settle], ok [], false) := by decide

/-- V-RC3, twenty-one events; and one step earlier the operation still executes, with no response. -/
theorem test_ticks_poll :
    let s := block [false, false, false, false] (got [0x0F, 0x0F, 0x01, 0x0F, 0x08, 0x0F, 0x0C])
    observeTicks 22 .enterTransmit s = (observe .enterTransmit s).map (fun o => (o.1, o.2, false)) ∧
    (observeTicks 21 .enterTransmit s).map (fun o => o.2) = some (none, true) := by decide

/-- V-RC13. -/
theorem test_ticks_receive :
    let s := block [false, false, false] (got [0x0F, 0x0D, 0x0F, 0x83, 0x0F, 0x01, 0x02, 0x03])
    observeTicks 18 .receivePacket s = (observe .receivePacket s).map (fun o => (o.1, o.2, false)) := by decide

/-- V-CM2. -/
theorem test_ticks_setModType :
    let s := block [false, false] [some 0x0F, some 0x0F, some 0x0F, none]
    observeTicks 11 (.setModType 0x03) s = (observe (.setModType 0x03) s).map (fun o => (o.1, o.2, false)) := by
  decide

/-! ### The assembler (R107, R108) -/

theorem test_assembler :
    assembleLine "setFrequency 433920000".toList = some (.setFrequency 433920000) ∧
    assembleLine "writeBurst 0x0D, [0x10, 0xB0, 0x71]".toList = some (.writeBurst 0x0D [0x10, 0xB0, 0x71]) ∧
    assembleLine "setModulation OOK".toList = some (.setModType 0x03) ∧
    assembleLine "setDCFilter true".toList = some (.setDcFilter true) ∧
    assembleLine "sworrst".toList = some (.strobe 0x3C) ∧
    assembleLine "readStatus 0x35".toList = some (.readSingle 0xF5) ∧
    assembleLine "transact []".toList = some (.transact []) ∧ assembleLine "setModulation BPSK".toList = none := by
  decide

/-! ### The simulated register store -/

/-- V-RA11: the first value is stored, the failed one is not; and P3's last receive empties the RX FIFO. -/
theorem test_simpeer :
    ((SimPeer.follow [.cs true, .busy false, .xfer 0x4D 0x0F, .xfer 0x10 0x0F, .xferFail 0xB0, .cs false]
      SimPeer.start).map (fun p => (p.reg 0x0D, p.reg 0x0E))) = some (0x10, 0x00) ∧
    ((SimPeer.follow (fr [(0xFF, 0x0F), (0x00, 0x02), (0x00, 0xAA)])
      { SimPeer.start with rxFifo := [0x02, 0xAA] }).map (fun p => p.rxFifo)) = some [] ∧
    (SimPeer.follow (rd 0x92 0x03) SimPeer.start) = none ∧
    ((SimPeer.follow (rd 0x92 0x02 ++ fr [(0x3A, 0x0F)]) SimPeer.start).map (fun p => p.strobes)) = some [0x3A] := by
  decide

/-! ### Witnesses: states and operands that meet the hypotheses of each statement -/

/-- A frame that completes at once. -/
def full (sent back : List Byte) : FrameRun := ⟨sent, 0, back, .complete⟩

/-- A frame whose ready-wait runs out at the vectors' limit. -/
def late (sent : List Byte) : FrameRun := ⟨sent, 3, [], .notReady⟩

/-- A frame that breaks after these answers. -/
def cut (sent back : List Byte) : FrameRun := ⟨sent, 0, back, .broken⟩

theorem witness_DecodeOfEncodedCommand :
    (Instr.writeBurst 0x0D [0x10]).wellFormed = true ∧ (Instr.writeBurst 0x0D [0x10]).onCommandPort = true := by
  decide

theorem witness_DecodedCommandIsItsEncoding : decodeCommand [0x22, 0x01] = .ok (.setManchester true) := by decide

theorem witness_WireRowsRoundTrip :
    (Instr.hdrStatusRead 0x30).wellFormed = true ∧ (Instr.hdrStatusRead 0x3D).wellFormed = true ∧
    (Instr.hdrStatusRead 0x30).onCommandPort = false ∧ decodeWire [0xF5, 0x00] = .ok (.hdrStatusRead 0x35) ∧
    decodeWire [0xF5, 0x00, 0x00] = .ok (.hdrReadBurst 0x35 2) := by decide

/-- The ends of every range of R104 (a); a wrong length; a boolean that is none; and an idle block with such a
command. -/
theorem witness_IllegalCommandsAreAnswered :
    ([0x00, 0x03, 0x0F, 0x15, 0x1F, 0x26, 0x2F, 0x35, 0xFF] : List Byte).all illegalOpcode = true ∧
    (illegalOpcode 0x10 = false ∧ commandLength [0x10] ≠ some [(0x10 : Byte)].length) ∧
    (illegalOpcode 0x23 = false ∧ commandLength [0x23, 0x02] = some 2 ∧ illegalBoolean [0x23, 0x02] = true) ∧
    (illegalOpcode 0x34 = false ∧ commandLength [0x34, 0, 0] = some 3 ∧ illegalBoolean [0x34, 0, 0] = false) ∧
    ({ block [] [] with port := some (.command [0x00]) } : State).idle = true ∧
    decodeCommand [0x00] = .error .badOpcode := by decide

theorem witness_CommandLengthIsDetermined : decodeCommand [0x32, 0x00] = .ok (.sendPacket []) := by decide

theorem witness_ResponseBytesCountTheirData : (Instr.transact [0x3D]).wellFormed = true := by decide

/-- One operation for each clause, with its data. -/
theorem witness_DataReturnedPerOperation :
    (observe (.transact [0x3D]) (block [false] (got [0x0F]))).map Prod.snd = some (ok [0x0F]) ∧
    (observe (.hdrStatusRead 0x35) (block [false] (got [0x0F, 0x0D]))).map Prod.snd = some (ok [0x0D]) ∧
    (observe (.hdrReadBurst 0x0D 2) (block [false] (got [0x0F, 1, 2]))).map Prod.snd = some (ok [1, 2]) ∧
    (observe .getFrequency (block [false] (got [0x0F, 1, 2, 3]))).map Prod.snd = some (ok [1, 2, 3]) ∧
    (observe .receivePacket (block [false, false, false] (got [0x0F, 0x0D, 0x0F, 0x01, 0x0F, 0x55]))).map Prod.snd =
      some (ok [0x55]) ∧
    (observe .snop (block [false] (got [0x0F]))).map Prod.snd = some (ok []) := by decide

theorem witness_StepRunsTheDecodedInstruction :
    (∃ s : State, s.active = false ∧ s.port = some (.command [0x02]) ∧ decodeCommand [0x02] = .ok .reset) ∧
    (∃ s : State, s.active = false ∧ s.port = some (.row .sidle)) ∧
    (∃ s : State, s.active = false ∧ s.port = some (.command [0x00]) ∧ decodeCommand [0x00] = .error .badOpcode) ∧
    (∃ s : State, s.active = false ∧ s.port = none) ∧ (∃ s : State, s.active = true) :=
  ⟨⟨{ block [] [] with port := some (.command [0x02]) }, rfl, rfl, by decide⟩,
    ⟨{ block [] [] with port := some (.row .sidle) }, rfl, rfl⟩,
    ⟨{ block [] [] with port := some (.command [0x00]) }, rfl, rfl, by decide⟩, ⟨block [] [], rfl, rfl⟩,
    ⟨(block [] []).accept, rfl⟩⟩

theorem witness_CommandsAreTakenOnlyWhenIdle :
    (block [] []).accept.active = true ∧ (block [] []).active = false ∧ (block [] []).port = none ∧
    decodeCommand [0x25] = .ok .getFrequency := by decide

/-- Every ending of a frame. -/
theorem witness_EveryFrameRunsExactlyOneWay :
    (block [true, false] (got [0x0F])).runsFrame 0 0 ⟨[0x3D], 1, [0x0F], .complete⟩ = true ∧
    (block [true, true, true] []).runsFrame 0 0 (late [0x3D]) = true ∧
    (block [false] [some 0x0F, none]).runsFrame 0 0 (cut [0x92, 0x00] [0x0F]) = true := by decide

theorem witness_TransactIsOneFrame :
    (block [false] []).runs 0 0 [full [] []] = true ∧ (block [true, true, true] []).runs 0 0 [late [0x3D]] = true ∧
    (block [false] [none]).runs 0 0 [cut [0x3D] []] = true := by decide

/-- The four cases, the first ready-wait at its limit, the second too. -/
theorem witness_DeviceResetSequence :
    (∀ k < 3, (block [true, true, true] []).busyAt k = true) ∧
    ((block [true, true, false] [none]).busyAt 2 = false ∧ (block [true, true, false] [none]).xferAt 0 = none ∧
      ∀ k < 2, (block [true, true, false] [none]).busyAt k = true) ∧
    ((block [false, true, true, true] [some 0x0F]).busyAt 0 = false ∧
      (block [false, true, true, true] [some 0x0F]).xferAt 0 = some 0x0F ∧
      ∀ k < 3, (block [false, true, true, true] [some 0x0F]).busyAt (0 + 1 + k) = true) ∧
    ((block [false, true, true, false] [some 0x0F]).xferAt 0 = some 0x0F ∧
      (∀ k < 2, (block [false, true, true, false] [some 0x0F]).busyAt (0 + 1 + k) = true) ∧
      (block [false, true, true, false] [some 0x0F]).busyAt (0 + 1 + 2) = false) := by decide

theorem witness_ReadsReturnTheDataPhase :
    (Instr.readBurst 0x3F 0).onCommandPort = true ∧ readFrameOf vectorParams (.readBurst 0x3F 0) = some [0xFF] ∧
    (block [false] (got [0x0F])).runs 0 0 [full [0xFF] [0x0F]] = true ∧
    (Instr.readSingle 0xF5).onCommandPort = true ∧ readFrameOf vectorParams (.readSingle 0xF5) = some [0xF5, 0x00] ∧
    (block [false] [some 0x0F, none]).runs 0 0 [cut [0xF5, 0x00] [0x0F]] = true := by decide

theorem witness_WritesAndStrobesSendOneFrame :
    (Instr.writeBurst 0x3F []).onCommandPort = true ∧ writeFrameOf vectorParams (.writeBurst 0x3F []) = some [0x7F] ∧
    (block [false] (got [0x0F])).runs 0 0 [full [0x7F] [0x0F]] = true ∧
    (Instr.strobe 0x3D).onCommandPort = true ∧ writeFrameOf vectorParams (.strobe 0x3D) = some [0x3D] ∧
    (block [true, true, true] []).runs 0 0 [late [0x3D]] = true := by decide

theorem witness_WireRowsRunAsOneFrame :
    (Instr.hdrStatusRead 0x35).onCommandPort = false ∧ Instr.snop.onCommandPort = false ∧
    readFrameOf vectorParams (.hdrStatusRead 0x35) = some [0xF5, 0x00] ∧
    (block [false] (got [0x0F, 0x0D])).runs 0 0 [full [0xF5, 0x00] [0x0F, 0x0D]] = true ∧
    writeFrameOf vectorParams .snop = some [0x3D] ∧
    (block [false] [none]).runs 0 0 [cut [0x3D] []] = true := by decide

theorem witness_WireRowsSendTheirEncoding :
    (block [] []).params.peer = Config.cc1101 ∧ (block [] []).params.dummyByte = Config.dummyByte ∧
    ((Instr.hdrReadBurst 0x3F 0).onCommandPort = false ∧ encode (.hdrReadBurst 0x3F 0) = [0xFF] ∧
      (block [false] (got [0x0F])).runs 0 0 [full [0xFF] [0x0F]] = true) ∧
    (Instr.hdrWriteSingle 0x12 0x30).onCommandPort = false ∧ encode (.hdrWriteSingle 0x12 0x30) = [0x12, 0x30] ∧
    (block [false] [some 0x0F, none]).runs 0 0 [cut [0x12, 0x30] [0x0F]] = true := by decide

theorem witness_HeadersKeepTheAddressBits :
    (0xF0 ≤ (0xF0 : Byte).toNat ∧ (0xF0 : Byte).toNat ≤ 0xFD) ∧
    (0xF0 ≤ (0xFD : Byte).toNat ∧ (0xFD : Byte).toNat ≤ 0xFD) ∧
    (0x52 : Byte).getLsbD 6 = true := by decide

theorem witness_SetModulationTypeWrites :
    (block [] []).cs = false ∧ (0x02 : Byte) ∉ ([0x00, 0x01, 0x03, 0x04, 0x07] : List Byte) ∧
    (0x03 : Byte) ∈ ([0x00, 0x01, 0x03, 0x04, 0x07] : List Byte) ∧
    ({ block [false, false] (got [0, 0, 0, 0]) with modtype := (0x03 : Byte) <<< 4 } : State).packed = 0x30 ∧
    followPlan [[0x12, 0x30], [0x22, 0x11]] [full [0x12, 0x30] [0, 0], full [0x22, 0x11] [0, 0]] none = true ∧
    (block [false, false] (got [0, 0, 0, 0])).runs 0 0 [full [0x12, 0x30] [0, 0], full [0x22, 0x11] [0, 0]] = true ∧
    followPlan [[0x12, 0x30], [0x22, 0x11]] [full [0x12, 0x30] [0, 0], cut [0x22, 0x11] [0]] (some .transportError)
      = true ∧
    (block [false, false] [some 0, some 0, some 0, none]).runs 0 0
      [full [0x12, 0x30] [0, 0], cut [0x22, 0x11] [0]] = true := by decide

theorem witness_SetSyncModeWrites :
    (block [] []).cs = false ∧ 0x07 < (0x08 : Byte).toNat ∧ (0x07 : Byte).toNat ≤ 0x07 ∧
    ({ block [] [] with syncmode := 0x07 } : State).packed = 0x07 ∧
    (block [false] (got [0, 0])).runs 0 0 [full [0x12, 0x07] [0, 0]] = true := by decide

theorem witness_SetManchesterWrites :
    ({ block [] [] with manchester := 0x08 } : State).packed = 0x08 ∧
    (block [false] (got [0, 0])).runs 0 0 [full [0x12, 0x08] [0, 0]] = true := by decide

theorem witness_SetDCFilterWrites :
    ({ block [] [] with dcfilter := 0x80 } : State).packed = 0x80 ∧
    (block [false] (got [0, 0])).runs 0 0 [full [0x12, 0x80] [0, 0]] = true := by decide

/-- A setter of each kind answers a next state and sends its byte to MDMCFG2. -/
theorem witness_SettersAreIndependent :
    (block [] []).params.peer = Config.cc1101 ∧
    ([Instr.setModType 0x07, .setSyncMode 0x07, .setManchester true, .setDcFilter true].map (fun i =>
      (observe i (block [false, false] (got [0, 0, 0, 0]))).map (fun o => bytesAfter 0x12 o.1))) =
      [some [0x70], some [0x07], some [0x08], some [0x80]] := by decide

/-- The boundary of the 24-bit word: at a 16 777 216 Hz crystal the largest operand just overflows. -/
theorem witness_SetFrequencyBursts :
    (block [] []).cs = false ∧ freqEncode 16777216 4294967295 = 2 ^ 24 ∧
    freqEncode 16777216 4294967167 = 2 ^ 24 - 1 ∧
    (block [false] (got [0, 0, 0, 0])).runs 0 0 [full [0x4D, 0x10, 0xB0, 0x71] [0, 0, 0, 0]] = true ∧
    [hdr 0x0D 0x40, BitVec.ofNat 8 (0x10B071 / 65536), BitVec.ofNat 8 (0x10B071 / 256), BitVec.ofNat 8 0x10B071] =
      [0x4D, 0x10, 0xB0, 0x71] := by decide

theorem witness_GetFrequencyReads :
    [hdr 0x0D Config.cc1101.readBurstBits, 0x00, 0x00, 0x00] = ([0xCD, 0, 0, 0] : List Byte) ∧
    (block [false] (got [0, 1, 2, 3])).runs 0 0 [full [0xCD, 0, 0, 0] [0, 1, 2, 3]] = true := by decide

theorem witness_EncodeRoundsHalfUp : 0 < 26000000 := by decide

theorem witness_FrequencyRoundTrip : 0 < 26000000 ∧ freqEncode 26000000 6655999801 < 2 ^ 24 := by decide

theorem witness_FrequencyOverflowCorners :
    freqEncode 26000000 6655999802 = 2 ^ 24 ∧ freqEncode 16777217 4294967295 = 2 ^ 24 - 1 := by decide

theorem witness_FrequencyBytesAreBigEndian : 0xFFFFFF < 2 ^ 24 ∧ freqBytes 0xFFFFFF = [0xFF, 0xFF, 0xFF] := by decide

/-- The poll succeeds at its second read; it runs out after its third; the strobe fails. -/
theorem witness_EnterReceivePollsForRx :
    (followPlanThenPoll vectorParams [[0x34]] .isRx [full [0x34] [0]]
      [full [0xF5, 0] [0, 0x08], full [0xF5, 0] [0, 0x2D]] none = true ∧
      (block [false, false, false] (got [0, 0, 0x08, 0, 0x2D])).runs 0 0
        [full [0x34] [0], full [0xF5, 0] [0, 0x08], full [0xF5, 0] [0, 0x2D]] = true) ∧
    (followPlanThenPoll vectorParams [[0x34]] .isRx [full [0x34] [0]]
      [full [0xF5, 0] [0, 1], full [0xF5, 0] [0, 1], full [0xF5, 0] [0, 1]] (some .stateTransitionTimeout) = true ∧
      (block [false, false, false, false] (got [0, 0, 1, 0, 1, 0, 1])).runs 0 0
        [full [0x34] [0], full [0xF5, 0] [0, 1], full [0xF5, 0] [0, 1], full [0xF5, 0] [0, 1]] = true) ∧
    (followPlanThenPoll vectorParams [[0x34]] .isRx [late [0x34]] [] (some .readyTimeout) = true ∧
      (block [true, true, true] []).runs 0 0 [late [0x34]] = true) := by decide

theorem witness_EnterTransmitPollsForTx :
    followPlanThenPoll vectorParams [[0x35]] .isTx [full [0x35] [0]]
      [full [0xF5, 0] [0, 0x14], full [0xF5, 0] [0, 0x13]] none = true ∧
    (block [false, false, false] (got [0, 0, 0x14, 0, 0x13])).runs 0 0
      [full [0x35] [0], full [0xF5, 0] [0, 0x14], full [0xF5, 0] [0, 0x13]] = true := by decide

/-- A payload of the capacity passes, one more byte does not; and the whole sequence of a one-byte packet. -/
theorem witness_SendPacketLoadsAndPolls :
    (block [] []).cs = false ∧ vectorParams.fifoCapacity < (List.replicate 65 (0 : Byte)).length ∧
    (List.replicate 64 (0 : Byte)).length ≤ vectorParams.fifoCapacity ∧
    followPlanThenPoll vectorParams [[0x36], [0x3B], [0x7F, 0x01, 0xAA], [0x35]] .leftTx
      [full [0x36] [0], full [0x3B] [0], full [0x7F, 0x01, 0xAA] [0, 0, 0], full [0x35] [0]]
      [full [0xF5, 0] [0, 0x01]] none = true ∧
    (block [false, false, false, false, false] (got [0, 0, 0, 0, 0, 0, 0, 0x01])).runs 0 0
      [full [0x36] [0], full [0x3B] [0], full [0x7F, 0x01, 0xAA] [0, 0, 0], full [0x35] [0],
        full [0xF5, 0] [0, 0x01]] = true := by decide

/-- One witness for each of the four cases. -/
theorem witness_ReceivePacketReadsOrHeals :
    statusBytes vectorParams vectorParams.peer.statusMarcstate = [0xF5, 0x00] ∧
    statusBytes vectorParams vectorParams.peer.statusRxbytes = [0xFB, 0x00] ∧
    (block [true, true, true] []).runs 0 0 [late [0xF5, 0x00]] = true ∧
    ((full [0xF5, 0x00] [0, 0x11]).state = 0x11 ∧
      followPlan [[0x3A], [0x34]] [full [0x3A] [0], full [0x34] [0]] none = true ∧
      (block [false, false, false] (got [0, 0x11, 0, 0])).runs 0 0
        [full [0xF5, 0x00] [0, 0x11], full [0x3A] [0], full [0x34] [0]] = true) ∧
    ((full [0xF5, 0x00] [0, 0x0D]).state ≠ 0x11 ∧
      (block [false, false] (got [0, 0x0D, 0, 0x80])).runs 0 0
        [full [0xF5, 0x00] [0, 0x0D], full [0xFB, 0x00] [0, 0x80]] = true) ∧
    (block [false, false, false] (got [0, 0x0D, 0, 0x81, 0, 0x55])).runs 0 0
      [full [0xF5, 0x00] [0, 0x0D], full [0xFB, 0x00] [0, 0x81], full [0xFF, 0x00] [0, 0x55]] = true := by decide

theorem witness_SetTxPowerWritesTheTable :
    (block [] []).cs = false ∧ 0xFF < (0x100 : BitVec 16).toNat ∧ (0xFF : BitVec 16).toNat ≤ 0xFF ∧
    followPlan [[0x7E, 0xFF, 0, 0, 0, 0, 0, 0, 0], [0x22, 0x10]]
      [full [0x7E, 0xFF, 0, 0, 0, 0, 0, 0, 0] [0, 0, 0, 0, 0, 0, 0, 0, 0], full [0x22, 0x10] [0, 0]] none = true ∧
    (block [false, false] (List.replicate 11 (some 0))).runs 0 0
      [full [0x7E, 0xFF, 0, 0, 0, 0, 0, 0, 0] [0, 0, 0, 0, 0, 0, 0, 0, 0], full [0x22, 0x10] [0, 0]] = true := by decide

/-- V-RC7: the run in which sendPacket answers OK without any read of TX. -/
theorem witness_SendPacketSucceedsOnlyAfterTx :
    let s := block [false, false, false, false, false] (got [0x0F, 0x0F, 0x0F, 0x0F, 0x0F, 0x0F, 0x01])
    s.idle = true ∧ s.params.wf = true ∧ s.params.peer = Config.cc1101 ∧
    observe (.sendPacket []) s =
      some (fr [(0x36, 0x0F)] ++ fr [(0x3B, 0x0F)] ++ fr [(0x7F, 0x0F), (0x00, 0x0F)] ++ fr [(0x35, 0x0F)] ++
        rd 0xF5 0x01, ok []) := by decide

theorem witness_ChipSelectIsSymmetric :
    (block [] []).cs = false ∧ ∃ t, exec .reset (block [false, false] (got [0x0F])) = .next t := ⟨rfl, _, rfl⟩

/-- An idle block, one with a command waiting, and one in the middle of a frame satisfy the invariant. -/
theorem witness_StepKeepsTheInvariant :
    (block [] []).inv = true ∧ ({ block [] [] with port := some (.command [0x20, 0x03]) } : State).inv = true ∧
    (∃ t, step { block [] [] with port := some (.command [0x20, 0x05]) } = .next t) ∧
    ((ticks 3 (start (.strobe 0x36) (block [false] (got [0x0F])))).map State.inv) = some true :=
  ⟨by decide, by decide, ⟨_, rfl⟩, by decide⟩

theorem witness_FineStepKeepsTheInvariant :
    (start .reset (block [] [])).inv = true ∧ ∃ t, fineStep (start .reset (block [] [])) = .next t :=
  ⟨by decide, _, rfl⟩

theorem witness_SequencerStepIsOneAction :
    (∃ t, tick (start .reset (block [] [])) = .next t) ∧
    (∃ t, tick { (block [] []).accept with seq := doneSeq } = .next t) := ⟨⟨_, rfl⟩, ⟨_, rfl⟩⟩

theorem witness_EveryOperationAnswers : (block [] []).cs = false := rfl

theorem witness_InvalidArgumentBeforeAnyAction :
    (block [] []).idle = true ∧ invalidArgument vectorParams (.setModType 0x02) = true ∧
    invalidArgument vectorParams (.setSyncMode 0x08) = true ∧
    invalidArgument vectorParams (.setTxPower 0x100) = true ∧
    invalidArgument { vectorParams with fXosc := 16777216 } (.setFrequency 4294967295) = true ∧
    invalidArgument vectorParams (.setSyncMode 0x07) = false := by decide

theorem witness_PayloadTooLargeBeforeAnyAction :
    (block [] []).idle = true ∧ vectorParams.fifoCapacity < (List.replicate 65 (0 : Byte)).length := by decide

theorem witness_ShadowsAreWrittenBySettersOnly :
    (∃ t, exec (.setManchester true) (block [] []) = .next t) ∧
    (∀ x, Instr.setManchester true ≠ .setModType x) ∧
    (∀ x, Instr.setManchester true ≠ .setSyncMode x) ∧ (∀ b, Instr.setManchester true ≠ .setDcFilter b) ∧
    (∀ b, Instr.setDcFilter true ≠ .setManchester b) :=
  ⟨⟨_, rfl⟩, nofun, nofun, nofun, nofun⟩

theorem witness_OnlySettersReadTheShadows :
    (∀ x, Instr.getFrequency ≠ .setModType x) ∧ (∀ x, Instr.getFrequency ≠ .setSyncMode x) ∧
    (∀ b, Instr.getFrequency ≠ .setManchester b) ∧ (∀ b, Instr.getFrequency ≠ .setDcFilter b) :=
  ⟨nofun, nofun, nofun, nofun⟩

theorem witness_EveryOperationIsBounded : vectorParams.wf = true := by decide

/-- The peer as a register store agrees with a successful setter of each kind. -/
theorem witness_SettersSynchroniseTheStore :
    SimPeer.start.regs.length = 48 ∧
    ([Instr.setModType 0x03, .setSyncMode 0x02, .setManchester true, .setDcFilter true].map (fun i =>
      (observe i (block [false, false] (got [0x0F, 0x0F, 0x0F, 0x0F]))).bind (fun o =>
        (SimPeer.follow o.1 SimPeer.start).map (fun q => (o.2, q.reg 0x12, q.reg 0x22))))) =
      [some (ok [], 0x30, 0x11), some (ok [], 0x02, 0x10), some (ok [], 0x08, 0x10), some (ok [], 0x80, 0x10)] := by
  decide

/-- The events and responses of two operations, one after the other. -/
def observe2 (i j : Instr) (s : State) : Option (List Event × Option Response × Option Response) :=
  match exec i s with
  | .next t =>
    match exec j t with
    | .next u => some (newEvents s u, t.resp, u.resp)
    | .fault _ => none
    | .refused _ => none
  | .fault _ => none
  | .refused _ => none

/-- W2. -/
theorem witness_FrequencyReadsBackFromTheStore :
    0 < vectorParams.fXosc ∧
    (observe2 (.setFrequency 433920000) .getFrequency
        (block [false, false] (got [0x0F, 0x0F, 0x0F, 0x0F, 0x0F, 0x10, 0xB0, 0x71]))).bind
      (fun o => (SimPeer.follow o.1 SimPeer.start).map (fun _ => o.2)) =
      some (ok [], ok [0x10, 0xB0, 0x71]) := by decide

/-- OOK and a level, in both orders. -/
theorem witness_LastFrend0WriteWins :
    SimPeer.start.power.length = 8 ∧
    (observe2 (.setModType 0x03) (.setTxPower 0xC0)
        (block [false, false, false, false] (List.replicate 15 (some 0x0F)))).bind
      (fun o => (SimPeer.follow o.1 SimPeer.start).map (fun q => (o.2, q.reg 0x22, q.power))) =
      some ((ok [], ok []), 0x10, [0xC0, 0, 0, 0, 0, 0, 0, 0]) ∧
    (observe2 (.setTxPower 0xC0) (.setModType 0x03)
        (block [false, false, false, false] (List.replicate 15 (some 0x0F)))).bind
      (fun o => (SimPeer.follow o.1 SimPeer.start).map (fun q => (o.2, q.reg 0x22, q.power))) =
      some ((ok [], ok []), 0x11, [0xC0, 0, 0, 0, 0, 0, 0, 0]) := by decide

theorem witness_StatePollExitsReadTheMaskedState :
    (full [0xF5, 0x00] [0x0F, 0xED]).got = [0x0F, 0xED] ∧ (0xED : Byte) &&& 0x1F = 0x0D := by decide

end Sys2Proof.Tests
end

