-- ==== Sys2Proof/Proofs/PackedAndReset.lean ====
section
/-! PROOFS. The packed modem byte read bit by bit (R40), and the state after power-on reset (R51, R300). -/

namespace Sys2Proof.Machine

/-! ### The packed byte -/

/-- R40: the four masks share no bit and cover the byte, so each bit of the packed byte is that bit of one shadow. -/
theorem packed_getLsbD (s : State) {i : Nat} (hi : i < 8) :
    s.packed.getLsbD i =
      if i = 7 then s.dcfilter.getLsbD i
      else if 4 ≤ i then s.modtype.getLsbD i
      else if i = 3 then s.manchester.getLsbD i
      else s.syncmode.getLsbD i := by
  simp only [State.packed, BitVec.getLsbD_or, BitVec.getLsbD_and]
  interval_cases i <;> simp

theorem packed_dcfilter_bit (s : State) : s.packed.getLsbD 7 = s.dcfilter.getLsbD 7 := by
  rw [packed_getLsbD s (by decide), if_pos rfl]

theorem packed_modtype_bits (s : State) : s.packed.extractLsb' 4 3 = s.modtype.extractLsb' 4 3 := by
  refine BitVec.eq_of_getLsbD_eq fun i hi => ?_
  have hbit : s.packed.getLsbD (4 + i) = s.modtype.getLsbD (4 + i) := by
    rw [packed_getLsbD s (by omega), if_neg (by omega), if_pos (by omega)]
  simp only [BitVec.getLsbD_extractLsb', hbit]

theorem packed_manchester_bit (s : State) : s.packed.getLsbD 3 = s.manchester.getLsbD 3 := by
  rw [packed_getLsbD s (by decide), if_neg (by decide), if_neg (by decide), if_pos rfl]

theorem packed_syncmode_bits (s : State) : s.packed.extractLsb' 0 3 = s.syncmode.extractLsb' 0 3 := by
  refine BitVec.eq_of_getLsbD_eq fun i hi => ?_
  have hbit : s.packed.getLsbD (0 + i) = s.syncmode.getLsbD (0 + i) := by
    rw [packed_getLsbD s (by omega), if_neg (by omega), if_neg (by omega), if_neg (by omega)]
  simp only [BitVec.getLsbD_extractLsb', hbit]

/-- Settles O22: the formula is the definition of the packed byte, and the fields are the lemmas above. -/
theorem packedByteHasFourFields : Obligations.PackedByteHasFourFields := fun s =>
  ⟨rfl, packed_dcfilter_bit s, packed_modtype_bits s, packed_manchester_bit s, packed_syncmode_bits s⟩

/-! ### Power-on reset -/

/-- R40: with the four shadows zero the packed byte is zero. -/
theorem packed_eq_zero_of_shadows_zero {s : State} (hd : s.dcfilter = 0x00) (hm : s.modtype = 0x00)
    (hn : s.manchester = 0x00) (hy : s.syncmode = 0x00) : s.packed = 0x00 := by
  simp [State.packed, hd, hm, hn, hy]

/-- R32, R51: reading a response that no operation has written faults. -/
theorem readResponse_of_resp_none {s : State} (h : s.resp = none) :
    readResponse s = .error .responseNotWritten := by
  simp [readResponse, h]

/-- Settles O8: every field is read off the reset state; the packed byte and the faulting read follow from the
shadows and the response. -/
theorem powerOnResetState : Obligations.PowerOnResetState :=
  ⟨rfl, rfl, rfl, rfl, rfl, rfl, rfl, packed_eq_zero_of_shadows_zero rfl rfl rfl rfl, rfl,
    readResponse_of_resp_none rfl, rfl⟩

end Sys2Proof.Machine
end

