-- ==== Sys2Proof/Proofs/OperandAssembly.lean ====
section
/-! PROOFS. The multi-byte operands of the command port read as numbers, most significant byte first (R66, R103). -/

namespace Sys2Proof

/-! ### Operand assembly -/

/-- R66: appending bits below a word moves the word up by their count. -/
theorem toNat_append_eq_mul_two_pow_add {m n : Nat} (x : BitVec m) (y : BitVec n) :
    (x ++ y).toNat = x.toNat * 2 ^ n + y.toNat := by
  rw [BitVec.toNat_append, ← Nat.shiftLeft_add_eq_or_of_lt y.isLt, Nat.shiftLeft_eq]

theorem assembleHz_toNat (f3 f2 f1 f0 : Byte) :
    (assembleHz f3 f2 f1 f0).toNat =
      f3.toNat * 2 ^ 24 + f2.toNat * 2 ^ 16 + f1.toNat * 2 ^ 8 + f0.toNat := by
  simp only [assembleHz, toNat_append_eq_mul_two_pow_add]
  omega

theorem assembleLevel_toNat (l1 l0 : Byte) :
    (assembleLevel l1 l0).toNat = l1.toNat * 2 ^ 8 + l0.toNat :=
  toNat_append_eq_mul_two_pow_add l1 l0

/-! ### The two commands with a multi-byte operand (R102) -/

theorem decodeCommand_setFrequency (f3 f2 f1 f0 : Byte) :
    decodeCommand [0x24, f3, f2, f1, f0] = .ok (.setFrequency (assembleHz f3 f2 f1 f0)) := rfl

theorem decodeCommand_setTxPower (l1 l0 : Byte) :
    decodeCommand [0x34, l1, l0] = .ok (.setTxPower (assembleLevel l1 l0)) := rfl

/-- Settles O7: each command decodes to the assembled operand, whose value is the big-endian sum of its bytes. -/
theorem operandsAreBigEndian : Obligations.OperandsAreBigEndian :=
  ⟨fun f3 f2 f1 f0 => ⟨_, decodeCommand_setFrequency f3 f2 f1 f0, assembleHz_toNat f3 f2 f1 f0⟩,
    fun l1 l0 => ⟨_, decodeCommand_setTxPower l1 l0, assembleLevel_toNat l1 l0⟩⟩

end Sys2Proof
end

