-- ==== Sys2Proof/Proofs/IllegalCommands.lean ====
section
/-! PROOFS. Byte strings that are no command: the three causes in their order (R104), and the answer (R277). -/

namespace Sys2Proof

open Sys2Proof.Machine

/-! ### The legal opcodes (R102, R104 (a)) -/

/-- The opcodes of R102 with a boolean operand. -/
def booleanOpcodes : List Byte := [0x22, 0x23]

/-- The opcodes of R102 without one. -/
def plainOpcodes : List Byte :=
  [0x01, 0x02, 0x10, 0x11, 0x12, 0x13, 0x14, 0x20, 0x21, 0x24, 0x25, 0x30, 0x31, 0x32, 0x33, 0x34]

/-- The ranges of R104 (a) are the complement of R102's opcodes. -/
theorem illegalOpcode_eq_false_iff (op : Byte) :
    illegalOpcode op = false ↔ op ∈ booleanOpcodes ∨ op ∈ plainOpcodes := by
  simp only [illegalOpcode, booleanOpcodes, plainOpcodes, List.mem_cons, List.not_mem_nil, or_false,
    ← BitVec.toNat_inj, Bool.or_eq_false_iff, Bool.and_eq_false_iff, decide_eq_false_iff_not, BitVec.ofNat_eq_ofNat,
    BitVec.toNat_ofNat]
  omega

/-- R104 (a). -/
theorem decodeCommand_of_illegalOpcode {op : Byte} (h : illegalOpcode op = true) (args : List Byte) :
    decodeCommand (op :: args) = .error .badOpcode := by
  have hmem : ¬ (op ∈ booleanOpcodes ∨ op ∈ plainOpcodes) := by
    rw [← illegalOpcode_eq_false_iff, h]
    decide
  simp only [booleanOpcodes, plainOpcodes, List.mem_cons, List.not_mem_nil, or_false, not_or] at hmem
  simp only [decodeCommand, decodeOperands, hmem, if_false]

/-! ### The checks of the operands in their order (R104 (b), (c)) -/

/-- What the decoder answers for a legal opcode: the length is checked before the boolean operand, and a command that
passes both is decoded. -/
structure ChecksInOrder (lengthFits : Prop) (badBoolean : Bool) (answer : Except DecodeError Instr) : Prop where
  length : ¬ lengthFits → answer = .error .badLength
  boolean : lengthFits → badBoolean = true → answer = .error .badBoolean
  decodes : lengthFits → badBoolean = false → ∃ i, answer = .ok i

theorem ChecksInOrder.of_decodes {p : Prop} {r : Except DecodeError Instr} {i : Instr} (hp : p) (h : r = .ok i) :
    ChecksInOrder p false r :=
  ⟨fun hn => absurd hp hn, fun _ hb => Bool.noConfusion hb, fun _ _ => ⟨i, h⟩⟩

theorem ChecksInOrder.of_badLength {p : Prop} {b : Bool} {r : Except DecodeError Instr} (hp : ¬ p)
    (h : r = .error .badLength) : ChecksInOrder p b r :=
  ⟨fun _ => h, fun hq _ => absurd hq hp, fun hq _ => absurd hq hp⟩

theorem operands0_checks (i : Instr) (args : List Byte) :
    ChecksInOrder (some 1 = some (args.length + 1)) false (operands0 i args) := by
  match args with
  | [] => exact .of_decodes rfl rfl
  | _ :: _ => exact .of_badLength (by simp) rfl

theorem operands1_checks (f : Byte → Instr) (args : List Byte) :
    ChecksInOrder (some 2 = some (args.length + 1)) false (operands1 (fun x => .ok (f x)) args) := by
  match args with
  | [x] => exact .of_decodes rfl rfl
  | [] | _ :: _ :: _ => exact .of_badLength (by simp) rfl

theorem operands2_checks (f : Byte → Byte → Instr) (args : List Byte) :
    ChecksInOrder (some 3 = some (args.length + 1)) false (operands2 f args) := by
  match args with
  | [x, y] => exact .of_decodes rfl rfl
  | [] | [_] | _ :: _ :: _ :: _ => exact .of_badLength (by simp) rfl

/-- A counted list after a head of `n` bytes, the count byte among them. -/
theorem operandsCounted_checks (f : List Byte → Instr) (n : Nat) (args : List Byte) :
    ChecksInOrder (args[0]?.map (fun k => n + 1 + k.toNat) = some (args.length + n)) false
      (operandsCounted f args) := by
  match args with
  | [] => exact .of_badLength (by simp) rfl
  | k :: bs =>
    by_cases hk : bs.length = k.toNat
    · exact .of_decodes (by simp [hk]; omega) (if_pos hk)
    · exact .of_badLength (by simp; omega) (if_neg hk)

theorem writeBurst_checks (args : List Byte) :
    ChecksInOrder (commandLength (0x13 :: args) = some (args.length + 1)) false (decodeCommand (0x13 :: args)) := by
  match args with
  | [] => exact .of_badLength (by decide) rfl
  | a :: rest => exact operandsCounted_checks (.writeBurst a) 2 rest

theorem setFrequency_checks (args : List Byte) :
    ChecksInOrder (some 5 = some (args.length + 1)) false (decodeCommand (0x24 :: args)) := by
  match args with
  | [f3, f2, f1, f0] => exact .of_decodes rfl rfl
  | [] | [_] | [_, _] | [_, _, _] | _ :: _ :: _ :: _ :: _ :: _ => exact .of_badLength (by simp) rfl

theorem mem_booleanOpcodes_iff (op : Byte) : op ∈ booleanOpcodes ↔ op = 0x22 ∨ op = 0x23 := by
  simp [booleanOpcodes]

theorem illegalBoolean_of_mem {op : Byte} (hop : op ∈ booleanOpcodes) (x : Byte) :
    illegalBoolean [op, x] = (decide (x ≠ 0x00) && decide (x ≠ 0x01)) := by
  rcases (mem_booleanOpcodes_iff op).1 hop with rfl | rfl <;> rfl

/-- R104 (c): a boolean operand is checked once the length is right. -/
theorem operandBool_checks {op : Byte} (hop : op ∈ booleanOpcodes) (f : Bool → Instr) (args : List Byte) :
    ChecksInOrder (some 2 = some (args.length + 1)) (illegalBoolean (op :: args)) (operands1 (operandBool f) args) := by
  match args with
  | [] | _ :: _ :: _ => exact .of_badLength (by simp) rfl
  | [x] =>
    rw [illegalBoolean_of_mem hop]
    by_cases h0 : x = 0x00
    · subst h0; exact .of_decodes rfl rfl
    by_cases h1 : x = 0x01
    · subst h1; exact .of_decodes rfl rfl
    · have hbad : operandBool f x = .error .badBoolean := by rw [operandBool, if_neg h0, if_neg h1]
      have htrue : (decide (x ≠ 0x00) && decide (x ≠ 0x01)) = true := by rw [decide_eq_true h0, decide_eq_true h1]; rfl
      exact ⟨fun hn => absurd rfl hn, fun _ _ => hbad, fun _ hf => Bool.noConfusion (htrue.symm.trans hf)⟩

theorem illegalBoolean_of_not_mem {op : Byte} (hop : op ∉ booleanOpcodes) (args : List Byte) :
    illegalBoolean (op :: args) = false := by
  obtain ⟨h22, h23⟩ := not_or.1 (mt (mem_booleanOpcodes_iff op).2 hop)
  match args with
  | [x] => simp only [illegalBoolean, h22, h23, decide_false, Bool.or_false, Bool.false_and]
  | [] | _ :: _ :: _ => rfl

theorem booleanCommand_checks {op : Byte} (hop : op ∈ booleanOpcodes) (args : List Byte) :
    ChecksInOrder (commandLength (op :: args) = some (op :: args).length) (illegalBoolean (op :: args))
      (decodeCommand (op :: args)) := by
  rcases (mem_booleanOpcodes_iff op).1 hop with rfl | rfl
  · exact operandBool_checks hop .setManchester args
  · exact operandBool_checks hop .setDcFilter args

/-- The rows of R102 without a boolean operand, each by its layout. -/
theorem plainCommand_checks {op : Byte} (hop : op ∈ plainOpcodes) (args : List Byte) :
    ChecksInOrder (commandLength (op :: args) = some (op :: args).length) false (decodeCommand (op :: args)) := by
  simp only [plainOpcodes, List.mem_cons, List.not_mem_nil, or_false] at hop
  rcases hop with rfl | rfl | rfl | rfl | rfl | rfl | rfl | rfl | rfl | rfl | rfl | rfl | rfl | rfl | rfl | rfl
  · exact operandsCounted_checks .transact 1 args
  · exact operands0_checks .reset args
  · exact operands1_checks .readSingle args
  · exact operands2_checks .readBurst args
  · exact operands2_checks .writeSingle args
  · exact writeBurst_checks args
  · exact operands1_checks .strobe args
  · exact operands1_checks .setModType args
  · exact operands1_checks .setSyncMode args
  · exact setFrequency_checks args
  · exact operands0_checks .getFrequency args
  · exact operands0_checks .enterReceive args
  · exact operands0_checks .enterTransmit args
  · exact operandsCounted_checks .sendPacket 1 args
  · exact operands0_checks .receivePacket args
  · exact operands2_checks (fun l1 l0 => .setTxPower (assembleLevel l1 l0)) args

theorem plainOpcode_not_boolean : ∀ op ∈ plainOpcodes, op ∉ booleanOpcodes := by decide

theorem legalCommand_checks {op : Byte} (hop : illegalOpcode op = false) (args : List Byte) :
    ChecksInOrder (commandLength (op :: args) = some (op :: args).length) (illegalBoolean (op :: args))
      (decodeCommand (op :: args)) := by
  rcases (illegalOpcode_eq_false_iff op).1 hop with hbool | hplain
  · exact booleanCommand_checks hbool args
  · rw [illegalBoolean_of_not_mem (plainOpcode_not_boolean op hplain)]
    exact plainCommand_checks hplain args

end Sys2Proof

namespace Sys2Proof.Machine

/-! ### The answer (R104, R277) -/

theorem idle_iff (s : State) : s.idle = true ↔ s.active = false ∧ s.cs = false ∧ s.seq = [] ∧ s.rx = [] := by
  simp [State.idle, and_assoc]

theorem step_of_illegal_command {s : State} {c : List Byte} {e : DecodeError} (ha : s.active = false)
    (hp : s.port = some (.command c)) (hd : decodeCommand c = .error e) :
    step s = .next (rejectCommand s.takePort) := by
  simp [step, ha, hp, hd]

/-- R277: an idle block that rejects a command changes nothing but its response. -/
theorem rejectCommand_of_idle {s : State} (h : s.idle = true) :
    rejectCommand s = { s with resp := some ⟨.illegalCommand, []⟩ } := by
  obtain ⟨ha, -, hs, hr⟩ := (idle_iff s).1 h
  simp [rejectCommand, State.accept, State.respond, ha, hs, hr]

/-- Settles O5: the opcode, then the length, then the boolean operand is checked, and an idle block answers by
`rejectCommand`. -/
theorem illegalCommandsAreAnswered : Obligations.IllegalCommandsAreAnswered := by
  refine ⟨fun op args => ⟨fun h => decodeCommand_of_illegalOpcode h args, fun h => (legalCommand_checks h args).length,
    fun h => (legalCommand_checks h args).boolean, fun h => (legalCommand_checks h args).decodes⟩, ?_⟩
  intro s c e hidle hport hdecode
  have hactive : s.active = false := ((idle_iff s).1 hidle).1
  rw [step_of_illegal_command hactive hport hdecode, rejectCommand_of_idle (s := s.takePort) hidle]
  rfl

end Sys2Proof.Machine
end

