-- ==== Sys2Proof/Proofs/ReturnedData.lean ====
section
/-! PROOFS. What each operation can return (R102), and the response the host reads (R101). -/

namespace Sys2Proof.Machine

/-! ### What an operation can return -/

/-- Whenever `x` ends without an error, its value has the property `P`. -/
def Returns {α : Type} (x : Op α) (P : α → Prop) : Prop := ∀ s a t, x s = .ok a t → P a

theorem returns_pure {α : Type} {P : α → Prop} {a : α} (h : P a) : Returns (pure a : Op α) P := by
  intro s b t hok
  cases hok
  exact h

theorem returns_raise {α : Type} (e : Err) (P : α → Prop) : Returns (raise e : Op α) P := by
  intro s b t hok
  cases hok

/-- In a sequence, the second operation is given a value that the first can return. -/
theorem Returns.bind {α β : Type} {x : Op α} {f : α → Op β} {Q : α → Prop} {P : β → Prop} (hx : Returns x Q)
    (hf : ∀ a, Q a → Returns (f a) P) : Returns (x >>= f) P := by
  intro s b t hok
  cases hs : x s with
  | ok a u =>
    rw [bind_ok hs] at hok
    exact hf a (hx s a u hs) u b t hok
  | error e u =>
    rw [bind_error hs] at hok
    cases hok

/-- A sequence returns what its last operation returns. -/
theorem returns_bind {α β : Type} {x : Op α} {f : α → Op β} {P : β → Prop} (hf : ∀ a, Returns (f a) P) :
    Returns (x >>= f) P :=
  Returns.bind (Q := fun _ => True) (fun _ _ _ _ => trivial) fun a _ => hf a

theorem returns_ite {α : Type} {c : Prop} [Decidable c] {x y : Op α} {P : α → Prop} (hx : Returns x P)
    (hy : Returns y P) : Returns (if c then x else y) P := by
  split
  · exact hx
  · exact hy

/-! ### The frame and the primitives of RegisterAccess (R131, R151 to R155) -/

theorem exchanges_returns (bs : List Byte) : Returns (exchanges bs) (fun rx => rx.length = bs.length) := by
  induction bs with
  | nil => exact returns_pure rfl
  | cons b bs ih =>
    exact returns_bind fun r => ih.bind fun rs hrs => returns_pure (by rw [List.length_cons, hrs, List.length_cons])

theorem frame_returns (bytes : List Byte) : Returns (frame bytes) (fun rx => rx.length = bytes.length) :=
  returns_bind fun _ => returns_bind fun _ => returns_bind fun _ => (exchanges_returns bytes).bind fun _ hrx =>
    returns_bind fun _ => returns_pure hrx

/-- R50: the answer to the header byte is no data. -/
theorem dataPhase_length {rx bytes : List Byte} {h : Byte} (hrx : rx.length = (h :: bytes).length) :
    (dataPhase rx).length = bytes.length := by
  rw [dataPhase, List.length_drop, hrx, List.length_cons, Nat.add_sub_cancel]

theorem readSingle_returns (a : Byte) : Returns (readSingle a) (fun d => d.length = 1) :=
  returns_bind fun _ => (frame_returns _).bind fun _ hrx => returns_pure (dataPhase_length hrx)

theorem readBurst_returns (a : Byte) (n : Nat) : Returns (readBurst a n) (fun d => d.length = n) :=
  returns_bind fun _ => (frame_returns _).bind fun _ hrx =>
    returns_pure ((dataPhase_length hrx).trans List.length_replicate)

theorem writeSingle_returns (a v : Byte) : Returns (writeSingle a v) (· = []) :=
  returns_bind fun _ => returns_pure rfl

theorem writeBurst_returns (a : Byte) (vs : List Byte) : Returns (writeBurst a vs) (· = []) :=
  returns_bind fun _ => returns_bind fun _ => returns_pure rfl

theorem strobe_returns (v : Byte) : Returns (strobe v) (· = []) :=
  returns_bind fun _ => returns_pure rfl

/-! ### The other operations -/

theorem deviceReset_returns : Returns deviceReset (· = []) :=
  returns_bind fun _ => returns_bind fun _ => returns_bind fun _ => returns_bind fun _ => returns_bind fun _ =>
    returns_bind fun _ => returns_bind fun _ => returns_bind fun _ => returns_bind fun _ => returns_bind fun _ =>
      returns_pure rfl

theorem writeModem_returns : Returns writeModem (· = []) :=
  returns_bind fun _ => returns_bind fun _ => writeSingle_returns _ _

theorem setModulationType_returns (x : Byte) : Returns (setModulationType x) (· = []) :=
  returns_ite (returns_bind fun _ => returns_bind fun _ => returns_bind fun _ => writeSingle_returns _ _)
    (returns_raise _ _)

theorem setSyncMode_returns (x : Byte) : Returns (setSyncMode x) (· = []) :=
  returns_ite (returns_bind fun _ => writeModem_returns) (returns_raise _ _)

theorem setManchester_returns (b : Bool) : Returns (setManchester b) (· = []) :=
  returns_bind fun _ => writeModem_returns

theorem setDCFilter_returns (b : Bool) : Returns (setDCFilter b) (· = []) :=
  returns_bind fun _ => writeModem_returns

theorem setFrequency_returns (hz : Nat) : Returns (setFrequency hz) (· = []) :=
  returns_bind fun _ => returns_ite (writeBurst_returns _ _) (returns_raise _ _)

theorem getFrequency_returns : Returns getFrequency (fun d => d.length = 3) :=
  returns_bind fun _ => readBurst_returns _ 3

theorem enterReceive_returns : Returns enterReceive (· = []) :=
  returns_bind fun _ => returns_bind fun _ => returns_bind fun _ => returns_pure rfl

theorem enterTransmit_returns : Returns enterTransmit (· = []) :=
  returns_bind fun _ => returns_bind fun _ => returns_bind fun _ => returns_pure rfl

theorem sendPacket_returns (p : List Byte) : Returns (sendPacket p) (· = []) :=
  returns_bind fun _ => returns_ite (returns_raise _ _)
    (returns_bind fun _ => returns_bind fun _ => returns_bind fun _ => returns_bind fun _ => returns_bind fun _ =>
      returns_pure rfl)

/-- R241: the count is the low seven bits of RXBYTES. -/
theorem rxCount_le (b : Byte) : rxCount b ≤ 127 := by
  rw [rxCount, BitVec.toNat_and]
  exact Nat.and_le_right

theorem receivePacket_returns : Returns receivePacket (fun d => d.length ≤ 127) :=
  returns_bind fun _ => returns_bind fun _ => returns_ite
    (returns_bind fun _ => returns_bind fun _ => returns_pure (Nat.zero_le _))
    (returns_bind fun rxbytes => returns_ite (returns_pure (Nat.zero_le _))
      fun s d t hok => (readBurst_returns _ _ s d t hok).trans_le (rxCount_le rxbytes))

theorem setTxPower_returns (level : Nat) : Returns (setTxPower level) (· = []) :=
  returns_bind fun _ => returns_ite (returns_raise _ _) (returns_bind fun _ => writeSingle_returns _ _)

/-! ### The operation of an instruction and the data it returns (R102) -/

/-- The operation that `exec` runs, with the response it ends in left out. -/
def operation : Instr → Op (List Byte)
  | .transact bs => transact bs
  | .reset => deviceReset
  | .readSingle a => readSingle a
  | .readBurst a k => readBurst a k.toNat
  | .writeSingle a v => writeSingle a v
  | .writeBurst a vs => writeBurst a vs
  | .strobe v => strobe v
  | .setModType x => setModulationType x
  | .setSyncMode x => setSyncMode x
  | .setManchester b => setManchester b
  | .setDcFilter b => setDCFilter b
  | .setFrequency hz => setFrequency hz.toNat
  | .getFrequency => getFrequency
  | .enterReceive => enterReceive
  | .enterTransmit => enterTransmit
  | .sendPacket p => sendPacket p
  | .receivePacket => receivePacket
  | .setTxPower level => setTxPower level.toNat
  | .hdrWriteSingle a v => writeSingle (fieldAddr a) v
  | .hdrWriteBurst a vs => writeBurst (fieldAddr a) vs
  | .hdrReadSingle a => readSingle (fieldAddr a)
  | .hdrReadBurst a k => readBurst (fieldAddr a) k.toNat
  | .hdrStatusRead a => readSingle (statusAddr a)
  | .sres => strobe 0x30
  | .sfstxon => strobe 0x31
  | .sxoff => strobe 0x32
  | .scal => strobe 0x33
  | .srx => strobe 0x34
  | .stx => strobe 0x35
  | .sidle => strobe 0x36
  | .reserved37 => strobe 0x37
  | .swor => strobe 0x38
  | .spwd => strobe 0x39
  | .sfrx => strobe 0x3A
  | .sftx => strobe 0x3B
  | .sworrst => strobe 0x3C
  | .snop => strobe 0x3D

theorem exec_eq_runOp (i : Instr) (s : State) : exec i s = .next (runOp (operation i) s) := by
  cases i <;> rfl

/-- R102, column "data returned": the data an instruction can return. -/
def ReturnedData (i : Instr) (d : List Byte) : Prop :=
  match i with
  | .transact bs => d.length = bs.length
  | .readSingle _ | .hdrReadSingle _ | .hdrStatusRead _ => d.length = 1
  | .readBurst _ k | .hdrReadBurst _ k => d.length = k.toNat
  | .getFrequency => d.length = 3
  | .receivePacket => d.length ≤ 127
  | _ => d = []

theorem operation_returns (i : Instr) : Returns (operation i) (ReturnedData i) := by
  cases i with
  | transact bs => exact frame_returns bs
  | reset => exact deviceReset_returns
  | readSingle a => exact readSingle_returns a
  | readBurst a k => exact readBurst_returns a k.toNat
  | writeSingle a v => exact writeSingle_returns a v
  | writeBurst a vs => exact writeBurst_returns a vs
  | strobe v => exact strobe_returns v
  | setModType x => exact setModulationType_returns x
  | setSyncMode x => exact setSyncMode_returns x
  | setManchester b => exact setManchester_returns b
  | setDcFilter b => exact setDCFilter_returns b
  | setFrequency hz => exact setFrequency_returns hz.toNat
  | getFrequency => exact getFrequency_returns
  | enterReceive => exact enterReceive_returns
  | enterTransmit => exact enterTransmit_returns
  | sendPacket p => exact sendPacket_returns p
  | receivePacket => exact receivePacket_returns
  | setTxPower level => exact setTxPower_returns level.toNat
  | hdrWriteSingle a v => exact writeSingle_returns (fieldAddr a) v
  | hdrWriteBurst a vs => exact writeBurst_returns (fieldAddr a) vs
  | hdrReadSingle a => exact readSingle_returns (fieldAddr a)
  | hdrReadBurst a k => exact readBurst_returns (fieldAddr a) k.toNat
  | hdrStatusRead a => exact readSingle_returns (statusAddr a)
  | _ => exact strobe_returns _

theorem fitsCount_iff (bs : List Byte) : fitsCount bs = true ↔ bs.length ≤ 255 := by
  simp [fitsCount]

/-- R101, R102: the number of data bytes fits the count byte, for a transact because its own count did. -/
theorem ReturnedData.fitsCount {i : Instr} {d : List Byte} (hd : ReturnedData i d) (hw : i.wellFormed = true) :
    fitsCount d = true := by
  rw [fitsCount_iff]
  cases i with
  | transact bs =>
    have hbs : bs.length ≤ 255 := (fitsCount_iff bs).1 hw
    exact (show d.length = bs.length from hd).trans_le hbs
  | readSingle | hdrReadSingle | hdrStatusRead => exact (show d.length = 1 from hd).trans_le (by decide)
  | readBurst _ k | hdrReadBurst _ k => exact (show d.length = k.toNat from hd).trans_le (by omega)
  | getFrequency => exact (show d.length = 3 from hd).trans_le (by decide)
  | receivePacket => exact (show d.length ≤ 127 from hd).trans (by decide)
  | _ => rw [show d = [] from hd]; exact Nat.zero_le _

/-! ### The response (R101, R32) -/

/-- An operation ends with `OK` and data it can return, or with an error and no data (R19, R101). -/
theorem runOp_resp_cases {op : Op (List Byte)} {P : List Byte → Prop} (h : Returns op P) (s : State) :
    ∃ r, (runOp op s).resp = some r ∧ (r.err = .ok ∧ P r.data ∨ r.data = []) := by
  unfold runOp
  cases hs : op s.accept with
  | ok d t => exact ⟨⟨.ok, d⟩, rfl, .inl ⟨rfl, h _ _ _ hs⟩⟩
  | error e t => exact ⟨⟨e, []⟩, rfl, .inr rfl⟩

theorem readResponse_of_resp_some {s : State} {r : Response} (h : s.resp = some r) :
    readResponse s = .ok r.bytes := by
  simp [readResponse, h]

/-- Settles O10: the operation of a well-formed instruction returns at most 255 bytes, and an error none. -/
theorem responseBytesCountTheirData : Obligations.ResponseBytesCountTheirData := by
  refine ⟨fun i s hw => ?_, fun s => readResponse_of_resp_some (r := ⟨.illegalCommand, []⟩) rfl⟩
  obtain ⟨r, hresp, hcases⟩ := runOp_resp_cases (operation_returns i) s
  refine ⟨runOp (operation i) s, r, BitVec.ofNat 8 r.data.length, exec_eq_runOp i s, hresp,
    readResponse_of_resp_some hresp, ?_, ?_⟩
  · rcases hcases with ⟨-, hdata⟩ | hnil
    · exact count_toNat (hdata.fitsCount hw)
    · rw [hnil]; rfl
  · intro herr
    rcases hcases with ⟨hok, -⟩ | hnil
    · exact absurd hok herr
    · rw [hnil]; rfl

end Sys2Proof.Machine
end

