-- ==== Sys2Proof/Proofs/BusFrame.lean ====
section
/-! PROOFS. BusFrame: transact is one frame (R131, R132), and the reset sequence with its error paths (R134, R135). -/

namespace Sys2Proof.Machine

/-! ### transact (R132) -/

theorem transact_runs (s : State) (f : FrameRun) (h : s.runsFrame 0 0 f = true) :
    transact f.sent s = frameThen s f f.got := by
  rw [transact, frame_runs s f h, frameThen]
  cases f.ending.error with
  | none => rfl
  | some e => rfl

/-- Settles O15: the frame runs from the accepted state as it does from the idle one, and transact returns all of its
answers. -/
theorem transactIsOneFrame : Obligations.TransactIsOneFrame := by
  intro s f h
  rw [exec_transact, runOp_frame (transact_runs s.accept f (runsFrame_accept h))]
  rfl

/-! ### The reset sequence (R134) -/

/-- The events of the reset sequence before its first ready-wait. -/
def resetLead : List Event := [.cs false, .delay .rst1, .cs true, .delay .rst2]

/-- The state at the first ready-wait of the reset sequence. -/
def State.resetStart (s : State) : State := (s.withCs true).drawn 0 0 resetLead

/-- The reset sequence from its second ready-wait on. -/
def resetFinish (p : Params) : Op (List Byte) := do
  waitReady p.readyPollLimit
  csSet false
  delay .settle
  pure []

/-- The reset sequence from its first ready-wait on. -/
def resetHandshake (p : Params) : Op (List Byte) := do
  waitReady p.readyPollLimit
  let _ ← exchange p.peer.strobeSres
  resetFinish p

theorem deviceReset_eq_resetHandshake (s : State) : deviceReset s = resetHandshake s.params s.resetStart := by
  simp [deviceReset, resetHandshake, resetFinish, State.resetStart, resetLead, csSet_eq_drawn, wait_eq_drawn]

@[simp] theorem busyAt_resetStart (s : State) (k : Nat) : s.resetStart.busyAt k = s.busyAt k := by
  simp [State.resetStart]

@[simp] theorem xferAt_resetStart (s : State) (k : Nat) : s.resetStart.xferAt k = s.xferAt k := by
  simp [State.resetStart]

/-- R19: an error raised while the reset sequence holds chip-select releases it as its last event. -/
theorem raise_resetStart_drawn {α : Type} (s : State) (nb nx : Nat) (evs : List Event) (e : Err) :
    (raise e : Op α) (s.resetStart.drawn nb nx evs) =
      .error e ((s.withCs false).drawn nb nx (resetLead ++ evs ++ [.cs false])) := by
  rw [raise_held _ e rfl]
  simp [State.resetStart]

section
variable {s : State} {w1 w2 : Nat} {r : Byte}

/-- R135: the first ready-wait runs out. -/
theorem deviceReset_first_wait_timeout (hbusy : ∀ k < s.params.readyPollLimit, s.busyAt k = true) :
    deviceReset s = .error .readyTimeout ((s.withCs false).drawn s.params.readyPollLimit 0
      (resetLead ++ timeoutEvents s.params.readyPollLimit ++ [.cs false])) := by
  have hwait := waitReady_timeout s.params.readyPollLimit s.resetStart (by simpa using hbusy)
  rw [raise_resetStart_drawn] at hwait
  rw [deviceReset_eq_resetHandshake, resetHandshake, bind_error hwait]

/-- Past its first ready-wait the reset sequence exchanges the reset byte. -/
theorem deviceReset_of_first_ready (hw1 : w1 < s.params.readyPollLimit) (hbusy : ∀ k < w1, s.busyAt k = true)
    (hready : s.busyAt w1 = false) :
    deviceReset s = (exchange s.params.peer.strobeSres >>= fun _ => resetFinish s.params)
      (s.resetStart.drawn (w1 + 1) 0 (readyEvents w1)) := by
  rw [deviceReset_eq_resetHandshake, resetHandshake,
    bind_ok (waitReady_ready w1 _ s.resetStart hw1 (by simpa using hbusy) (by simpa using hready))]

/-- R135: the exchange of the reset byte fails. -/
theorem deviceReset_exchange_failed (hw1 : w1 < s.params.readyPollLimit) (hbusy : ∀ k < w1, s.busyAt k = true)
    (hready : s.busyAt w1 = false) (hfail : s.xferAt 0 = none) :
    deviceReset s = .error .transportError ((s.withCs false).drawn (w1 + 1) 1
      (resetLead ++ readyEvents w1 ++ [.xferFail s.params.peer.strobeSres, .cs false])) := by
  have hexchange := exchange_failed s.params.peer.strobeSres (s.resetStart.drawn (w1 + 1) 0 (readyEvents w1))
    (by simpa using hfail)
  rw [drawn_drawn, raise_resetStart_drawn] at hexchange
  rw [deviceReset_of_first_ready hw1 hbusy hready, bind_error hexchange]
  simp

/-- Past the reset byte the reset sequence waits for ready a second time. -/
theorem deviceReset_of_exchanged (hw1 : w1 < s.params.readyPollLimit) (hbusy : ∀ k < w1, s.busyAt k = true)
    (hready : s.busyAt w1 = false) (hgot : s.xferAt 0 = some r) :
    deviceReset s = resetFinish s.params
      (s.resetStart.drawn (w1 + 1) 1 (readyEvents w1 ++ [.xfer s.params.peer.strobeSres r])) := by
  rw [deviceReset_of_first_ready hw1 hbusy hready, bind_ok (exchange_ok _ r _ (by simpa using hgot)), drawn_drawn]

/-- R135: the second ready-wait runs out, after the reset byte. -/
theorem deviceReset_second_wait_timeout (hw1 : w1 < s.params.readyPollLimit) (hbusy : ∀ k < w1, s.busyAt k = true)
    (hready : s.busyAt w1 = false) (hgot : s.xferAt 0 = some r)
    (hbusy2 : ∀ k < s.params.readyPollLimit, s.busyAt (w1 + 1 + k) = true) :
    deviceReset s = .error .readyTimeout ((s.withCs false).drawn (w1 + 1 + s.params.readyPollLimit) 1
      (resetLead ++ readyEvents w1 ++ [.xfer s.params.peer.strobeSres r] ++ timeoutEvents s.params.readyPollLimit ++
        [.cs false])) := by
  have hwait := waitReady_timeout s.params.readyPollLimit
    (s.resetStart.drawn (w1 + 1) 1 (readyEvents w1 ++ [.xfer s.params.peer.strobeSres r])) (by simpa using hbusy2)
  rw [drawn_drawn, raise_resetStart_drawn] at hwait
  rw [deviceReset_of_exchanged hw1 hbusy hready hgot, resetFinish, bind_error hwait]
  simp

/-- R134: the reset sequence succeeds, and only then waits out the settle delay. -/
theorem deviceReset_succeeds (hw1 : w1 < s.params.readyPollLimit) (hbusy : ∀ k < w1, s.busyAt k = true)
    (hready : s.busyAt w1 = false) (hgot : s.xferAt 0 = some r) (hw2 : w2 < s.params.readyPollLimit)
    (hbusy2 : ∀ k < w2, s.busyAt (w1 + 1 + k) = true) (hready2 : s.busyAt (w1 + 1 + w2) = false) :
    deviceReset s = .ok [] ((s.withCs false).drawn (w1 + 1 + (w2 + 1)) 1
      (resetLead ++ readyEvents w1 ++ [.xfer s.params.peer.strobeSres r] ++ readyEvents w2 ++
        [.cs false, .delay .settle])) := by
  rw [deviceReset_of_exchanged hw1 hbusy hready hgot, resetFinish,
    bind_ok (waitReady_ready w2 _ _ hw2 (by simpa using hbusy2) (by simpa using hready2)), csSet_bind, delay_bind,
    pure_run]
  simp [State.resetStart, csSet_eq_drawn, wait_eq_drawn]

end

/-! ### The end of the sequence (R32, R135) -/

/-- The end of an operation without data that released chip-select and drew these answers. -/
theorem runOp_endOf_drawn {op : Op (List Byte)} {s : State} {nb nx : Nat} {evs : List Event} {e : Option Err}
    (h : op s.accept = endOf [] ((s.accept.withCs false).drawn nb nx evs) e) :
    runOp op s = s.endsAfter nb nx evs (ending e) := by
  cases e with
  | none => rw [runOp, h]; rfl
  | some err => rw [runOp, h]; rfl

/-- Settles O16: each case is the run of the sequence from the accepted state, ended by its response. -/
theorem deviceResetSequence : Obligations.DeviceResetSequence := by
  intro s w1 w2 r head sres limit
  refine ⟨fun hbusy => ?_, fun hw1 hbusy hready => ⟨fun hfail => ?_, fun hgot hbusy2 => ?_,
    fun hgot hw2 hbusy2 hready2 => ?_⟩⟩
  · exact congrArg Host.Outcome.next (runOp_endOf_drawn (e := some .readyTimeout)
      (deviceReset_first_wait_timeout (s := s.accept) hbusy))
  · exact congrArg Host.Outcome.next (runOp_endOf_drawn (e := some .transportError)
      (deviceReset_exchange_failed (s := s.accept) hw1 hbusy hready hfail))
  · exact congrArg Host.Outcome.next (runOp_endOf_drawn (e := some .readyTimeout)
      (deviceReset_second_wait_timeout (s := s.accept) hw1 hbusy hready hgot hbusy2))
  · exact congrArg Host.Outcome.next (runOp_endOf_drawn (e := none)
      (deviceReset_succeeds (s := s.accept) hw1 hbusy hready hgot hw2 hbusy2 hready2))

end Sys2Proof.Machine
end

