-- ==== Sys2Proof/Proofs/RegisterAccess.lean ====
section
/-! PROOFS. RegisterAccess: each primitive is one frame; a read returns its data phase (R151, R152), a write or a strobe
returns nothing (R153, R154, R155). The wire rows run the same primitives, so the laws here cover them too. -/

namespace Sys2Proof.Machine

/-! ### Reads (R151, R152) -/

/-- `x` sends this one frame and returns its data phase: the counterpart of `SendsFrame` for a read. -/
def ReadsFrame (x : Op (List Byte)) (p : Params) (bytes : List Byte) : Prop :=
  ∀ (s : State) (f : FrameRun), s.params = p → s.runsFrame 0 0 f = true → f.sent = bytes →
    x s = frameThen s f (f.got.drop 1)

theorem readSingle_reads (p : Params) (a : Byte) :
    ReadsFrame (readSingle a) p [hdr a p.peer.readBit, p.dummyByte] := by
  rintro s f rfl h hs; exact readSingle_runs s f a h hs

theorem readBurst_reads (p : Params) (a : Byte) (n : Nat) :
    ReadsFrame (readBurst a n) p (hdr a p.peer.readBurstBits :: List.replicate n p.dummyByte) := by
  rintro s f rfl h hs; exact readBurst_runs s f a n h hs

/-- An instruction listed as a read frame runs an operation that reads that frame. -/
theorem operation_readsFrame {i : Instr} {p : Params} {bytes : List Byte} (h : readFrameOf p i = some bytes) :
    ReadsFrame (operation i) p bytes := by
  cases i with
  | readSingle a => cases h; exact readSingle_reads p a
  | readBurst a k => cases h; exact readBurst_reads p a k.toNat
  | hdrReadSingle a => cases h; exact readSingle_reads p (fieldAddr a)
  | hdrReadBurst a k => cases h; exact readBurst_reads p (fieldAddr a) k.toNat
  | hdrStatusRead a => cases h; exact readSingle_reads p (statusAddr a)
  | _ => cases h

/-- The accepted state has the peer's answers of `s`, so a read run to its response ends as its frame does. -/
theorem ReadsFrame.runOp_eq {op : Op (List Byte)} {s : State} {f : FrameRun} (hop : ReadsFrame op s.params f.sent)
    (hruns : s.runs 0 0 [f] = true) : runOp op s = s.ends [f] f.events (f.reply 1) :=
  runOp_frame (hop s.accept f rfl (runsFrame_accept hruns) rfl)

theorem exec_of_readFrame {i : Instr} {s : State} {f : FrameRun} (hframe : readFrameOf s.params i = some f.sent)
    (hruns : s.runs 0 0 [f] = true) : exec i s = .next (s.ends [f] f.events (f.reply 1)) := by
  rw [exec_eq_runOp, (operation_readsFrame hframe).runOp_eq hruns]

/-- Settles O17: every instruction with a read frame, on the command port or not, answers with its data phase. -/
theorem readsReturnTheDataPhase : Obligations.ReadsReturnTheDataPhase :=
  fun _ _ _ _ hframe hruns => exec_of_readFrame hframe hruns

/-! ### Writes and strobes (R153, R154, R155) -/

/-- An instruction listed as a write frame runs an operation that sends that frame. -/
theorem operation_sendsFrame {i : Instr} {p : Params} {bytes : List Byte} (h : writeFrameOf p i = some bytes) :
    SendsFrame (operation i) p bytes := by
  cases i with
  | writeSingle a v => cases h; exact writeSingle_sends p a v
  | writeBurst a vs => cases h; exact writeBurst_sends p a vs
  | strobe v => cases h; exact strobe_sends p v
  | hdrWriteSingle a v => cases h; exact writeSingle_sends p (fieldAddr a) v
  | hdrWriteBurst a vs => cases h; exact writeBurst_sends p (fieldAddr a) vs
  | sres | sfstxon | sxoff | scal | srx | stx | sidle | reserved37 | swor | spwd | sfrx | sftx | sworrst | snop =>
    cases h; exact strobe_sends p _
  | _ => cases h

/-- The accepted state has the peer's answers of `s`, so a write run to its response ends as its frame does. -/
theorem SendsFrame.runOp_eq {op : Op (List Byte)} {s : State} {f : FrameRun} (hop : SendsFrame op s.params f.sent)
    (hruns : s.runs 0 0 [f] = true) : runOp op s = s.ends [f] f.events (ending f.ending.error) :=
  runOp_endOf (hop s.accept f rfl (runsFrame_accept hruns) rfl)

theorem exec_of_writeFrame {i : Instr} {s : State} {f : FrameRun} (hframe : writeFrameOf s.params i = some f.sent)
    (hruns : s.runs 0 0 [f] = true) : exec i s = .next (s.ends [f] f.events (ending f.ending.error)) := by
  rw [exec_eq_runOp, (operation_sendsFrame hframe).runOp_eq hruns]

/-- Settles O18: every instruction with a write frame, on the command port or not, answers with its frame's end and no
data. -/
theorem writesAndStrobesSendOneFrame : Obligations.WritesAndStrobesSendOneFrame :=
  fun _ _ _ _ hframe hruns => exec_of_writeFrame hframe hruns

end Sys2Proof.Machine
end

