-- ==== Sys2Proof/Proofs/ConfigModel.lean ====
section
/-! PROOFS. ConfigModel: the four modulation setters write a shadow and then the packed byte (R190 to R198), and the
frequency is one burst of its word (R200 to R204). -/

namespace Sys2Proof.Machine

/-! ### Operations that send a plan of frames -/

/-- `x` sends these frames one after another, up to the first that fails, and returns no data. -/
def SendsPlan (x : Op (List Byte)) (p : Params) (plan : List (List Byte)) : Prop :=
  ∀ (s : State) (fs : List FrameRun) (e : Option Err), s.params = p → followPlan plan fs e = true →
    s.runs 0 0 fs = true → x s = endOf [] (s.after fs (framesEvents fs)) e

theorem framesEvents_cons (f : FrameRun) (fs : List FrameRun) :
    framesEvents (f :: fs) = f.events ++ framesEvents fs := rfl

@[simp] theorem framesEvents_singleton (f : FrameRun) : framesEvents [f] = f.events := by simp [framesEvents]

/-- A plan of one frame is followed by one frame, which gives the plan its end. -/
theorem followPlan_singleton {bytes : List Byte} {fs : List FrameRun} {e : Option Err}
    (h : followPlan [bytes] fs e = true) : ∃ f, fs = [f] ∧ f.sent = bytes ∧ e = f.ending.error := by
  cases fs with
  | nil => simp [followPlan] at h
  | cons f rest =>
    simp only [followPlan, Bool.and_eq_true, decide_eq_true_eq] at h
    obtain ⟨hsent, hrest⟩ := h
    by_cases hc : f.ending = .complete
    · cases rest with
      | nil => exact ⟨f, rfl, hsent, by simpa [hc, followPlan, FrameEnd.error] using hrest⟩
      | cons => simp [hc, followPlan] at hrest
    · simp only [hc, if_false, Bool.and_eq_true, decide_eq_true_eq] at hrest
      obtain ⟨rfl, he⟩ := hrest
      exact ⟨f, rfl, hsent, he⟩

theorem SendsFrame.sendsPlan {x : Op (List Byte)} {p : Params} {bytes : List Byte} (hx : SendsFrame x p bytes) :
    SendsPlan x p [bytes] := by
  intro s fs e hp hplan hruns
  obtain ⟨f, rfl, hsent, rfl⟩ := followPlan_singleton hplan
  rw [hx s f hp (runs_head hruns) hsent, frameThen, framesEvents_singleton]

/-- One frame and then a plan: the plan runs only if the frame completes (R278). -/
theorem SendsFrame.followedBy {x y : Op (List Byte)} {p : Params} {bytes : List Byte} {plan : List (List Byte)}
    (hx : SendsFrame x p bytes) (hy : SendsPlan y p plan) : SendsPlan (x >>= fun _ => y) p (bytes :: plan) := by
  rintro s fs e rfl hplan hruns
  obtain ⟨f, rest, rfl, ⟨_, hrest, hgo, hnext⟩ | ⟨err, rfl, rfl, hstop⟩⟩ :=
    plan_step (gs := []) (fun _ => y) hx hplan (by simpa using hruns)
  · rw [hgo, hy (s.after [f] f.events) rest e rfl hrest (by simpa using hnext), after_after, framesEvents_cons,
      List.singleton_append]
  · rw [hstop, framesEvents_singleton]; rfl

theorem SendsPlan.runOp_eq {op : Op (List Byte)} {s : State} {plan : List (List Byte)} {fs : List FrameRun}
    {e : Option Err} (hop : SendsPlan op s.params plan) (hplan : followPlan plan fs e = true)
    (hruns : s.runs 0 0 fs = true) : runOp op s = s.ends fs (framesEvents fs) (ending e) :=
  runOp_endOf (hop s.accept fs e rfl hplan (by simpa using hruns))

/-! ### The shadow write of a setter (R35, R198) -/

@[simp] theorem runs_setModtype (s : State) (v : Byte) (nb nx : Nat) (fs : List FrameRun) :
    (s.setModtype v).runs nb nx fs = s.runs nb nx fs :=
  runs_congr (s := s) (t := s.setModtype v) rfl (fun _ => rfl) (fun _ => rfl) nb nx fs

@[simp] theorem runs_setSyncmode (s : State) (v : Byte) (nb nx : Nat) (fs : List FrameRun) :
    (s.setSyncmode v).runs nb nx fs = s.runs nb nx fs :=
  runs_congr (s := s) (t := s.setSyncmode v) rfl (fun _ => rfl) (fun _ => rfl) nb nx fs

@[simp] theorem runs_setManchester (s : State) (v : Byte) (nb nx : Nat) (fs : List FrameRun) :
    (s.setManchester v).runs nb nx fs = s.runs nb nx fs :=
  runs_congr (s := s) (t := s.setManchester v) rfl (fun _ => rfl) (fun _ => rfl) nb nx fs

@[simp] theorem runs_setDcfilter (s : State) (v : Byte) (nb nx : Nat) (fs : List FrameRun) :
    (s.setDcfilter v).runs nb nx fs = s.runs nb nx fs :=
  runs_congr (s := s) (t := s.setDcfilter v) rfl (fun _ => rfl) (fun _ => rfl) nb nx fs

/-- An operation that at `s` does what another does at `t` runs to the same end as that one from `t`: how a shadow
write, which records no event, passes into the start state. -/
theorem runOp_congr {x y : Op (List Byte)} {s t : State} (h : x s.accept = y t.accept) : runOp x s = runOp y t := by
  rw [runOp, runOp, h]

theorem writeModem_run (s : State) : writeModem s = writeSingle s.params.peer.regMdmcfg2 s.packed s := rfl

/-- R190: WriteModem is one frame of the packed byte of the state it starts from. -/
theorem runOp_writeModem {s : State} {f : FrameRun} (hsent : f.sent = [s.params.peer.regMdmcfg2, s.packed])
    (hruns : s.runs 0 0 [f] = true) : runOp writeModem s = s.ends [f] f.events (ending f.ending.error) := by
  have hsends := writeSingle_sends s.params s.params.peer.regMdmcfg2 s.packed
  rw [← hsent] at hsends
  rw [← hsends.runOp_eq hruns]
  exact runOp_congr (writeModem_run s.accept)

/-- R198: an instruction that writes a shadow, giving `t`, and then does WriteModem ends as `t` after that frame. -/
theorem exec_of_writeModem {i : Instr} {s t : State} {f : FrameRun}
    (hop : operation i s.accept = writeModem t.accept) (hanswers : t.runs 0 0 [f] = s.runs 0 0 [f])
    (hsent : f.sent = [t.params.peer.regMdmcfg2, t.packed]) (hruns : s.runs 0 0 [f] = true) :
    exec i s = .next (t.ends [f] f.events (ending f.ending.error)) := by
  rw [exec_eq_runOp, runOp_congr hop, runOp_writeModem hsent (hanswers.trans hruns)]

/-! ### setModulationType (R191, R192) -/

theorem supportedModulation_iff (x : Byte) :
    supportedModulation x = true ↔ x ∈ ([0x00, 0x01, 0x03, 0x04, 0x07] : List Byte) := by
  simp [supportedModulation, or_assoc]

/-- The last write of setModulationType, to the front-end register. -/
def writeFrend0 (v : Byte) : Op (List Byte) := do
  writeSingle (← params).peer.regFrend0 v

theorem writeFrend0_sends (p : Params) (v : Byte) : SendsFrame (writeFrend0 v) p [p.peer.regFrend0, v] := by
  rintro s f rfl h hs; exact writeSingle_runs s f _ v h hs

theorem setModulationType_unsupported {x : Byte} (hx : supportedModulation x = false) (s : State) :
    setModulationType x s = raise .invalidArgument s := by
  simp [setModulationType, hx]

theorem setModulationType_supported {x : Byte} (hx : supportedModulation x = true) (s : State) :
    setModulationType x s =
      (writeSingle s.params.peer.regMdmcfg2 (s.setModtype (modulationShadow x)).packed >>=
        fun _ => writeFrend0 (modulationFrend0 x)) (s.setModtype (modulationShadow x)) := by
  simp only [setModulationType, hx, if_true]
  rfl

/-- Settles O23: a supported selector is a plan of two frames run from the state with the new shadow. -/
theorem setModulationTypeWrites : Obligations.SetModulationTypeWrites := by
  intro s x hcs
  refine ⟨fun hx => ?_, fun hx => ?_⟩
  · have hunsupported := Bool.eq_false_iff.2 (mt (supportedModulation_iff x).1 hx)
    rw [exec_setModType, runOp_raise hcs (setModulationType_unsupported hunsupported s.accept)]
  · intro fs e t p hplan hruns
    have hsupported := (supportedModulation_iff x).2 hx
    have hsends : SendsPlan (writeSingle p.regMdmcfg2 t.packed >>= fun _ => writeFrend0 (modulationFrend0 x))
        t.params [[p.regMdmcfg2, t.packed], [p.regFrend0, modulationFrend0 x]] :=
      (writeSingle_sends t.params p.regMdmcfg2 t.packed).followedBy (writeFrend0_sends t.params _).sendsPlan
    have hrunsT : t.runs 0 0 fs = true := (runs_setModtype s (x <<< 4) 0 0 fs).trans hruns
    rw [exec_setModType, ← hsends.runOp_eq hplan hrunsT]
    exact congrArg Host.Outcome.next (runOp_congr (setModulationType_supported hsupported s.accept))

/-! ### setSyncMode, setManchester, setDCFilter (R193, R195, R196) -/

theorem supportedSyncMode_iff (x : Byte) : supportedSyncMode x = true ↔ x.toNat ≤ 0x07 := by
  simp [supportedSyncMode]

theorem setSyncMode_unsupported {x : Byte} (hx : supportedSyncMode x = false) (s : State) :
    setSyncMode x s = raise .invalidArgument s := by
  simp [setSyncMode, hx]

theorem setSyncMode_supported {x : Byte} (hx : supportedSyncMode x = true) (s : State) :
    setSyncMode x s = writeModem (s.setSyncmode x) := by
  simp [setSyncMode, hx]

/-- Settles O24: a selector of the 3-bit field is WriteModem from the state with the new shadow. -/
theorem setSyncModeWrites : Obligations.SetSyncModeWrites := by
  intro s x hcs
  refine ⟨fun hx => ?_, fun hx => ?_⟩
  · have hunsupported := Bool.eq_false_iff.2 (mt (supportedSyncMode_iff x).1 (Nat.not_le.2 hx))
    rw [exec_setSyncMode, runOp_raise hcs (setSyncMode_unsupported hunsupported s.accept)]
  · intro f t hsent hruns
    have hsupported := (supportedSyncMode_iff x).2 hx
    exact exec_of_writeModem (t := t) (setSyncMode_supported hsupported s.accept) (runs_setSyncmode s x 0 0 [f])
      hsent hruns

theorem setManchester_run (b : Bool) (s : State) :
    setManchester b s = writeModem (s.setManchester (manchesterShadow b)) := rfl

/-- Settles O25: setManchester is WriteModem from the state with the new shadow, whatever the old one was. -/
theorem setManchesterWrites : Obligations.SetManchesterWrites := by
  intro s b f t hsent hruns
  exact exec_of_writeModem (t := t) (setManchester_run b s.accept)
    (runs_setManchester s (manchesterShadow b) 0 0 [f]) hsent hruns

theorem setDCFilter_run (b : Bool) (s : State) :
    setDCFilter b s = writeModem (s.setDcfilter (dcfilterShadow b)) := rfl

/-- Settles O26: setDCFilter is WriteModem from the state with the new shadow, whatever the old one was. -/
theorem setDCFilterWrites : Obligations.SetDCFilterWrites := by
  intro s b f t hsent hruns
  exact exec_of_writeModem (t := t) (setDCFilter_run b s.accept)
    (runs_setDcfilter s (dcfilterShadow b) 0 0 [f]) hsent hruns

/-! ### The frequency (R200 to R204) -/

/-- R201 with the shifts as divisions. -/
theorem freqBytes_eq_div (w : Nat) :
    freqBytes w = [BitVec.ofNat 8 (w / 65536), BitVec.ofNat 8 (w / 256), BitVec.ofNat 8 w] := by
  simp [freqBytes, Nat.shiftRight_eq_div_pow]

theorem setFrequency_overflow {s : State} {hz : Nat} (hw : 2 ^ 24 ≤ freqEncode s.params.fXosc hz) :
    setFrequency hz s = raise .invalidArgument s := by
  rw [setFrequency, params_bind, if_neg (Nat.not_lt.2 hw)]

theorem setFrequency_sends {p : Params} {hz : Nat} (hw : freqEncode p.fXosc hz < 2 ^ 24) :
    SendsFrame (setFrequency hz) p (hdr p.peer.regFreq2 p.peer.burstBit :: freqBytes (freqEncode p.fXosc hz)) := by
  rintro s f rfl h hs
  rw [setFrequency, params_bind, if_pos hw]
  exact writeBurst_runs s f _ _ h hs

/-- Settles O28: the word either does not fit and is refused, or is the values of one burst write. -/
theorem setFrequencyBursts : Obligations.SetFrequencyBursts := by
  intro s hz hcs w
  refine ⟨fun hw => ?_, fun hw f hsent hruns => ?_⟩
  · rw [exec_setFrequency, runOp_raise hcs (setFrequency_overflow (s := s.accept) hw)]
  · have hsends := setFrequency_sends (p := s.params) hw
    rw [freqBytes_eq_div, ← hsent] at hsends
    rw [exec_setFrequency, hsends.runOp_eq hruns]

theorem getFrequency_run (s : State) : getFrequency s = readBurst s.params.peer.regFreq2 3 s := by
  rw [getFrequency, params_bind]

theorem getFrequency_reads (p : Params) :
    ReadsFrame getFrequency p (hdr p.peer.regFreq2 p.peer.readBurstBits :: List.replicate 3 p.dummyByte) := by
  rintro s f rfl h hs
  rw [getFrequency_run, readBurst_runs s f s.params.peer.regFreq2 3 h hs]

/-- Settles O29: the data phase of the one burst read is the answer, for any peer. -/
theorem getFrequencyReads : Obligations.GetFrequencyReads := by
  intro s f hsent hruns
  have hreads : ReadsFrame getFrequency s.params f.sent := hsent ▸ getFrequency_reads s.params
  rw [exec_getFrequency, hreads.runOp_eq hruns]

/-- Settles O30: over the denominator `2 * fXosc` the rational is the fraction whose integer quotient `freqEncode`
takes. -/
theorem encodeRoundsHalfUp : Obligations.EncodeRoundsHalfUp := by
  intro fXosc hz hpos
  have hne : (fXosc : Rat) ≠ 0 := Nat.cast_ne_zero.2 hpos.ne'
  have hfraction : ((hz * 65536 : Nat) : Rat) / (fXosc : Nat) + 1 / 2 =
      ((2 * hz * 65536 + fXosc : Nat) : Rat) / (2 * fXosc : Nat) := by
    push_cast
    field_simp
  rw [hfraction, Rat.floor_natCast_div_natCast, freqEncode, Int.natCast_ediv]

end Sys2Proof.Machine
end

