-- ==== Sys2Proof/Proofs/RadioControl.lean ====
section
/-! PROOFS. RadioControl: the mode transitions and sendPacket are a plan of frames and then a state poll (R230 to
R236), receivePacket branches on what its status reads gave (R240 to R242), and setTxPower is a plan of two frames (R245
to R247). -/

namespace Sys2Proof.Machine

/-! ### Operations that send a plan of frames and then poll the state (R230) -/

/-- `x` sends these frames one after another, up to the first that fails, then reads MARCSTATE until the poll ends, and
returns no data. A poll that no frame precedes can time out before its first action (R230 with limit 0), so it must
start with chip-select released; after a frame it always does. -/
def SendsPlanThenPoll (x : Op (List Byte)) (p : Params) (plan : List (List Byte)) (exit : PollExit) : Prop :=
  ∀ (s : State) (fs ps : List FrameRun) (e : Option Err), s.params = p → (plan = [] → s.cs = false) →
    followPlanThenPoll p plan exit fs ps e = true → s.runs 0 0 (fs ++ ps) = true →
    x s = endOf [] (s.after (fs ++ ps) (framesEvents fs ++ pollEvents ps)) e

/-- The end of the operations that wait for a state: the poll, and no data. -/
def awaitState (exit : PollExit) (limit : Nat) : Op (List Byte) := do
  pollState exit limit
  pure []

theorem awaitState_sends (p : Params) (exit : PollExit) :
    SendsPlanThenPoll (awaitState exit p.statePollLimit) p [] exit := by
  rintro s fs ps e rfl hcs hfollow hruns
  obtain ⟨rfl, hpoll⟩ := plan_poll_nil hfollow
  rw [awaitState, endOf_bind _ (pollState_runs exit _ ps e s (hcs rfl) hpoll hruns)]
  cases e <;> rfl

/-- One frame before a plan and its poll: they run only if the frame completes (R278). -/
theorem SendsFrame.beforePoll {x y : Op (List Byte)} {p : Params} {bytes : List Byte} {plan : List (List Byte)}
    {exit : PollExit} (hx : SendsFrame x p bytes) (hy : SendsPlanThenPoll y p plan exit) :
    SendsPlanThenPoll (x >>= fun _ => y) p (bytes :: plan) exit := by
  intro s fs ps e hp _ hfollow hruns
  obtain ⟨f, rest, rfl, ⟨hrest, hgo, hnext⟩ | ⟨err, rfl, rfl, rfl, hstop⟩⟩ :=
    plan_poll_step (fun _ => y) hp hx hfollow hruns
  · rw [hgo, hy (s.after [f] f.events) rest ps e hp (fun _ => rfl) hrest hnext, after_after, framesEvents_cons,
      List.append_assoc, List.singleton_append, List.cons_append]
  · rw [hstop, framesEvents_singleton]
    simp [endOf, pollEvents]

theorem SendsPlanThenPoll.exec_eq {i : Instr} {s : State} {plan : List (List Byte)} {exit : PollExit}
    {fs ps : List FrameRun} {e : Option Err} (hop : SendsPlanThenPoll (operation i) s.params plan exit)
    (hplan : plan ≠ []) (hfollow : followPlanThenPoll s.params plan exit fs ps e = true)
    (hruns : s.runs 0 0 (fs ++ ps) = true) :
    exec i s = .next (s.ends (fs ++ ps) (framesEvents fs ++ pollEvents ps) (ending e)) := by
  rw [exec_eq_runOp, runOp_endOf (hop s.accept fs ps e rfl (fun h => absurd h hplan) hfollow (by simpa using hruns))]

/-! ### enterReceive, enterTransmit (R231, R232) -/

theorem enterReceive_sends (p : Params) : SendsPlanThenPoll enterReceive p [[p.peer.strobeSrx]] .isRx := by
  have hsends := (strobe_sends p p.peer.strobeSrx).beforePoll (awaitState_sends p .isRx)
  rintro s fs ps e rfl
  exact hsends s fs ps e rfl

/-- Settles O34: the strobe is a plan of one frame before the poll for RX. -/
theorem enterReceivePollsForRx : Obligations.EnterReceivePollsForRx :=
  fun s _ _ _ hfollow hruns =>
    SendsPlanThenPoll.exec_eq (i := .enterReceive) (enterReceive_sends s.params) (List.cons_ne_nil _ _) hfollow hruns

theorem enterTransmit_sends (p : Params) : SendsPlanThenPoll enterTransmit p [[p.peer.strobeStx]] .isTx := by
  have hsends := (strobe_sends p p.peer.strobeStx).beforePoll (awaitState_sends p .isTx)
  rintro s fs ps e rfl
  exact hsends s fs ps e rfl

/-- Settles O35: the strobe is a plan of one frame before the poll for TX. -/
theorem enterTransmitPollsForTx : Obligations.EnterTransmitPollsForTx :=
  fun s _ _ _ hfollow hruns =>
    SendsPlanThenPoll.exec_eq (i := .enterTransmit) (enterTransmit_sends s.params) (List.cons_ne_nil _ _) hfollow hruns

/-! ### sendPacket (R233 to R236) -/

theorem sendPacket_tooLarge {s : State} {b : List Byte} (hb : s.params.fifoCapacity < b.length) :
    sendPacket b s = raise .payloadTooLarge s := by
  rw [sendPacket, params_bind, if_pos hb]

theorem sendPacket_sends {p : Params} {b : List Byte} (hb : b.length ≤ p.fifoCapacity) :
    SendsPlanThenPoll (sendPacket b) p
      [[p.peer.strobeSidle], [p.peer.strobeSftx], hdr p.peer.addrFifo p.peer.burstBit :: framedPayload b,
        [p.peer.strobeStx]] .leftTx := by
  have hsends := (strobe_sends p p.peer.strobeSidle).beforePoll <| (strobe_sends p p.peer.strobeSftx).beforePoll <|
    (writeBurst_sends p p.peer.addrFifo (framedPayload b)).beforePoll <|
      (strobe_sends p p.peer.strobeStx).beforePoll (awaitState_sends p .leftTx)
  rintro s fs ps e rfl
  rw [sendPacket, params_bind, if_neg (Nat.not_lt.2 hb)]
  exact hsends s fs ps e rfl

/-- Settles O36: the payload either exceeds the capacity and is refused, or is the third of four frames before the
poll. -/
theorem sendPacketLoadsAndPolls : Obligations.SendPacketLoadsAndPolls := by
  intro s b hcs p
  refine ⟨fun hb => ?_, fun hb fs ps e hfollow hruns => ?_⟩
  · rw [exec_sendPacket, runOp_raise hcs (sendPacket_tooLarge (s := s.accept) hb)]
  · exact SendsPlanThenPoll.exec_eq (i := .sendPacket b) (sendPacket_sends hb) (List.cons_ne_nil _ _) hfollow hruns

theorem leftTx_done_iff (t : PeerTable) (m : RadioState) :
    PollExit.leftTx.done t m = true ↔ m ≠ t.msTx ∧ m ≠ t.msTxEnd := by
  simp [PollExit.done]

/-- Settles O39: the exit excludes the two TX codes of R16, and the 32 masked values are counted. -/
theorem sendPacketPollEndsOutsideTx : Obligations.SendPacketPollEndsOutsideTx :=
  ⟨leftTx_done_iff Config.cc1101, by decide⟩

/-! ### receivePacket (R240 to R242) -/

/-- R242: flush the receive FIFO and enable reception again; the result is empty. -/
def healOverflow (p : Params) : Op (List Byte) := do
  let _ ← strobe p.peer.strobeSfrx
  let _ ← strobe p.peer.strobeSrx
  pure []

/-- R240: what receivePacket does with the RXBYTES it read. -/
def readCounted (p : Params) (rxbytes : Byte) : Op (List Byte) :=
  if rxCount rxbytes = 0 then pure [] else readBurst p.peer.addrFifo (rxCount rxbytes)

/-- R240, R241: the count, then that many bytes of the FIFO. -/
def readFifo (p : Params) : Op (List Byte) :=
  readStatus p.peer.statusRxbytes >>= readCounted p

/-- R240: what receivePacket does with the MARCSTATE it read. -/
def receiveIn (p : Params) (marcstate : Byte) : Op (List Byte) :=
  if radioState marcstate = p.peer.msRxfifoOverflow then healOverflow p else readFifo p

theorem receivePacket_run (s : State) :
    receivePacket s = (readStatus s.params.peer.statusMarcstate >>= receiveIn s.params) s := rfl

theorem receiveIn_overflow {p : Params} {f : FrameRun} (hstate : f.state = p.peer.msRxfifoOverflow) :
    receiveIn p (f.got.getD 1 0) = healOverflow p := if_pos hstate

theorem receiveIn_other {p : Params} {f : FrameRun} (hstate : f.state ≠ p.peer.msRxfifoOverflow) :
    receiveIn p (f.got.getD 1 0) = readFifo p := if_neg hstate

theorem SendsFrame.discard {x : Op (List Byte)} {p : Params} {bytes : List Byte} (hx : SendsFrame x p bytes) :
    SendsFrame (x >>= fun _ => pure []) p bytes := by
  intro s f hp hruns hsent
  rw [endOf_bind _ (hx s f hp hruns hsent), frameThen]
  cases f.ending.error <;> rfl

theorem healOverflow_sends (p : Params) :
    SendsPlan (healOverflow p) p [[p.peer.strobeSfrx], [p.peer.strobeSrx]] :=
  (strobe_sends p p.peer.strobeSfrx).followedBy (strobe_sends p p.peer.strobeSrx).discard.sendsPlan

section
variable {s : State} {f : FrameRun} {addr : Byte} (k : Byte → Op (List Byte))

/-- A status read that fails ends the operation. -/
theorem readStatus_bind_failed (hruns : s.runsFrame 0 0 f = true) (hsent : f.sent = statusBytes s.params addr)
    (hf : f.ending ≠ .complete) : (readStatus addr >>= k) s = endOf [] (s.after [f] f.events) f.ending.error := by
  obtain ⟨err, herr⟩ := FrameEnd.error_of_ne hf
  rw [endOf_bind k (readStatus_runs s f addr hruns hsent), herr]
  rfl

/-- After a status read that completes, the operation goes on with the byte read. -/
theorem readStatus_bind_complete (hruns : s.runsFrame 0 0 f = true) (hsent : f.sent = statusBytes s.params addr)
    (hf : f.ending = .complete) : (readStatus addr >>= k) s = k (f.got.getD 1 0) (s.after [f] f.events) := by
  rw [endOf_bind k (readStatus_runs s f addr hruns hsent), (FrameEnd.error_eq_none _).2 hf, goOn]

end

/-- R241: a failed count read, or a count of zero, ends the read of the FIFO. -/
theorem readFifo_no_bytes {s : State} {g : FrameRun} (hruns : s.runs 0 0 [g] = true)
    (hsent : g.sent = statusBytes s.params s.params.peer.statusRxbytes)
    (hnone : g.ending ≠ .complete ∨ rxCount (g.got.getD 1 0) = 0) :
    readFifo s.params s = endOf [] (s.after [g] g.events) g.ending.error := by
  by_cases hg : g.ending = .complete
  · have hzero := hnone.resolve_left (not_not.2 hg)
    rw [readFifo, readStatus_bind_complete _ (runs_head hruns) hsent hg, readCounted, if_pos hzero,
      (FrameEnd.error_eq_none _).2 hg]
    rfl
  · exact readStatus_bind_failed _ (runs_head hruns) hsent hg

/-- R240: a count that is not zero is the length of one burst read, whose data phase is the result. -/
theorem readFifo_bytes {s : State} {g h : FrameRun} (hruns : s.runs 0 0 [g, h] = true)
    (hgsent : g.sent = statusBytes s.params s.params.peer.statusRxbytes) (hg : g.ending = .complete)
    (hcount : rxCount (g.got.getD 1 0) ≠ 0)
    (hhsent : h.sent = hdr s.params.peer.addrFifo s.params.peer.readBurstBits ::
      List.replicate (rxCount (g.got.getD 1 0)) s.params.dummyByte) :
    readFifo s.params s = endOf (h.got.drop 1) (s.after [g, h] (framesEvents [g, h])) h.ending.error := by
  rw [readFifo, readStatus_bind_complete _ (runs_head hruns) hgsent hg, readCounted, if_neg hcount,
    readBurst_runs _ h _ _ (runs_head (runs_tail hruns g.events)) hhsent, frameThen, after_after, framesEvents_cons,
    framesEvents_singleton, List.singleton_append]

section
variable {s : State} {f : FrameRun} (hsent : f.sent = statusBytes s.params s.params.peer.statusMarcstate)
include hsent

theorem receivePacket_status_failed (hruns : s.runs 0 0 [f] = true) (hf : f.ending ≠ .complete) :
    receivePacket s = endOf [] (s.after [f] f.events) f.ending.error := by
  rw [receivePacket_run, readStatus_bind_failed _ (runs_head hruns) hsent hf]

/-- R242: in the overflow state receivePacket is the self-heal. -/
theorem receivePacket_overflow {fs : List FrameRun} {e : Option Err} (hruns : s.runs 0 0 (f :: fs) = true)
    (hf : f.ending = .complete) (hstate : f.state = s.params.peer.msRxfifoOverflow)
    (hplan : followPlan [[s.params.peer.strobeSfrx], [s.params.peer.strobeSrx]] fs e = true) :
    receivePacket s = endOf [] (s.after (f :: fs) (framesEvents (f :: fs))) e := by
  have hheal := healOverflow_sends s.params (s.after [f] f.events) fs e rfl hplan (runs_tail hruns f.events)
  rw [receivePacket_run, readStatus_bind_complete _ (runs_head hruns) hsent hf, receiveIn_overflow hstate, hheal,
    after_after, framesEvents_cons, List.singleton_append]

/-- R241: in any other state receivePacket is the read of the FIFO. -/
theorem receivePacket_other {gs : List FrameRun} (hruns : s.runs 0 0 (f :: gs) = true) (hf : f.ending = .complete)
    (hstate : f.state ≠ s.params.peer.msRxfifoOverflow) :
    receivePacket s = readFifo s.params (s.after [f] f.events) := by
  rw [receivePacket_run, readStatus_bind_complete _ (runs_head hruns) hsent hf, receiveIn_other hstate]

theorem receivePacket_no_bytes {g : FrameRun} (hruns : s.runs 0 0 [f, g] = true) (hf : f.ending = .complete)
    (hstate : f.state ≠ s.params.peer.msRxfifoOverflow)
    (hgsent : g.sent = statusBytes s.params s.params.peer.statusRxbytes)
    (hnone : g.ending ≠ .complete ∨ rxCount (g.got.getD 1 0) = 0) :
    receivePacket s = endOf [] (s.after [f, g] (framesEvents [f, g])) g.ending.error := by
  have hfifo := readFifo_no_bytes (runs_tail hruns f.events) hgsent hnone
  rw [after_after] at hfifo
  rw [receivePacket_other hsent hruns hf hstate, framesEvents_cons, framesEvents_singleton]
  exact hfifo

theorem receivePacket_bytes {g h : FrameRun} (hruns : s.runs 0 0 [f, g, h] = true) (hf : f.ending = .complete)
    (hstate : f.state ≠ s.params.peer.msRxfifoOverflow)
    (hgsent : g.sent = statusBytes s.params s.params.peer.statusRxbytes) (hg : g.ending = .complete)
    (hcount : rxCount (g.got.getD 1 0) ≠ 0)
    (hhsent : h.sent = hdr s.params.peer.addrFifo s.params.peer.readBurstBits ::
      List.replicate (rxCount (g.got.getD 1 0)) s.params.dummyByte) :
    receivePacket s = endOf (h.got.drop 1) (s.after [f, g, h] (framesEvents [f, g, h])) h.ending.error := by
  have hfifo := readFifo_bytes (runs_tail hruns f.events) hgsent hg hcount hhsent
  rw [after_after] at hfifo
  rw [receivePacket_other hsent hruns hf hstate, framesEvents_cons]
  exact hfifo

end

/-- An operation that ends with the data phase of its last frame. -/
theorem runOp_endOf_dataPhase {op : Op (List Byte)} {s : State} {fs : List FrameRun} {es : List Event} {f : FrameRun}
    (h : op s.accept = endOf (f.got.drop 1) (s.accept.after fs es) f.ending.error) :
    runOp op s = s.ends fs es (f.reply 1) := by
  unfold FrameRun.reply
  cases he : f.ending.error with
  | none => rw [he] at h; exact runOp_ok h
  | some err => rw [he] at h; exact runOp_error h

/-- Settles O37: each case is receivePacket run so from the accepted state, ended by its response. -/
theorem receivePacketReadsOrHeals : Obligations.ReceivePacketReadsOrHeals := by
  intro s f hsent p
  rw [exec_receivePacket]
  refine ⟨fun hf hruns => ?_, fun hf hstate fs e hplan hruns => ?_, fun hf hstate g hgsent =>
    ⟨fun hnone hruns => ?_, fun hg hcount h hhsent hruns => ?_⟩⟩ <;>
    rw [← runs_accept] at hruns
  · rw [runOp_endOf (receivePacket_status_failed (s := s.accept) hsent hruns hf)]
  · rw [runOp_endOf (receivePacket_overflow (s := s.accept) hsent hruns hf hstate hplan)]
  · rw [runOp_endOf (receivePacket_no_bytes (s := s.accept) hsent hruns hf hstate hgsent hnone)]
  · rw [runOp_endOf_dataPhase (receivePacket_bytes (s := s.accept) hsent hruns hf hstate hgsent hg hcount hhsent)]

/-! ### setTxPower (R245 to R247) -/

theorem setTxPower_refused {level : Nat} (hlevel : 0xFF < level) (s : State) :
    setTxPower level s = raise .invalidArgument s := by
  rw [setTxPower, params_bind, if_pos hlevel]

theorem setTxPower_sends {level : Nat} (hlevel : level ≤ 0xFF) (p : Params) :
    SendsPlan (setTxPower level) p
      [hdr p.peer.addrPatable p.peer.burstBit :: powerTable (BitVec.ofNat 8 level),
        [p.peer.regFrend0, Config.frend0Index0]] := by
  have hsends := (writeBurst_sends p p.peer.addrPatable (powerTable (BitVec.ofNat 8 level))).followedBy
    (writeSingle_sends p p.peer.regFrend0 Config.frend0Index0).sendsPlan
  rintro s fs e rfl
  rw [setTxPower, params_bind, if_neg (Nat.not_lt.2 hlevel)]
  exact hsends s fs e rfl

/-- Settles O38: a level of one byte is a plan of two frames, whose table holds the level's low byte and seven zeros. -/
theorem setTxPowerWritesTheTable : Obligations.SetTxPowerWritesTheTable := by
  intro s level hcs p
  refine ⟨fun hlevel => ?_, fun hlevel fs e hplan hruns => ?_⟩
  · rw [exec_setTxPower, runOp_raise hcs (setTxPower_refused hlevel s.accept)]
  · have hsends := setTxPower_sends hlevel s.params
    rw [BitVec.ofNat_toNat] at hsends
    rw [exec_setTxPower, hsends.runOp_eq hplan hruns]

end Sys2Proof.Machine
end

