-- ==== Sys2Proof/Proofs/Exceptions.lean ====
section
/-! PROOFS. Errors: what an error leaves behind (R279), and that an operation refuses its argument before any action and
raises only its actions' errors once the argument is accepted (R272, R273, R278). -/

namespace Sys2Proof.Machine

/-! ### What an error leaves behind (R279) -/

theorem releaseIfHeld_eq (s : State) :
    s.releaseIfHeld = { s with cs := false, trace := s.trace ++ if s.cs then [.cs false] else [] } := by
  obtain ⟨params, cs⟩ := s
  cases cs with
  | true => rfl
  | false => simp [State.releaseIfHeld]

/-- Settles O45: the rest of the operation is never run, and the response is written to the state that `raise` left. -/
theorem errorsReleaseAndAnswer : Obligations.ErrorsReleaseAndAnswer := by
  intro e rest s
  have habandoned : (raise e >>= rest) s.accept = .error e s.accept.releaseIfHeld := bind_error rfl
  rw [runOp, habandoned, releaseIfHeld_eq]
  rfl

/-! ### What an operation can raise -/

/-- Whenever `x` ends with an error, the error has the property `P`. -/
def Raises {α : Type} (x : Op α) (P : Err → Prop) : Prop := ∀ s e t, x s = .error e t → P e

theorem raises_raise {α : Type} {P : Err → Prop} {e : Err} (h : P e) : Raises (raise e : Op α) P := by
  intro s e' t herr
  cases herr
  exact h

/-- An operation that always ends with a value raises nothing: `pure`, the reads of the block's own state, and the
primitive actions other than `Xfer` (R18). -/
theorem raises_total {α : Type} {P : Err → Prop} (value : State → α) (next : State → State) :
    Raises (fun s => .ok (value s) (next s)) P := by
  intro s e t herr
  cases herr

/-- A sequence raises what its two operations raise. -/
theorem Raises.bind {α β : Type} {x : Op α} {f : α → Op β} {P : Err → Prop} (hx : Raises x P)
    (hf : ∀ a, Raises (f a) P) : Raises (x >>= f) P := by
  intro s e t herr
  cases hs : x s with
  | ok a u =>
    rw [bind_ok hs] at herr
    exact hf a u e t herr
  | error e' u =>
    rw [bind_error hs] at herr
    cases herr
    exact hx s e t hs

theorem raises_ite {α : Type} {c : Prop} [Decidable c] {x y : Op α} {P : Err → Prop} (hx : Raises x P)
    (hy : Raises y P) : Raises (if c then x else y) P := by
  split
  · exact hx
  · exact hy

theorem raises_pure {α : Type} {P : Err → Prop} (a : α) : Raises (pure a : Op α) P := raises_total _ _

/-- Reading the parameters raises nothing. -/
theorem raises_params_bind {α : Type} {f : Params → Op α} {P : Err → Prop} (hf : ∀ p, Raises (f p) P) :
    Raises (params >>= f) P := (raises_total _ _).bind hf

/-! ### The errors of the actions (R271, R275, R276) -/

/-- R271, R276: the errors one frame can raise. -/
def FrameError (e : Err) : Prop := e = .readyTimeout ∨ e = .transportError

/-- The errors an operation can raise once its argument is accepted: a frame's, or that of the state poll (R275). -/
def ActionError (e : Err) : Prop := FrameError e ∨ e = .stateTransitionTimeout

theorem waitReady_raises (n : Nat) : Raises (waitReady n) FrameError := by
  induction n with
  | zero => exact raises_raise (.inl rfl)
  | succ n ih =>
    exact (raises_total _ _).bind fun _ =>
      raises_ite (raises_ite ((raises_total _ _).bind fun _ => ih) ih) (raises_pure ())

theorem exchange_raises (b : Byte) : Raises (exchange b) FrameError := by
  intro s e t herr
  cases hs : s.xferAt 0 with
  | some r =>
    rw [exchange_ok b r s hs] at herr
    cases herr
  | none =>
    rw [exchange_failed b s hs] at herr
    exact raises_raise (.inr rfl) _ e t herr

theorem exchanges_raises (bs : List Byte) : Raises (exchanges bs) FrameError := by
  induction bs with
  | nil => exact raises_pure []
  | cons b bs ih => exact (exchange_raises b).bind fun _ => ih.bind fun _ => raises_pure _

theorem frame_raises (bytes : List Byte) : Raises (frame bytes) FrameError :=
  (raises_total _ _).bind fun _ => raises_params_bind fun _ => (waitReady_raises _).bind fun _ =>
    (exchanges_raises bytes).bind fun _ => (raises_total _ _).bind fun _ => raises_pure _

theorem deviceReset_raises : Raises deviceReset FrameError :=
  (raises_total _ _).bind fun _ => (raises_total _ _).bind fun _ => (raises_total _ _).bind fun _ =>
    (raises_total _ _).bind fun _ => raises_params_bind fun _ => (waitReady_raises _).bind fun _ =>
      (exchange_raises _).bind fun _ => (waitReady_raises _).bind fun _ => (raises_total _ _).bind fun _ =>
        (raises_total _ _).bind fun _ => raises_pure _

theorem readSingle_raises (a : Byte) : Raises (readSingle a) FrameError :=
  raises_params_bind fun _ => (frame_raises _).bind fun _ => raises_pure _

theorem readBurst_raises (a : Byte) (n : Nat) : Raises (readBurst a n) FrameError :=
  raises_params_bind fun _ => (frame_raises _).bind fun _ => raises_pure _

theorem writeSingle_raises (a v : Byte) : Raises (writeSingle a v) FrameError :=
  (frame_raises _).bind fun _ => raises_pure _

theorem writeBurst_raises (a : Byte) (vs : List Byte) : Raises (writeBurst a vs) FrameError :=
  raises_params_bind fun _ => (frame_raises _).bind fun _ => raises_pure _

theorem strobe_raises (v : Byte) : Raises (strobe v) FrameError :=
  (frame_raises _).bind fun _ => raises_pure _

theorem writeModem_raises : Raises writeModem FrameError :=
  raises_params_bind fun _ => (raises_total _ _).bind fun _ => writeSingle_raises _ _

theorem setManchester_raises (b : Bool) : Raises (setManchester b) FrameError :=
  (raises_total _ _).bind fun _ => writeModem_raises

theorem setDCFilter_raises (b : Bool) : Raises (setDCFilter b) FrameError :=
  (raises_total _ _).bind fun _ => writeModem_raises

theorem getFrequency_raises : Raises getFrequency FrameError :=
  raises_params_bind fun _ => readBurst_raises _ 3

theorem readStatus_raises (a : Byte) : Raises (readStatus a) FrameError :=
  (readSingle_raises a).bind fun _ => raises_pure _

theorem receivePacket_raises : Raises receivePacket FrameError :=
  raises_params_bind fun _ => (readStatus_raises _).bind fun _ => raises_ite
    ((strobe_raises _).bind fun _ => (strobe_raises _).bind fun _ => raises_pure _)
    ((readStatus_raises _).bind fun _ => raises_ite (raises_pure _) (readBurst_raises _ _))

theorem Raises.action {α : Type} {x : Op α} (h : Raises x FrameError) : Raises x ActionError :=
  fun s e t herr => .inl (h s e t herr)

theorem pollState_raises (exit : PollExit) (n : Nat) : Raises (pollState exit n) ActionError := by
  induction n with
  | zero => exact raises_raise (.inr rfl)
  | succ n ih =>
    exact raises_params_bind fun _ => (readStatus_raises _).action.bind fun _ =>
      raises_ite (raises_pure ()) (raises_ite ((raises_total _ _).bind fun _ => ih) ih)

theorem enterReceive_raises : Raises enterReceive ActionError :=
  raises_params_bind fun _ => (strobe_raises _).action.bind fun _ =>
    (pollState_raises _ _).bind fun _ => raises_pure _

theorem enterTransmit_raises : Raises enterTransmit ActionError :=
  raises_params_bind fun _ => (strobe_raises _).action.bind fun _ =>
    (pollState_raises _ _).bind fun _ => raises_pure _

/-! ### The argument check (R272, R273) -/

/-- R272, R273: `e` is the error that the operation's check of its argument raises. -/
inductive ArgumentError (p : Params) : Instr → Err → Prop
  | invalid {i : Instr} (h : invalidArgument p i = true) : ArgumentError p i .invalidArgument
  | tooLarge {b : List Byte} (h : p.fifoCapacity < b.length) : ArgumentError p (.sendPacket b) .payloadTooLarge

theorem argumentError_invalidArgument_iff (p : Params) (i : Instr) :
    ArgumentError p i .invalidArgument ↔ invalidArgument p i = true := by
  refine ⟨fun h => ?_, .invalid⟩
  cases h
  assumption

theorem argumentError_payloadTooLarge_iff (p : Params) (b : List Byte) :
    ArgumentError p (.sendPacket b) .payloadTooLarge ↔ p.fifoCapacity < b.length := by
  refine ⟨fun h => ?_, .tooLarge⟩
  cases h
  assumption

theorem invalidArgument_setModType_iff (p : Params) (x : Byte) :
    invalidArgument p (.setModType x) = true ↔ supportedModulation x = false := by
  rw [← Bool.not_eq_true, supportedModulation_iff]
  simp [invalidArgument]

theorem invalidArgument_setSyncMode_iff (p : Params) (x : Byte) :
    invalidArgument p (.setSyncMode x) = true ↔ supportedSyncMode x = false := by
  rw [← Bool.not_eq_true, supportedSyncMode_iff]
  simp [invalidArgument]

theorem invalidArgument_setFrequency_iff (p : Params) (hz : BitVec 32) :
    invalidArgument p (.setFrequency hz) = true ↔ 2 ^ 24 ≤ freqEncode p.fXosc hz.toNat := by
  simp [invalidArgument]

theorem invalidArgument_setTxPower_iff (p : Params) (level : BitVec 16) :
    invalidArgument p (.setTxPower level) = true ↔ 0xFF < level.toNat := by
  simp [invalidArgument]

theorem operation_of_invalidArgument {i : Instr} {s : State} (h : invalidArgument s.params i = true) :
    operation i s = raise .invalidArgument s := by
  cases i with
  | setModType x => exact setModulationType_unsupported ((invalidArgument_setModType_iff _ x).1 h) s
  | setSyncMode x => exact setSyncMode_unsupported ((invalidArgument_setSyncMode_iff _ x).1 h) s
  | setFrequency hz => exact setFrequency_overflow ((invalidArgument_setFrequency_iff _ hz).1 h)
  | setTxPower level => exact setTxPower_refused ((invalidArgument_setTxPower_iff _ level).1 h) s
  | _ => cases h

/-- R278: an argument that is not accepted is refused before anything else is done. -/
theorem operation_of_argumentError {i : Instr} {s : State} {e : Err} (h : ArgumentError s.params i e) :
    operation i s = raise e s := by
  cases h with
  | invalid h => exact operation_of_invalidArgument h
  | tooLarge h => exact sendPacket_tooLarge h

/-! ### The operations with an argument check, once it is passed -/

theorem setModulationType_error {x : Byte} {s t : State} {e : Err} (hx : supportedModulation x = true)
    (herr : setModulationType x s = .error e t) : FrameError e := by
  rw [setModulationType_supported hx] at herr
  exact (writeSingle_raises _ _).bind (fun _ => raises_params_bind fun _ => writeSingle_raises _ _) _ e t herr

theorem setSyncMode_error {x : Byte} {s t : State} {e : Err} (hx : supportedSyncMode x = true)
    (herr : setSyncMode x s = .error e t) : FrameError e := by
  rw [setSyncMode_supported hx] at herr
  exact writeModem_raises _ e t herr

theorem setFrequency_error {hz : Nat} {s t : State} {e : Err} (hw : freqEncode s.params.fXosc hz < 2 ^ 24)
    (herr : setFrequency hz s = .error e t) : FrameError e := by
  rw [setFrequency, params_bind, if_pos hw] at herr
  exact writeBurst_raises _ _ _ e t herr

theorem sendPacket_error {b : List Byte} {s t : State} {e : Err} (hb : b.length ≤ s.params.fifoCapacity)
    (herr : sendPacket b s = .error e t) : ActionError e := by
  rw [sendPacket, params_bind, if_neg (Nat.not_lt.2 hb)] at herr
  exact (strobe_raises _).action.bind (fun _ => (strobe_raises _).action.bind fun _ =>
    (writeBurst_raises _ _).action.bind fun _ => (strobe_raises _).action.bind fun _ =>
      (pollState_raises _ _).bind fun _ => raises_pure _) _ e t herr

theorem setTxPower_error {level : Nat} {s t : State} {e : Err} (hlevel : level ≤ 0xFF)
    (herr : setTxPower level s = .error e t) : FrameError e := by
  rw [setTxPower, params_bind, if_neg (Nat.not_lt.2 hlevel)] at herr
  exact (writeBurst_raises _ _).bind (fun _ => writeSingle_raises _ _) _ e t herr

/-- R278: once its argument is accepted, an operation raises only what its actions raise. -/
theorem operation_error_of_accepted {i : Instr} {s t : State} {e : Err}
    (haccepted : ∀ e', ¬ ArgumentError s.params i e') (herr : operation i s = .error e t) : ActionError e := by
  have hvalid : ¬ invalidArgument s.params i = true := fun h => haccepted _ (.invalid h)
  cases i with
  | setModType x =>
    rw [invalidArgument_setModType_iff, Bool.not_eq_false] at hvalid
    exact .inl (setModulationType_error hvalid herr)
  | setSyncMode x =>
    rw [invalidArgument_setSyncMode_iff, Bool.not_eq_false] at hvalid
    exact .inl (setSyncMode_error hvalid herr)
  | setFrequency hz =>
    rw [invalidArgument_setFrequency_iff, Nat.not_le] at hvalid
    exact .inl (setFrequency_error hvalid herr)
  | setTxPower level =>
    rw [invalidArgument_setTxPower_iff, Nat.not_lt] at hvalid
    exact .inl (setTxPower_error hvalid herr)
  | sendPacket b => exact sendPacket_error (Nat.not_lt.1 fun h => haccepted _ (.tooLarge h)) herr
  | enterReceive => exact enterReceive_raises s e t herr
  | enterTransmit => exact enterTransmit_raises s e t herr
  | transact bs => exact .inl (frame_raises bs s e t herr)
  | reset => exact .inl (deviceReset_raises s e t herr)
  | readSingle | hdrReadSingle | hdrStatusRead => exact .inl (readSingle_raises _ s e t herr)
  | readBurst | hdrReadBurst => exact .inl (readBurst_raises _ _ s e t herr)
  | writeSingle | hdrWriteSingle => exact .inl (writeSingle_raises _ _ s e t herr)
  | writeBurst | hdrWriteBurst => exact .inl (writeBurst_raises _ _ s e t herr)
  | setManchester b => exact .inl (setManchester_raises b s e t herr)
  | setDcFilter b => exact .inl (setDCFilter_raises b s e t herr)
  | getFrequency => exact .inl (getFrequency_raises s e t herr)
  | receivePacket => exact .inl (receivePacket_raises s e t herr)
  | _ => exact .inl (strobe_raises _ s e t herr)

/-- R278: an error of an operation is its argument check's or one of its actions'. -/
theorem operation_error_cases {i : Instr} {s t : State} {e : Err} (herr : operation i s = .error e t) :
    ArgumentError s.params i e ∨ ActionError e := by
  by_cases hrefused : ∃ e', ArgumentError s.params i e'
  · obtain ⟨e', he'⟩ := hrefused
    rw [operation_of_argumentError he'] at herr
    cases herr
    exact .inl he'
  · exact .inr (operation_error_of_accepted (not_exists.1 hrefused) herr)

/-! ### The answer to an argument that is not accepted -/

theorem ends_nothing_of_idle {s : State} (h : s.idle = true) (r : Response) :
    s.ends [] [] r = { s with resp := some r } := by
  obtain ⟨hactive, hcs, hseq, hrx⟩ := (idle_iff s).1 h
  simp [State.ends, State.endsAfter, hactive, hcs, hseq, hrx]

/-- R272, R273: a refused argument changes nothing of an idle block but its response. -/
theorem runOp_of_argumentError {i : Instr} {s : State} {e : Err} (hidle : s.idle = true)
    (h : ArgumentError s.params i e) : runOp (operation i) s = { s with resp := some ⟨e, []⟩ } := by
  obtain ⟨-, hcs, -, -⟩ := (idle_iff s).1 hidle
  rw [runOp_raise hcs (operation_of_argumentError (s := s.accept) h), ends_nothing_of_idle hidle]

/-- An operation answers with an error only if it raised it. -/
theorem operation_error_of_resp {i : Instr} {s : State} {e : Err} (hok : e ≠ .ok)
    (hresp : (runOp (operation i) s).resp = some ⟨e, []⟩) : ∃ t, operation i s.accept = .error e t := by
  rw [runOp] at hresp
  cases hs : operation i s.accept with
  | ok d t =>
    rw [hs] at hresp
    cases hresp
    exact absurd rfl hok
  | error e' t =>
    rw [hs] at hresp
    cases hresp
    exact ⟨t, rfl⟩

/-- R272, R273: an error that no action raises is answered exactly when the argument check raises it, and then nothing
but the response changes. -/
theorem argument_error_before_any_action {e : Err} (haction : ¬ ActionError e) (hok : e ≠ .ok) (i : Instr)
    {s : State} (hidle : s.idle = true) :
    ∃ t, exec i s = .next t ∧ (t.resp = some ⟨e, []⟩ ↔ ArgumentError s.params i e) ∧
      (ArgumentError s.params i e → t = { s with resp := some ⟨e, []⟩ }) := by
  refine ⟨runOp (operation i) s, exec_eq_runOp i s, ⟨fun hresp => ?_, fun h => ?_⟩, runOp_of_argumentError hidle⟩
  · obtain ⟨t, herr⟩ := operation_error_of_resp hok hresp
    exact (operation_error_cases herr).resolve_right haction
  · rw [runOp_of_argumentError hidle h]

/-- Settles O48: no action raises InvalidArgument, so it is the argument check's. -/
theorem invalidArgumentBeforeAnyAction : Obligations.InvalidArgumentBeforeAnyAction := by
  intro i s hidle
  have haction : ¬ ActionError .invalidArgument := by simp [ActionError, FrameError]
  simpa only [argumentError_invalidArgument_iff] using argument_error_before_any_action haction nofun i hidle

/-- Settles O49: no action raises PayloadTooLarge, so it is the argument check's. -/
theorem payloadTooLargeBeforeAnyAction : Obligations.PayloadTooLargeBeforeAnyAction := by
  intro b s hidle
  have haction : ¬ ActionError .payloadTooLarge := by simp [ActionError, FrameError]
  simpa only [argumentError_payloadTooLarge_iff] using
    argument_error_before_any_action haction nofun (.sendPacket b) hidle

end Sys2Proof.Machine
end

