-- ==== Sys2Proof/Proofs/CommandRoundTrip.lean ====
section
/-! PROOFS. The command-port encoding in both directions (R100 to R105), and the length of a command (R106). -/

namespace Sys2Proof

open Sys2Proof.Machine

/-! ### From the instruction to its bytes and back (R102, R103) -/

/-- R103: the four bytes of a frequency, assembled, are the frequency. -/
theorem assembleHz_extract (hz : BitVec 32) :
    assembleHz (hz.extractLsb' 24 8) (hz.extractLsb' 16 8) (hz.extractLsb' 8 8) (hz.extractLsb' 0 8) = hz := by
  apply BitVec.eq_of_toNat_eq
  simp only [assembleHz_toNat, BitVec.extractLsb'_toNat, Nat.shiftRight_eq_div_pow]
  omega

/-- R103: the two bytes of a power level, assembled, are the level. -/
theorem assembleLevel_extract (level : BitVec 16) :
    assembleLevel (level.extractLsb' 8 8) (level.extractLsb' 0 8) = level := by
  apply BitVec.eq_of_toNat_eq
  simp only [assembleLevel_toNat, BitVec.extractLsb'_toNat, Nat.shiftRight_eq_div_pow]
  omega

/-- A counted list whose count byte is its own length is accepted. -/
theorem operandsCounted_encoded (f : List Byte → Instr) {bs : List Byte} (h : fitsCount bs = true) :
    operandsCounted f (BitVec.ofNat 8 bs.length :: bs) = .ok (f bs) :=
  if_pos (count_toNat h).symm

theorem decodeCommand_encode {i : Instr} (hw : i.wellFormed = true) (hp : i.onCommandPort = true) :
    decodeCommand (encode i) = .ok i := by
  cases i with
  | transact bs => exact operandsCounted_encoded .transact hw
  | writeBurst a vs => exact operandsCounted_encoded (.writeBurst a) hw
  | sendPacket p => exact operandsCounted_encoded .sendPacket hw
  | setManchester b | setDcFilter b => cases b <;> rfl
  | setFrequency hz => exact (decodeCommand_setFrequency _ _ _ _).trans (by rw [assembleHz_extract])
  | setTxPower level => exact (decodeCommand_setTxPower _ _).trans (by rw [assembleLevel_extract])
  | reset | getFrequency | enterReceive | enterTransmit | receivePacket => rfl
  | readSingle | readBurst | writeSingle | strobe | setModType | setSyncMode => rfl
  | _ => cases hp

/-- Settles O2: each layout decodes to the operands it was composed of. -/
theorem decodeOfEncodedCommand : Obligations.DecodeOfEncodedCommand := fun _ hw hp => decodeCommand_encode hw hp

/-! ### From the bytes to the instruction and back (R104) -/

/-- Whatever this answer decodes to is a well-formed operation of the command port whose encoding is `c`. -/
def EncodesBack (c : List Byte) (answer : Except DecodeError Instr) : Prop :=
  ∀ i, answer = .ok i → encode i = c ∧ i.wellFormed = true ∧ i.onCommandPort = true

theorem encodesBack_error (c : List Byte) (e : DecodeError) : EncodesBack c (.error e) := nofun

theorem encodesBack_ok {c : List Byte} {i : Instr}
    (h : encode i = c ∧ i.wellFormed = true ∧ i.onCommandPort = true) : EncodesBack c (.ok i) := by
  intro j hj
  cases hj
  exact h

theorem operands0_encodesBack {op : Byte} {i : Instr} (args : List Byte)
    (h : encode i = [op] ∧ i.wellFormed = true ∧ i.onCommandPort = true) :
    EncodesBack (op :: args) (operands0 i args) := by
  match args with
  | [] => exact encodesBack_ok h
  | _ :: _ => exact encodesBack_error _ _

theorem operands1_encodesBack {op : Byte} {f : Byte → Except DecodeError Instr} (args : List Byte)
    (h : ∀ x, EncodesBack [op, x] (f x)) : EncodesBack (op :: args) (operands1 f args) := by
  match args with
  | [x] => exact h x
  | [] | _ :: _ :: _ => exact encodesBack_error _ _

theorem operands2_encodesBack {op : Byte} {f : Byte → Byte → Instr} (args : List Byte)
    (h : ∀ x y, encode (f x y) = [op, x, y] ∧ (f x y).wellFormed = true ∧ (f x y).onCommandPort = true) :
    EncodesBack (op :: args) (operands2 f args) := by
  match args with
  | [x, y] => exact encodesBack_ok (h x y)
  | [] | [_] | _ :: _ :: _ :: _ => exact encodesBack_error _ _

/-- A count byte that is the length of the list after it is the count byte of that list's encoding. -/
theorem operandsCounted_encodesBack {head : List Byte} {f : List Byte → Instr} (args : List Byte)
    (h : ∀ bs, fitsCount bs = true →
      encode (f bs) = head ++ BitVec.ofNat 8 bs.length :: bs ∧ (f bs).wellFormed = true ∧
        (f bs).onCommandPort = true) :
    EncodesBack (head ++ args) (operandsCounted f args) := by
  match args with
  | [] => exact encodesBack_error _ _
  | k :: bs =>
    by_cases hk : bs.length = k.toNat
    · have hfits : fitsCount bs = true := (fitsCount_iff bs).2 (by omega)
      have hcount : BitVec.ofNat 8 bs.length = k := by rw [hk, BitVec.ofNat_toNat, BitVec.setWidth_eq]
      have hback := h bs hfits
      rw [hcount] at hback
      rw [operandsCounted, if_pos hk]
      exact encodesBack_ok hback
    · rw [operandsCounted, if_neg hk]
      exact encodesBack_error _ _

/-- R104 (c): only `00` and `01` are booleans. -/
theorem operandBool_encodesBack {op : Byte} {f : Bool → Instr} (x : Byte)
    (h : ∀ b, encode (f b) = [op, if b then 0x01 else 0x00] ∧ (f b).wellFormed = true ∧ (f b).onCommandPort = true) :
    EncodesBack [op, x] (operandBool f x) := by
  by_cases h0 : x = 0x00
  · subst h0; exact encodesBack_ok (h false)
  by_cases h1 : x = 0x01
  · subst h1; exact encodesBack_ok (h true)
  · rw [operandBool, if_neg h0, if_neg h1]
    exact encodesBack_error _ _

theorem writeBurst_encodesBack (args : List Byte) : EncodesBack (0x13 :: args) (decodeCommand (0x13 :: args)) := by
  match args with
  | [] => exact encodesBack_error _ _
  | a :: rest =>
    exact operandsCounted_encodesBack (head := [0x13, a]) rest fun _ hbs => ⟨rfl, hbs, rfl⟩

/-- R103: a number assembled from bytes is sent as those bytes. -/
theorem extract_assembleHz (f3 f2 f1 f0 : Byte) :
    encode (.setFrequency (assembleHz f3 f2 f1 f0)) = [0x24, f3, f2, f1, f0] := by
  simp only [encode, List.cons.injEq, true_and, and_true, ← BitVec.toNat_inj, BitVec.extractLsb'_toNat,
    assembleHz_toNat, Nat.shiftRight_eq_div_pow]
  omega

theorem extract_assembleLevel (l1 l0 : Byte) : encode (.setTxPower (assembleLevel l1 l0)) = [0x34, l1, l0] := by
  simp only [encode, List.cons.injEq, true_and, and_true, ← BitVec.toNat_inj, BitVec.extractLsb'_toNat,
    assembleLevel_toNat, Nat.shiftRight_eq_div_pow]
  omega

theorem setFrequency_encodesBack (args : List Byte) : EncodesBack (0x24 :: args) (decodeCommand (0x24 :: args)) := by
  match args with
  | [f3, f2, f1, f0] => exact encodesBack_ok ⟨extract_assembleHz f3 f2 f1 f0, rfl, rfl⟩
  | [] | [_] | [_, _] | [_, _, _] | _ :: _ :: _ :: _ :: _ :: _ => exact encodesBack_error _ _

/-- The rows of R102 without a boolean operand, each by its layout. -/
theorem plainCommand_encodesBack {op : Byte} (hop : op ∈ plainOpcodes) (args : List Byte) :
    EncodesBack (op :: args) (decodeCommand (op :: args)) := by
  simp only [plainOpcodes, List.mem_cons, List.not_mem_nil, or_false] at hop
  rcases hop with rfl | rfl | rfl | rfl | rfl | rfl | rfl | rfl | rfl | rfl | rfl | rfl | rfl | rfl | rfl | rfl
  · exact operandsCounted_encodesBack (head := [0x01]) args fun _ hbs => ⟨rfl, hbs, rfl⟩
  · exact operands0_encodesBack args ⟨rfl, rfl, rfl⟩
  · exact operands1_encodesBack args fun _ => encodesBack_ok ⟨rfl, rfl, rfl⟩
  · exact operands2_encodesBack args fun _ _ => ⟨rfl, rfl, rfl⟩
  · exact operands2_encodesBack args fun _ _ => ⟨rfl, rfl, rfl⟩
  · exact writeBurst_encodesBack args
  · exact operands1_encodesBack args fun _ => encodesBack_ok ⟨rfl, rfl, rfl⟩
  · exact operands1_encodesBack args fun _ => encodesBack_ok ⟨rfl, rfl, rfl⟩
  · exact operands1_encodesBack args fun _ => encodesBack_ok ⟨rfl, rfl, rfl⟩
  · exact setFrequency_encodesBack args
  · exact operands0_encodesBack args ⟨rfl, rfl, rfl⟩
  · exact operands0_encodesBack args ⟨rfl, rfl, rfl⟩
  · exact operands0_encodesBack args ⟨rfl, rfl, rfl⟩
  · exact operandsCounted_encodesBack (head := [0x32]) args fun _ hbs => ⟨rfl, hbs, rfl⟩
  · exact operands0_encodesBack args ⟨rfl, rfl, rfl⟩
  · exact operands2_encodesBack args fun l1 l0 => ⟨extract_assembleLevel l1 l0, rfl, rfl⟩

theorem booleanCommand_encodesBack {op : Byte} (hop : op ∈ booleanOpcodes) (args : List Byte) :
    EncodesBack (op :: args) (decodeCommand (op :: args)) := by
  rcases (mem_booleanOpcodes_iff op).1 hop with rfl | rfl
  · exact operands1_encodesBack args fun x => operandBool_encodesBack x fun _ => ⟨rfl, rfl, rfl⟩
  · exact operands1_encodesBack args fun x => operandBool_encodesBack x fun _ => ⟨rfl, rfl, rfl⟩

theorem decodeCommand_encodesBack (c : List Byte) : EncodesBack c (decodeCommand c) := by
  cases c with
  | nil => exact encodesBack_error _ _
  | cons op args =>
    cases hop : illegalOpcode op with
    | true =>
      rw [decodeCommand_of_illegalOpcode hop]
      exact encodesBack_error _ _
    | false =>
      rcases (illegalOpcode_eq_false_iff op).1 hop with hbool | hplain
      · exact booleanCommand_encodesBack hbool args
      · exact plainCommand_encodesBack hplain args

/-- Settles O3: each row of R102 by its layout; every other byte string does not decode. -/
theorem decodedCommandIsItsEncoding : Obligations.DecodedCommandIsItsEncoding := decodeCommand_encodesBack

/-! ### The length of a command (R106) -/

/-- A command that decodes passed the length check of R104 (b). -/
theorem commandLength_of_decodes {c : List Byte} {i : Instr} (h : decodeCommand c = .ok i) :
    commandLength c = some c.length := by
  cases c with
  | nil => cases h
  | cons op args =>
    cases hop : illegalOpcode op with
    | true => rw [decodeCommand_of_illegalOpcode hop] at h; cases h
    | false =>
      by_contra hlength
      rw [(legalCommand_checks hop args).length hlength] at h
      cases h

/-- R106: the longest layout is WRITE_BURST's, three bytes and a counted list. -/
theorem encode_length_le {i : Instr} (hw : i.wellFormed = true) (hp : i.onCommandPort = true) :
    (encode i).length ≤ 258 := by
  cases i with
  | transact bs | writeBurst _ bs | sendPacket bs =>
    have hbs : bs.length ≤ 255 := (fitsCount_iff bs).1 hw
    simp only [encode, List.length_cons]
    omega
  | reset | getFrequency | enterReceive | enterTransmit | receivePacket => exact Nat.le_of_ble_eq_true rfl
  | readSingle | strobe | setModType | setSyncMode | setManchester | setDcFilter => exact Nat.le_of_ble_eq_true rfl
  | readBurst | writeSingle | setTxPower | setFrequency => exact Nat.le_of_ble_eq_true rfl
  | _ => cases hp

theorem decodeCommand_longest_writeBurst (a : Byte) {vs : List Byte} (h : vs.length = 255) :
    decodeCommand (0x13 :: a :: 0xFF :: vs) = .ok (.writeBurst a vs) := if_pos h

/-- Settles O6: the length check, the longest layout, and a burst of 255 zero bytes that attains it. -/
theorem commandLengthIsDetermined : Obligations.CommandLengthIsDetermined := by
  refine ⟨fun c i h => ⟨commandLength_of_decodes h, ?_⟩, 0x00, List.replicate 255 0x00, ?_, ?_⟩
  · obtain ⟨rfl, hw, hp⟩ := decodeCommand_encodesBack c i h
    exact encode_length_le hw hp
  · exact decodeCommand_longest_writeBurst _ List.length_replicate
  · rw [List.length_cons, List.length_cons, List.length_cons, List.length_replicate]

/-- Settles O1: twelve words, each evaluated by the decoders. -/
theorem commandWordsDecodeAsLaidOut : Obligations.CommandWordsDecodeAsLaidOut := by
  unfold Obligations.CommandWordsDecodeAsLaidOut
  decide

end Sys2Proof
end

