-- ==== Sys2Proof/Proofs/WireRows.lean ====
section
/-! PROOFS. The wire rows of the opcode table (R91 to R99): their encoding in both directions, and that a row run as an
operation puts its own encoding on the bus (log entry 5). -/

namespace Sys2Proof

open Sys2Proof.Machine

/-! ### The bits of a header (R91) -/

theorem header_bits (c : BitVec 2) (a : RegAddr) :
    (c ++ a).getLsbD 7 = c.getLsbD 1 ∧ (c ++ a).getLsbD 6 = c.getLsbD 0 ∧ (c ++ a).extractLsb' 0 6 = a := by
  refine ⟨?_, ?_, BitVec.extractLsb'_append_eq_right⟩
  · rw [BitVec.getLsbD_append, if_neg (by decide)]
  · rw [BitVec.getLsbD_append, if_neg (by decide)]

/-- A header is put together from its two flag bits and its address field. -/
theorem header_eq_append (h : Byte) (c : BitVec 2) (h7 : h.getLsbD 7 = c.getLsbD 1) (h6 : h.getLsbD 6 = c.getLsbD 0) :
    c ++ (h.extractLsb' 0 6 : RegAddr) = h := by
  refine BitVec.eq_of_getLsbD_eq fun i hi => ?_
  rw [BitVec.getLsbD_append]
  interval_cases i <;> simp_all

/-- A strobe code has the burst bit clear (R95). -/
theorem strobeRow_of_burst : ∀ h : Byte, h.getLsbD 6 = true → strobeRow h = none := by decide

/-- The strobe codes are the encodings of the strobe rows (R160 to R173). -/
theorem strobeRow_encodesBack : ∀ h : Byte, ∀ i ∈ strobeRow h,
    encode i = [h] ∧ i.wellFormed = true ∧ i.onCommandPort = false := by decide

/-- R95: a one-byte frame of a strobe code is that strobe. -/
theorem decodeWire_of_strobe {h : Byte} {i : Instr} (hs : strobeRow h = some i) : decodeWire [h] = .ok i := by
  simp [decodeWire, hs]

theorem decodeWire_of_not_strobe {h : Byte} (hs : strobeRow h = none) : decodeWire [h] = headerRow h [] := by
  simp [decodeWire, hs]

theorem decodeWire_of_burst {h : Byte} (hb : h.getLsbD 6 = true) (data : List Byte) :
    decodeWire (h :: data) = headerRow h data := by
  cases data with
  | nil => exact decodeWire_of_not_strobe (strobeRow_of_burst h hb)
  | cons x data => rfl

/-! ### From the row to its frame and back -/

theorem headerRow_writeBurst (a : RegAddr) {vs : List Byte} (h : fitsCount vs = true) :
    headerRow (0b01#2 ++ a) vs = .ok (.hdrWriteBurst a vs) := by
  obtain ⟨h7, h6, ha⟩ := header_bits 0b01#2 a
  simp only [headerRow, h7, h6, ha, h]
  simp

theorem headerRow_writeSingle (a : RegAddr) (v : Byte) : headerRow (0b00#2 ++ a) [v] = .ok (.hdrWriteSingle a v) := by
  obtain ⟨h7, h6, ha⟩ := header_bits 0b00#2 a
  simp only [headerRow, h7, h6, ha]
  simp

theorem headerRow_readSingle (a : RegAddr) :
    headerRow (0b10#2 ++ a) [Config.dummyByte] = .ok (.hdrReadSingle a) := by
  obtain ⟨h7, h6, ha⟩ := header_bits 0b10#2 a
  simp only [headerRow, h7, h6, ha]
  simp

theorem headerRow_statusRead {a : RegAddr} (h : isStatusField a = true) :
    headerRow (0b11#2 ++ a) [Config.dummyByte] = .ok (.hdrStatusRead a) := by
  obtain ⟨h7, h6, ha⟩ := header_bits 0b11#2 a
  simp only [headerRow, h7, h6, ha, h]
  simp

theorem wellFormed_hdrReadBurst_iff (a : RegAddr) (k : Byte) :
    (Instr.hdrReadBurst a k).wellFormed = true ↔ ¬ (isStatusField a = true ∧ k = 1) := by
  rw [Instr.wellFormed, Bool.not_eq_true', ← Bool.not_eq_true, Bool.and_eq_true, decide_eq_true_iff]

/-- R96: a burst read of one byte from a status field is a status read; every other burst read is read back as one. -/
theorem headerRow_readBurst {a : RegAddr} {k : Byte} (h : ¬ (isStatusField a = true ∧ k = 1)) :
    headerRow (0b11#2 ++ a) (List.replicate k.toNat Config.dummyByte) = .ok (.hdrReadBurst a k) := by
  obtain ⟨h7, h6, ha⟩ := header_bits 0b11#2 a
  have hone : List.replicate k.toNat Config.dummyByte = [Config.dummyByte] → k = 1 := fun heq => by
    have hlen : k.toNat = 1 := by simpa using congrArg List.length heq
    exact BitVec.eq_of_toNat_eq hlen
  have hnot : (isStatusField a && decide (List.replicate k.toNat Config.dummyByte = [Config.dummyByte])) = false := by
    rw [Bool.and_eq_false_iff, decide_eq_false_iff_not, ← Bool.not_eq_true]
    exact not_and_or.1 fun hboth => h ⟨hboth.1, hone hboth.2⟩
  have hfits : fitsCount (List.replicate k.toNat Config.dummyByte) = true :=
    (fitsCount_iff _).2 (by rw [List.length_replicate]; omega)
  simp only [headerRow, h7, h6, ha, hnot, hfits]
  simp

theorem decodeWire_encode {i : Instr} (hw : i.wellFormed = true) (hp : i.onCommandPort = false) :
    decodeWire (encode i) = .ok i := by
  cases i with
  | hdrWriteSingle a v => exact headerRow_writeSingle a v
  | hdrWriteBurst a vs => exact (decodeWire_of_burst (header_bits _ a).2.1 vs).trans (headerRow_writeBurst a hw)
  | hdrReadSingle a => exact headerRow_readSingle a
  | hdrReadBurst a k =>
    exact (decodeWire_of_burst (header_bits _ a).2.1 _).trans
      (headerRow_readBurst ((wellFormed_hdrReadBurst_iff a k).1 hw))
  | hdrStatusRead a => exact headerRow_statusRead hw
  | sres | sfstxon | sxoff | scal | srx | stx | sidle | reserved37 | swor | spwd | sfrx | sftx | sworrst | snop => rfl
  | _ => cases hp

/-! ### From the frame to the row and back -/

/-- Whatever this answer decodes to is a well-formed wire row whose frame is `bs`. -/
def FramesBack (bs : List Byte) (answer : Except DecodeError Instr) : Prop :=
  ∀ i, answer = .ok i → encode i = bs ∧ i.wellFormed = true ∧ i.onCommandPort = false

theorem framesBack_error (bs : List Byte) (e : DecodeError) : FramesBack bs (.error e) := nofun

theorem framesBack_ok {bs : List Byte} {i : Instr}
    (h : encode i = bs ∧ i.wellFormed = true ∧ i.onCommandPort = false) : FramesBack bs (.ok i) := by
  intro j hj
  cases hj
  exact h

/-- An answer given only under a condition. -/
theorem framesBack_ite {bs : List Byte} {c : Prop} [Decidable c] {x y : Except DecodeError Instr}
    (hx : c → FramesBack bs x) (hy : ¬ c → FramesBack bs y) : FramesBack bs (if c then x else y) := by
  split
  · exact hx ‹_›
  · exact hy ‹_›

/-- R98: dummy bytes are told by their number. -/
theorem dummies_encode {a : RegAddr} {data : List Byte} (hfits : fitsCount data = true)
    (hdummy : data = List.replicate data.length Config.dummyByte) :
    encode (.hdrReadBurst a (BitVec.ofNat 8 data.length)) = (0b11#2 ++ a) :: data := by
  rw [encode, count_toNat hfits, ← hdummy]

theorem dummies_wellFormed {a : RegAddr} {data : List Byte}
    (hdummy : data = List.replicate data.length Config.dummyByte) (hfits : fitsCount data = true)
    (hstatus : ¬ (isStatusField a = true ∧ data = [Config.dummyByte])) :
    (Instr.hdrReadBurst a (BitVec.ofNat 8 data.length)).wellFormed = true := by
  refine (wellFormed_hdrReadBurst_iff a _).2 fun ⟨ha, hone⟩ => hstatus ⟨ha, ?_⟩
  have hlen : data.length = 1 := by rw [← count_toNat hfits, hone]; rfl
  rw [hdummy, hlen]
  rfl

theorem headerRow_framesBack (h : Byte) (data : List Byte) : FramesBack (h :: data) (headerRow h data) := by
  unfold headerRow
  refine framesBack_ite (fun h7 => framesBack_ite (fun h6 => ?_) fun h6 => ?_)
    fun h7 => framesBack_ite (fun h6 => ?_) fun h6 => ?_
  · have hheader := header_eq_append h 0b11#2 h7 h6
    refine framesBack_ite (fun hstatus => ?_) fun hstatus => framesBack_ite (fun hburst => ?_) fun _ =>
      framesBack_error _ _
    · obtain ⟨ha, hdata⟩ := Bool.and_eq_true_iff.1 hstatus
      rw [of_decide_eq_true hdata]
      exact framesBack_ok ⟨by rw [encode, hheader], ha, rfl⟩
    · obtain ⟨hfits, hdummy⟩ := Bool.and_eq_true_iff.1 hburst
      have hdummy := of_decide_eq_true hdummy
      refine framesBack_ok ⟨by rw [dummies_encode hfits hdummy, hheader], dummies_wellFormed hdummy hfits ?_, rfl⟩
      simpa using hstatus
  · have hheader := header_eq_append h 0b10#2 h7 (Bool.eq_false_iff.2 h6)
    refine framesBack_ite (fun hdata => ?_) fun _ => framesBack_error _ _
    rw [hdata]
    exact framesBack_ok ⟨by rw [encode, hheader], rfl, rfl⟩
  · have hheader := header_eq_append h 0b01#2 (Bool.eq_false_iff.2 h7) h6
    exact framesBack_ite (fun hfits => framesBack_ok ⟨by rw [encode, hheader], hfits, rfl⟩) fun _ =>
      framesBack_error _ _
  · have hheader := header_eq_append h 0b00#2 (Bool.eq_false_iff.2 h7) (Bool.eq_false_iff.2 h6)
    match data with
    | [v] => exact framesBack_ok ⟨by rw [encode, hheader], rfl, rfl⟩
    | [] | _ :: _ :: _ => exact framesBack_error _ _

theorem decodeWire_framesBack (bs : List Byte) : FramesBack bs (decodeWire bs) := by
  match bs with
  | [] => exact framesBack_error _ _
  | [h] =>
    cases hs : strobeRow h with
    | none => rw [decodeWire_of_not_strobe hs]; exact headerRow_framesBack h []
    | some i => rw [decodeWire_of_strobe hs]; exact framesBack_ok (strobeRow_encodesBack h i hs)
  | h :: x :: data => exact headerRow_framesBack h (x :: data)

/-- Settles O4: each row by its header, in both directions. -/
theorem wireRowsRoundTrip : Obligations.WireRowsRoundTrip :=
  ⟨fun _ hw hp => decodeWire_encode hw hp, decodeWire_framesBack⟩

end Sys2Proof

namespace Sys2Proof.Machine

/-! ### Wire rows run as operations (log entry 5) -/

/-- Settles O19: a wire row is one of the instructions that are one frame. -/
theorem wireRowsRunAsOneFrame : Obligations.WireRowsRunAsOneFrame :=
  fun _ _ _ _ hruns => ⟨fun hread => exec_of_readFrame hread hruns, fun hwrite => exec_of_writeFrame hwrite hruns⟩

/-- R94, R97: with the CC1101's header bits, the header of an address field is its flag bits and the field. -/
theorem hdr_fieldAddr : ∀ a : RegAddr,
    hdr (fieldAddr a) Config.cc1101.readBit = 0b10#2 ++ a ∧
    hdr (fieldAddr a) Config.cc1101.burstBit = 0b01#2 ++ a ∧
    hdr (fieldAddr a) Config.cc1101.readBurstBits = 0b11#2 ++ a ∧
    hdr (statusAddr a) Config.cc1101.readBit = 0b11#2 ++ a := by decide

/-- R92: the frame of a wire row is its encoding; a read row has bit 7 of its header set, any other has it clear. -/
theorem wireRow_frame {i : Instr} {p : Params} (hp : i.onCommandPort = false) (hpeer : p.peer = Config.cc1101)
    (hdummy : p.dummyByte = Config.dummyByte) :
    (readFrameOf p i = some (encode i) ∧ ((encode i).headD 0x00).getLsbD 7 = true) ∨
      (writeFrameOf p i = some (encode i) ∧ ((encode i).headD 0x00).getLsbD 7 = false) := by
  cases i with
  | hdrWriteSingle a v => exact .inr ⟨rfl, (header_bits _ a).1⟩
  | hdrWriteBurst a vs =>
    obtain ⟨-, hburst, -, -⟩ := hdr_fieldAddr a
    exact .inr ⟨by rw [writeFrameOf, hpeer, hburst, encode], (header_bits _ a).1⟩
  | hdrReadSingle a =>
    obtain ⟨hread, -, -, -⟩ := hdr_fieldAddr a
    exact .inl ⟨by rw [readFrameOf, hpeer, hdummy, hread, encode], (header_bits _ a).1⟩
  | hdrReadBurst a k =>
    obtain ⟨-, -, hburst, -⟩ := hdr_fieldAddr a
    exact .inl ⟨by rw [readFrameOf, hpeer, hdummy, hburst, encode], (header_bits _ a).1⟩
  | hdrStatusRead a =>
    obtain ⟨-, -, -, hstatus⟩ := hdr_fieldAddr a
    exact .inl ⟨by rw [readFrameOf, hpeer, hdummy, hstatus, encode], (header_bits _ a).1⟩
  | sres | sfstxon | sxoff | scal | srx | stx | sidle | reserved37 | swor | spwd | sfrx | sftx | sworrst | snop =>
    exact .inr ⟨rfl, rfl⟩
  | _ => cases hp

/-- Settles O20: the frame of a row is its encoding, and bit 7 of its header tells a read row from the others. -/
theorem wireRowsSendTheirEncoding : Obligations.WireRowsSendTheirEncoding := by
  intro i s hp hpeer hdummy
  rcases wireRow_frame hp hpeer hdummy with ⟨hread, hbit⟩ | ⟨hwrite, hbit⟩
  · refine ⟨.inl hread, fun f hsent hruns => ?_⟩
    rw [hbit, if_pos rfl, exec_of_readFrame (hsent ▸ hread) hruns]
  · refine ⟨.inr hwrite, fun f hsent hruns => ?_⟩
    rw [hbit, if_neg Bool.false_ne_true, exec_of_writeFrame (hsent ▸ hwrite) hruns]

/-! ### Headers keep the bits of the address (R94, R96) -/

/-- R96: a status address has the read bit set already. -/
theorem hdr_status_read : ∀ a : Byte, 0xF0 ≤ a.toNat → hdr a Config.cc1101.readBit = a := by decide

theorem hdr_keeps_address_bit {a : Byte} (opbits : Byte) {k : Nat} (h : a.getLsbD k = true) :
    (hdr a opbits).getLsbD k = true := by
  rw [hdr, BitVec.getLsbD_or, h, Bool.true_or]

/-- Settles O21: the read bit of a status address, and that an OR clears nothing. -/
theorem headersKeepTheAddressBits : Obligations.HeadersKeepTheAddressBits :=
  ⟨fun a hlow _ => hdr_status_read a hlow, fun _ opbits _ h => hdr_keeps_address_bit opbits h⟩

end Sys2Proof.Machine
end

