-- ==== Sys2Proof/Proofs/SequencerStep.lean ====
section
/-! PROOFS. What one step of the sequencer can do, said once (R8, R18), and what every step therefore leaves alone. -/

namespace Sys2Proof.Machine

/-! ### The sequencer's own two fields (R31, R131) -/

/-- `s` at this position, with these bytes received in the frame in progress. -/
def State.atSeq (s : State) (k : List Micro) (rx : List Byte) : State := { s with seq := k, rx := rx }

section
variable (s : State) (k : List Micro) (rx : List Byte)

@[simp] theorem atSeq_params : (s.atSeq k rx).params = s.params := rfl
@[simp] theorem atSeq_cs : (s.atSeq k rx).cs = s.cs := rfl
@[simp] theorem atSeq_active : (s.atSeq k rx).active = s.active := rfl
@[simp] theorem atSeq_seq : (s.atSeq k rx).seq = k := rfl
@[simp] theorem atSeq_rx : (s.atSeq k rx).rx = rx := rfl
@[simp] theorem atSeq_dcfilter : (s.atSeq k rx).dcfilter = s.dcfilter := rfl
@[simp] theorem atSeq_modtype : (s.atSeq k rx).modtype = s.modtype := rfl
@[simp] theorem atSeq_manchester : (s.atSeq k rx).manchester = s.manchester := rfl
@[simp] theorem atSeq_syncmode : (s.atSeq k rx).syncmode = s.syncmode := rfl
@[simp] theorem atSeq_resp : (s.atSeq k rx).resp = s.resp := rfl
@[simp] theorem atSeq_port : (s.atSeq k rx).port = s.port := rfl
@[simp] theorem atSeq_trace : (s.atSeq k rx).trace = s.trace := rfl
@[simp] theorem busyAt_atSeq (n : Nat) : (s.atSeq k rx).busyAt n = s.busyAt n := rfl
@[simp] theorem xferAt_atSeq (n : Nat) : (s.atSeq k rx).xferAt n = s.xferAt n := rfl
@[simp] theorem respond_atSeq (r : Response) : (s.atSeq k rx).respond r = s.respond r := rfl

end

/-- What follows a frame is worked out from the parameters and the bytes received (R31). -/
theorem position_congr {s t : State} (a : After) (k : List Micro) (hp : t.params = s.params) (hr : t.rx = s.rx) :
    a.position t k = a.position s k := by
  simp only [After.position, hp, hr]

/-! ### One action at a time (R18) -/

section
variable (s : State) (k : List Micro) (rx : List Byte)

theorem perform_assert (m : List Micro) :
    Micro.perform .assert k (s.atSeq m rx) = (s.csSet true).atSeq k [] := rfl

theorem perform_release (m : List Micro) (a : After) :
    Micro.perform (.release a) k (s.atSeq m rx) =
      (s.csSet false).atSeq (a.position ((s.csSet false).atSeq m rx) k) rx := rfl

theorem perform_delay (m : List Micro) (d : DelayName) :
    Micro.perform (.delay d) k (s.atSeq m rx) = (s.wait d).atSeq k rx := rfl

theorem perform_busyRead_ready (m : List Micro) (left : Nat) (h : s.busyAt 0 = false) :
    Micro.perform (.busyRead left) k (s.atSeq m rx) = s.busyNext.atSeq k rx := by
  rw [Micro.perform, busyAt_atSeq, h]; rfl

theorem perform_busyRead_again (m : List Micro) (left : Nat) (h : s.busyAt 0 = true) :
    Micro.perform (.busyRead (left + 1)) k (s.atSeq m rx) =
      s.busyNext.atSeq (.delay .readyPoll :: .busyRead left :: k) rx := by
  rw [Micro.perform, busyAt_atSeq, h]; rfl

theorem perform_busyRead_timeout (m : List Micro) (h : s.busyAt 0 = true) :
    Micro.perform (.busyRead 0) k (s.atSeq m rx) = s.busyNext.atSeq (raiseSeq s.busyNext .readyTimeout) rx := by
  rw [Micro.perform, busyAt_atSeq, h]; rfl

theorem perform_exchange_ok (m : List Micro) (b r : Byte) (h : s.xferAt 0 = some r) :
    Micro.perform (.exchange b) k (s.atSeq m rx) = (s.xferNext b).atSeq k (rx ++ [r]) := by
  simp only [Micro.perform, xferAt_atSeq, h]; rfl

theorem perform_exchange_failed (m : List Micro) (b : Byte) (h : s.xferAt 0 = none) :
    Micro.perform (.exchange b) k (s.atSeq m rx) =
      (s.xferNext b).atSeq (raiseSeq (s.xferNext b) .transportError) rx := by
  simp only [Micro.perform, xferAt_atSeq, h]; rfl

end

/-- One primitive action of R18, its event, and the state it leads to. -/
inductive Action (s : State) : Event → State → Prop
  | csSet (a : Bool) : Action s (.cs a) (s.csSet a)
  | busyRead : Action s (.busy (s.busyAt 0)) s.busyNext
  | xfer (b : Byte) {r : Byte} (h : s.xferAt 0 = some r) : Action s (.xfer b r) (s.xferNext b)
  | xferFail (b : Byte) (h : s.xferAt 0 = none) : Action s (.xferFail b) (s.xferNext b)
  | delay (d : DelayName) : Action s (.delay d) (s.wait d)

theorem State.atSeq_self (s : State) : s.atSeq s.seq s.rx = s := rfl

/-- An entry of the position is one primitive action, or it is the write of the response (R8). -/
theorem perform_cases (m : Micro) (k : List Micro) (s : State) :
    (∃ e u l rx, Action s e u ∧ m.perform k s = u.atSeq l rx) ∨ ∃ r, m = .respond r ∧ m.perform k s = s.respond r := by
  rw [← s.atSeq_self]
  cases m with
  | assert => exact .inl ⟨_, _, _, _, .csSet true, perform_assert s k s.rx s.seq⟩
  | release a => exact .inl ⟨_, _, _, _, .csSet false, perform_release s k s.rx s.seq a⟩
  | delay d => exact .inl ⟨_, _, _, _, .delay d, perform_delay s k s.rx s.seq d⟩
  | respond r => exact .inr ⟨r, rfl, rfl⟩
  | busyRead left =>
    cases h : s.busyAt 0 with
    | false => exact .inl ⟨_, _, _, _, .busyRead, perform_busyRead_ready s k s.rx s.seq left h⟩
    | true =>
      cases left with
      | zero => exact .inl ⟨_, _, _, _, .busyRead, perform_busyRead_timeout s k s.rx s.seq h⟩
      | succ n => exact .inl ⟨_, _, _, _, .busyRead, perform_busyRead_again s k s.rx s.seq n h⟩
  | exchange b =>
    cases h : s.xferAt 0 with
    | none => exact .inl ⟨_, _, _, _, .xferFail b h, perform_exchange_failed s k s.rx s.seq b h⟩
    | some r => exact .inl ⟨_, _, _, _, .xfer b h, perform_exchange_ok s k s.rx s.seq b r h⟩

theorem tick_of_seq {s : State} {m : Micro} {k : List Micro} (h : s.seq = m :: k) : tick s = .next (m.perform k s) := by
  rw [tick, h]

/-- A step of the sequencer performs the action at its position. -/
theorem tick_eq_next {s t : State} (h : tick s = .next t) : ∃ m k, s.seq = m :: k ∧ t = m.perform k s := by
  cases hs : s.seq with
  | nil => rw [tick, hs] at h; cases h
  | cons m k =>
    rw [tick_of_seq hs] at h
    cases h
    exact ⟨m, k, rfl, rfl⟩

/-- What a step of the sequencer can do. -/
theorem tick_cases {s t : State} (h : tick s = .next t) :
    (∃ e u l rx, Action s e u ∧ t = u.atSeq l rx) ∨ ∃ r, s.seq.head? = some (.respond r) ∧ t = s.respond r := by
  obtain ⟨m, k, hs, rfl⟩ := tick_eq_next h
  exact (perform_cases m k s).imp_right fun ⟨r, hm, hr⟩ => ⟨r, by rw [hs, hm]; rfl, hr⟩

/-! ### What a step leaves alone, and what it does (R7, R18, R35) -/

/-- The fields that no step of an operation writes once it is accepted. -/
structure SameFixed (s t : State) : Prop where
  params : t.params = s.params
  port : t.port = s.port
  dcfilter : t.dcfilter = s.dcfilter
  modtype : t.modtype = s.modtype
  manchester : t.manchester = s.manchester
  syncmode : t.syncmode = s.syncmode

theorem SameFixed.refl (s : State) : SameFixed s s := ⟨rfl, rfl, rfl, rfl, rfl, rfl⟩

theorem SameFixed.trans {s t u : State} (h : SameFixed s t) (g : SameFixed t u) : SameFixed s u :=
  ⟨g.params.trans h.params, g.port.trans h.port, g.dcfilter.trans h.dcfilter, g.modtype.trans h.modtype,
    g.manchester.trans h.manchester, g.syncmode.trans h.syncmode⟩

theorem Action.sameFixed {s u : State} {e : Event} (h : Action s e u) : SameFixed s u := by
  cases h <;> exact ⟨rfl, rfl, rfl, rfl, rfl, rfl⟩

theorem tick_sameFixed {s t : State} (h : tick s = .next t) : SameFixed s t := by
  rcases tick_cases h with ⟨e, u, l, rx, hact, rfl⟩ | ⟨r, -, rfl⟩
  · obtain ⟨h1, h2, h3, h4, h5, h6⟩ := hact.sameFixed
    exact ⟨h1, h2, h3, h4, h5, h6⟩
  · exact ⟨rfl, rfl, rfl, rfl, rfl, rfl⟩

theorem Action.trace {s u : State} {e : Event} (h : Action s e u) : u.trace = s.trace ++ [e] := by
  cases h with
  | csSet | busyRead | delay => rfl
  | xfer b h | xferFail b h => rw [xferNext_trace, h]; rfl

theorem Action.resp_active {s u : State} {e : Event} (h : Action s e u) : u.resp = s.resp ∧ u.active = s.active := by
  cases h <;> exact ⟨rfl, rfl⟩

@[simp] theorem busyAt_busyNext (s : State) (k : Nat) : s.busyNext.busyAt k = s.busyAt (k + 1) := by
  rw [busyNext_eq_drawn, busyAt_drawn, Nat.add_comm]

@[simp] theorem xferAt_busyNext (s : State) (k : Nat) : s.busyNext.xferAt k = s.xferAt k := rfl

@[simp] theorem xferAt_xferNext (s : State) (b : Byte) (k : Nat) : (s.xferNext b).xferAt k = s.xferAt (k + 1) := by
  rw [xferNext_eq_drawn, xferAt_drawn, Nat.add_comm]

@[simp] theorem busyAt_xferNext (s : State) (b : Byte) (k : Nat) : (s.xferNext b).busyAt k = s.busyAt k := rfl

/-- Settles O44: the five primitive actions, each with its effect, or the write of the response. -/
theorem sequencerStepIsOneAction : Obligations.SequencerStepIsOneAction := by
  intro s t h
  obtain ⟨hparams, hport, hdc, hmt, hma, hsy⟩ := tick_sameFixed h
  refine ⟨hparams, hport, hdc, hmt, hma, hsy, ?_⟩
  rcases tick_cases h with ⟨e, u, l, rx, hact, rfl⟩ | ⟨r, hseq, rfl⟩
  · obtain ⟨hresp, hactive⟩ := hact.resp_active
    refine .inl ⟨e, hact.trace, hresp, hactive, ?_⟩
    cases hact with
    | csSet a => exact ⟨fun _ => rfl, fun _ => rfl, rfl⟩
    | busyRead => exact ⟨busyAt_busyNext s, fun _ => rfl, rfl, rfl⟩
    | xfer b hgot => exact ⟨fun _ => rfl, xferAt_xferNext s b, rfl, hgot⟩
    | xferFail b hfail => exact ⟨fun _ => rfl, xferAt_xferNext s b, rfl, hfail⟩
    | delay d => exact ⟨fun _ => rfl, fun _ => rfl, rfl⟩
  · exact .inr ⟨rfl, rfl, rfl, rfl, r, hseq, rfl⟩

end Sys2Proof.Machine
end

