-- ==== Sys2Proof/Proofs/FineInvariant.lean ====
section
/-! PROOFS. The machine's invariant at reset and along every step of the sequencer (R31, R36 to R39, R101, R131, R133):
every position an operation can be at is legal, so every action it takes keeps the bus discipline. -/

namespace Sys2Proof.Machine

/-! ### Legal positions (R31) -/

theorem positionOk_exchanges (bs : List Byte) (k : List Micro) :
    positionOk true (bs.map .exchange ++ k) = positionOk true k := by
  induction bs with
  | nil => rfl
  | cons b bs ih => exact ih

theorem positionOk_readySeq (p : Params) {k : List Micro} (h : positionOk true k = true) :
    positionOk true (readySeq p k) = true := by
  unfold readySeq
  split
  · rfl
  · exact h

/-- What a frame leads to is legal whatever the level it was released from. -/
theorem positionOk_release (c d : Bool) (a : After) (k : List Micro) :
    positionOk c (.release a :: k) = positionOk d (.release a :: k) := by
  cases a <;> rfl

theorem positionOk_frameSeq (p : Params) (bytes : List Byte) {a : After} {k : List Micro}
    (h : positionOk false (.release a :: k) = true) : positionOk false (frameSeq p bytes a k) = true := by
  rw [positionOk_release false true] at h
  refine positionOk_readySeq p ?_
  rw [positionOk_exchanges, h]

/-- A frame whose answers are discarded (R153 to R155). -/
theorem positionOk_frameSeq_go (p : Params) (bytes : List Byte) {k : List Micro} (h : positionOk false k = true) :
    positionOk false (frameSeq p bytes .go k) = true := positionOk_frameSeq p bytes (a := .go) h

theorem positionOk_pollSeq (p : Params) (e : PollExit) (n : Nat) {k : List Micro} (h : positionOk false k = true) :
    positionOk false (pollSeq p e n k) = true := by
  cases n with
  | zero => rfl
  | succ n => exact positionOk_frameSeq p _ h

theorem positionOk_raiseSeq (s : State) (e : Err) : positionOk s.cs (raiseSeq s e) = true := by
  unfold raiseSeq
  cases s.cs with
  | true => simp [positionOk, Response.legal]
  | false => simp [positionOk, Response.legal]

theorem positionOk_doneSeq : positionOk false doneSeq = true := rfl

theorem positionOk_writeSeq (p : Params) (bytes : List Byte) : positionOk false (writeSeq p bytes) = true :=
  positionOk_frameSeq_go p bytes positionOk_doneSeq

theorem positionOk_readSeq (p : Params) (bytes : List Byte) : positionOk false (readSeq p bytes) = true :=
  positionOk_frameSeq p bytes rfl

/-- R131, R230, R240: what follows a frame is legal. -/
theorem positionOk_position {c : Bool} {a : After} {k : List Micro} (s : State)
    (h : positionOk c (.release a :: k) = true) : positionOk false (a.position s k) = true := by
  cases a with
  | go => exact h
  | reply n => rfl
  | poll e left =>
    simp only [After.position]
    split
    · exact h
    split
    · exact positionOk_pollSeq _ _ _ h
    · exact positionOk_pollSeq _ _ _ h
  | receiveState =>
    simp only [After.position]
    split
    · exact positionOk_frameSeq_go _ _ (positionOk_frameSeq_go _ _ positionOk_doneSeq)
    · exact positionOk_frameSeq _ _ rfl
  | receiveCount =>
    simp only [After.position]
    split
    · exact positionOk_doneSeq
    · exact positionOk_frameSeq _ _ rfl

/-- An operation with an argument check starts at its first action or at the refusal (R272, R273). -/
theorem positionOk_checked {s : State} (hcs : s.cs = false) {c : Prop} [Decidable c] {k : List Micro} (e : Err)
    (h : positionOk false k = true) :
    positionOk false (if c then k else raiseSeq s e) = true ∧
      positionOk false (if c then raiseSeq s e else k) = true := by
  have hraise : positionOk false (raiseSeq s e) = true := hcs ▸ positionOk_raiseSeq s e
  exact ⟨by split <;> assumption, by split <;> assumption⟩

/-- Every operation starts at a legal position (R31). -/
theorem positionOk_startSeq (i : Instr) {s : State} (hcs : s.cs = false) : positionOk false (startSeq i s) = true := by
  cases i with
  | transact bs => exact positionOk_frameSeq _ _ rfl
  | reset => exact positionOk_readySeq _ (positionOk_readySeq _ rfl)
  | readSingle | readBurst | getFrequency | hdrReadSingle | hdrReadBurst | hdrStatusRead =>
    exact positionOk_readSeq _ _
  | setModType x => exact (positionOk_checked hcs _ (positionOk_frameSeq_go _ _ (positionOk_writeSeq _ _))).1
  | setSyncMode x => exact (positionOk_checked hcs _ (positionOk_writeSeq _ _)).1
  | setFrequency hz => exact (positionOk_checked hcs _ (positionOk_writeSeq _ _)).1
  | enterReceive | enterTransmit => exact positionOk_frameSeq_go _ _ (positionOk_pollSeq _ _ _ positionOk_doneSeq)
  | sendPacket b =>
    exact (positionOk_checked hcs _ (positionOk_frameSeq_go _ _ (positionOk_frameSeq_go _ _ (positionOk_frameSeq_go _ _
      (positionOk_frameSeq_go _ _ (positionOk_pollSeq _ _ _ positionOk_doneSeq)))))).2
  | receivePacket => exact positionOk_frameSeq _ _ rfl
  | setTxPower level => exact (positionOk_checked hcs _ (positionOk_frameSeq_go _ _ (positionOk_writeSeq _ _))).2
  | _ => exact positionOk_writeSeq _ _

/-! ### The bus discipline over the events (R131, R133) -/

theorem busLevel_append (c : Bool) (es fs : List Event) :
    busLevel c (es ++ fs) = (busLevel c es).bind fun d => busLevel d fs := by
  induction es generalizing c with
  | nil => rfl
  | cons e es ih =>
    cases e with
    | cs a =>
      simp only [List.cons_append, busLevel, ih]
      split <;> rfl
    | busy v | xfer b r | xferFail b =>
      simp only [List.cons_append, busLevel, ih]
      split <;> rfl
    | delay d => exact ih c

/-! ### The invariant -/

theorem inv_iff (s : State) :
    s.inv = true ↔ s.params.wf = true ∧ s.shadowsLegal = true ∧
      (if s.active then positionOk s.cs s.seq else s.idle) = true ∧ busLevel false s.trace = some s.cs ∧
      s.resp.all Response.legal = true := by
  simp [State.inv, and_assoc]

/-- Settles O9: every clause is read off the reset state, and the OPEN limits are at least 1 by their form. -/
theorem invariantHoldsAtReset : Obligations.InvariantHoldsAtReset := by
  refine (inv_iff _).2 ⟨?_, by decide, rfl, rfl, rfl⟩
  simp [Params.wf, State.reset, Config.params, Config.crystal26MHz, Config.fifoCapacity]

theorem SameFixed.shadowsLegal {s t : State} (h : SameFixed s t) : t.shadowsLegal = s.shadowsLegal := by
  simp only [State.shadowsLegal, h.dcfilter, h.modtype, h.manchester, h.syncmode]

/-- An action that the bus discipline admits keeps the invariant if it leads to a legal position. -/
theorem Action.inv {s u : State} {e : Event} {k : List Micro} {rx : List Byte} (h : Action s e u)
    (hinv : s.inv = true) (hactive : s.active = true) (hbus : busLevel s.cs [e] = some u.cs)
    (hk : positionOk u.cs k = true) : (u.atSeq k rx).inv = true := by
  obtain ⟨hwf, hshadows, -, htrace, hresp⟩ := (inv_iff s).1 hinv
  obtain ⟨hresp', hactive'⟩ := h.resp_active
  refine (inv_iff _).2 ⟨?_, ?_, ?_, ?_, ?_⟩
  · rw [atSeq_params, h.sameFixed.params, hwf]
  · exact h.sameFixed.shadowsLegal.trans hshadows
  · rw [atSeq_active, hactive', hactive, if_pos rfl]
    exact hk
  · rw [atSeq_trace, h.trace, busLevel_append, htrace]
    exact hbus
  · rw [atSeq_resp, hresp', hresp]

/-- The write of the response at a legal position leaves a legal idle block. -/
theorem respond_inv {s : State} {r : Response} (hinv : s.inv = true) (hcs : s.cs = false) (hr : r.legal = true) :
    (s.respond r).inv = true := by
  obtain ⟨hwf, hshadows, -, htrace, -⟩ := (inv_iff s).1 hinv
  refine (inv_iff _).2 ⟨hwf, hshadows, ?_, htrace, hr⟩
  simp [State.idle, hcs]

theorem perform_keeps_inv {s : State} {m : Micro} {k : List Micro} (hinv : s.inv = true) (hactive : s.active = true)
    (hpos : positionOk s.cs (m :: k) = true) : (m.perform k s).inv = true := by
  rw [← s.atSeq_self] at hinv ⊢
  cases m with
  | assert =>
    obtain ⟨hcs, hk⟩ : s.cs = false ∧ positionOk true k = true := by simpa [positionOk] using hpos
    rw [perform_assert]
    exact (Action.csSet true).inv hinv hactive (by simp [busLevel, hcs]) hk
  | release a =>
    rw [perform_release]
    exact (Action.csSet false).inv hinv hactive (by simp [busLevel]) (positionOk_position _ hpos)
  | delay d =>
    rw [perform_delay]
    exact (Action.delay d).inv hinv hactive rfl hpos
  | respond r =>
    obtain ⟨⟨hcs, -⟩, hr⟩ : (s.cs = false ∧ k = []) ∧ r.legal = true := by simpa [positionOk] using hpos
    exact respond_inv hinv hcs hr
  | busyRead left =>
    obtain ⟨hcs, hk⟩ : s.cs = true ∧ positionOk true k = true := by simpa [positionOk] using hpos
    have hbus : busLevel s.cs [.busy (s.busyAt 0)] = some s.cs := by simp [busLevel, hcs]
    have hgo {l : List Micro} {rx : List Byte} (hl : positionOk s.cs l = true) : (s.busyNext.atSeq l rx).inv = true :=
      Action.busyRead.inv hinv hactive hbus hl
    cases hready : s.busyAt 0 with
    | false => rw [perform_busyRead_ready _ _ _ _ _ hready]; exact hgo (hcs ▸ hk)
    | true =>
      cases left with
      | zero => rw [perform_busyRead_timeout _ _ _ _ hready]; exact hgo (positionOk_raiseSeq s.busyNext _)
      | succ n => rw [perform_busyRead_again _ _ _ _ _ hready]; exact hgo (by simp [positionOk, hcs, hk])
  | exchange b =>
    obtain ⟨hcs, hk⟩ : s.cs = true ∧ positionOk true k = true := by simpa [positionOk] using hpos
    cases hgot : s.xferAt 0 with
    | some r =>
      rw [perform_exchange_ok _ _ _ _ _ _ hgot]
      exact (Action.xfer b hgot).inv hinv hactive (by simp [busLevel, hcs]) (by rw [xferNext_cs, hcs]; exact hk)
    | none =>
      rw [perform_exchange_failed _ _ _ _ _ hgot]
      exact (Action.xferFail b hgot).inv hinv hactive (by simp [busLevel, hcs]) (positionOk_raiseSeq _ _)

/-- R8: one step of an executing operation keeps the invariant. -/
theorem tick_keeps_inv {s t : State} (hinv : s.inv = true) (hactive : s.active = true) (h : tick s = .next t) :
    t.inv = true := by
  obtain ⟨-, -, hpos, -, -⟩ := (inv_iff s).1 hinv
  rw [hactive, if_pos rfl] at hpos
  obtain ⟨m, k, hs, rfl⟩ := tick_eq_next h
  rw [hs] at hpos
  exact perform_keeps_inv hinv hactive hpos

/-! ### Acceptance (R42, R100) -/

theorem mem_modtypes_of_supported : ∀ x : Byte, supportedModulation x = true →
    ([0x00, 0x10, 0x30, 0x40, 0x70] : List Byte).contains (modulationShadow x) = true := by decide

/-- R191 to R196: a setter writes a legal value of its shadow. -/
theorem shadowWrite_legal (i : Instr) {s : State} (h : s.shadowsLegal = true) :
    (shadowWrite i s).shadowsLegal = true := by
  obtain ⟨⟨⟨hdc, hmt⟩, hma⟩, hsy⟩ := by simpa only [State.shadowsLegal, Bool.and_eq_true] using h
  simp only [State.shadowsLegal, Bool.and_eq_true]
  cases i with
  | setModType x =>
    simp only [shadowWrite]
    split
    · exact ⟨⟨⟨hdc, mem_modtypes_of_supported x ‹_›⟩, hma⟩, hsy⟩
    · exact ⟨⟨⟨hdc, hmt⟩, hma⟩, hsy⟩
  | setSyncMode x =>
    simp only [shadowWrite]
    split
    · exact ⟨⟨⟨hdc, hmt⟩, hma⟩, ‹supportedSyncMode x = true›⟩
    · exact ⟨⟨⟨hdc, hmt⟩, hma⟩, hsy⟩
  | setManchester b => exact ⟨⟨⟨hdc, hmt⟩, by cases b <;> rfl⟩, hsy⟩
  | setDcFilter b => exact ⟨⟨⟨by cases b <;> rfl, hmt⟩, hma⟩, hsy⟩
  | _ => exact ⟨⟨⟨hdc, hmt⟩, hma⟩, hsy⟩

/-- The fields a shadow write does not touch, but for the shadows. -/
structure SameButShadows (s t : State) : Prop where
  params : t.params = s.params
  cs : t.cs = s.cs
  active : t.active = s.active
  resp : t.resp = s.resp
  port : t.port = s.port
  trace : t.trace = s.trace

theorem shadowWrite_sameButShadows (i : Instr) (s : State) : SameButShadows s (shadowWrite i s) := by
  cases i with
  | setModType x | setSyncMode x =>
    simp only [shadowWrite]
    split <;> exact ⟨rfl, rfl, rfl, rfl, rfl, rfl⟩
  | _ => exact ⟨rfl, rfl, rfl, rfl, rfl, rfl⟩

theorem start_eq_atSeq (i : Instr) (s : State) :
    start i s = (shadowWrite i s.accept).atSeq (startSeq i (shadowWrite i s.accept)) (shadowWrite i s.accept).rx := rfl

theorem inv_idle {s : State} (hinv : s.inv = true) (hactive : s.active = false) : s.idle = true := by
  obtain ⟨-, -, hidle, -, -⟩ := (inv_iff s).1 hinv
  rwa [hactive, if_neg Bool.false_ne_true] at hidle

theorem start_keeps_inv (i : Instr) {s : State} (hinv : s.inv = true) (hactive : s.active = false) :
    (start i s).inv = true := by
  obtain ⟨hwf, hshadows, -, htrace, hresp⟩ := (inv_iff s).1 hinv
  obtain ⟨-, hcs, -, -⟩ := (idle_iff s).1 (inv_idle hinv hactive)
  have hsame := shadowWrite_sameButShadows i s.accept
  have hlevel : (shadowWrite i s.accept).cs = false := hsame.cs.trans hcs
  rw [start_eq_atSeq]
  refine (inv_iff _).2 ⟨?_, ?_, ?_, ?_, ?_⟩
  · rw [atSeq_params, hsame.params]; exact hwf
  · exact shadowWrite_legal i hshadows
  · rw [atSeq_active, hsame.active, accept_active, if_pos rfl, atSeq_cs, hlevel]
    exact positionOk_startSeq i hlevel
  · rw [atSeq_trace, atSeq_cs, hlevel, hsame.trace]; exact htrace.trans (congrArg some hcs)
  · rw [atSeq_resp, hsame.resp]; exact hresp

/-- Taking the waiting request off the port keeps the invariant. -/
theorem takePort_inv {s : State} (hinv : s.inv = true) : s.takePort.inv = true := hinv

/-- R104: the position that answers a command that does not decode. -/
theorem reject_keeps_inv {s : State} (hinv : s.inv = true) (hactive : s.active = false) :
    (s.accept.atSeq [.respond ⟨.illegalCommand, []⟩] s.rx).inv = true := by
  obtain ⟨hwf, hshadows, -, htrace, hresp⟩ := (inv_iff s).1 hinv
  obtain ⟨-, hcs, -, -⟩ := (idle_iff s).1 (inv_idle hinv hactive)
  refine (inv_iff _).2 ⟨hwf, hshadows, ?_, htrace, hresp⟩
  simp [positionOk, Response.legal, hcs]

/-- Settles O43: acceptance leads to a legal position, and every action from a legal position to another. -/
theorem fineStepKeepsTheInvariant : Obligations.FineStepKeepsTheInvariant := by
  intro s t hinv h
  unfold fineStep at h
  cases hactive : s.active with
  | true =>
    rw [hactive, if_pos rfl] at h
    exact tick_keeps_inv hinv hactive h
  | false =>
    rw [hactive, if_neg Bool.false_ne_true] at h
    cases hport : s.port with
    | none =>
      rw [hport] at h
      cases h
      exact hinv
    | some r =>
      rw [hport] at h
      cases hr : decodeRequest r with
      | ok i =>
        simp only [hr] at h
        cases h
        exact start_keeps_inv i (takePort_inv hinv) hactive
      | error e =>
        simp only [hr] at h
        cases h
        exact reject_keeps_inv (takePort_inv hinv) hactive

end Sys2Proof.Machine
end

