-- ==== Sys2Proof/Proofs/Refinement.lean ====
section
/-! PROOFS. Stepping the sequencer action by action reaches the state `exec` answers (R8, R31, R42; log entry 4). The
simulation is stated for the rest of an operation: from a position that stands for it, the sequencer goes, one event a
step, to the write of the response it ends in. -/

namespace Sys2Proof.Machine

/-! ### Runs of the sequencer, one event a step -/

/-- `n` steps of an active sequencer, each of which records one event. -/
inductive Goes : Nat → State → State → Prop
  | refl (v : State) : Goes 0 v v
  | step {n : Nat} {v u w : State} (hactive : v.active = true) (htick : tick v = .next u)
      (hevent : u.trace.length = v.trace.length + 1) (hgoes : Goes n u w) : Goes (n + 1) v w

theorem Goes.trans {m n : Nat} {u v w : State} (h : Goes m u v) (g : Goes n v w) : Goes (n + m) u w := by
  induction h with
  | refl => exact g
  | step hactive htick hevent _ ih => exact .step hactive htick hevent (ih g)

theorem ticks_succ {v u : State} (h : tick v = .next u) (n : Nat) : ticks (n + 1) v = ticks n u := by
  rw [ticks, h]

theorem Goes.length {n : Nat} {v w : State} (h : Goes n v w) : w.trace.length = v.trace.length + n := by
  induction h with
  | refl => rfl
  | step _ _ hevent _ ih => omega

/-- The last of these steps is the one that leaves an active sequencer, at the write of the response. -/
theorem Goes.ticks_respond {n : Nat} {v w : State} {r : Response} {k : List Micro} (h : Goes n v w)
    (hw : w.active = true) (hseq : w.seq = .respond r :: k) :
    ticks (n + 1) v = some (w.respond r) ∧ ∀ m < n + 1, ∃ u, ticks m v = some u ∧ u.active = true := by
  induction h with
  | refl v =>
    have htick : tick v = .next (v.respond r) := tick_of_seq hseq
    refine ⟨ticks_succ htick 0, fun m hm => ⟨v, ?_, hw⟩⟩
    rw [Nat.lt_one_iff.1 hm]; rfl
  | step hactive htick _ _ ih =>
    obtain ⟨hend, hon⟩ := ih hw hseq
    refine ⟨(ticks_succ htick _).trans hend, fun m hm => ?_⟩
    cases m with
    | zero => exact ⟨_, rfl, hactive⟩
    | succ m =>
      obtain ⟨u, hu, hactive'⟩ := hon m (by omega)
      exact ⟨u, (ticks_succ htick m).trans hu, hactive'⟩

/-- One entry of the position that is a primitive action. -/
theorem goes_perform {s u : State} {e : Event} {m : Micro} {k l : List Micro} {rx rx' : List Byte}
    (hs : s.active = true) (h : Action s e u) (hm : m.perform k (s.atSeq (m :: k) rx) = u.atSeq l rx') :
    Goes 1 (s.atSeq (m :: k) rx) (u.atSeq l rx') := by
  have htick : tick (s.atSeq (m :: k) rx) = .next (u.atSeq l rx') := congrArg Host.Outcome.next hm
  refine .step hs htick ?_ (.refl _)
  rw [atSeq_trace, atSeq_trace, h.trace, List.length_append]
  rfl

theorem goes_release_go {s : State} (hs : s.active = true) (rx : List Byte) {k : List Micro} :
    Goes 1 (s.atSeq (.release .go :: k) rx) ((s.csSet false).atSeq k rx) :=
  goes_perform hs (.csSet false) (perform_release s k rx _ .go)

theorem goes_delay {s : State} (hs : s.active = true) (rx : List Byte) (d : DelayName) {k : List Micro} :
    Goes 1 (s.atSeq (.delay d :: k) rx) ((s.wait d).atSeq k rx) :=
  goes_perform hs (.delay d) (perform_delay s k rx _ d)

/-! ### Where a position leads -/

/-- From `v` the sequencer goes to the write of the response that this result of an operation gives (R19, R101). -/
def Leads (v : State) : EStateM.Result Err State (List Byte) → Prop
  | .ok d t => t.active = true ∧ ∃ n rx, Goes n v (t.atSeq [.respond ⟨.ok, d⟩] rx)
  | .error e t => t.active = true ∧ ∃ n rx, Goes n v (t.atSeq [.respond ⟨e, []⟩] rx)

theorem Goes.leads {n : Nat} {v w : State} {r : EStateM.Result Err State (List Byte)} (h : Goes n v w)
    (hw : Leads w r) : Leads v r := by
  cases r with
  | ok d t | error e t =>
    obtain ⟨hactive, m, rx, hm⟩ := hw
    exact ⟨hactive, _, rx, h.trans hm⟩

theorem leads_pure {s : State} (hs : s.active = true) (d : List Byte) (rx : List Byte) :
    Leads (s.atSeq [.respond ⟨.ok, d⟩] rx) ((pure d : Op (List Byte)) s) := ⟨hs, 0, rx, .refl _⟩

/-- R19, R279. -/
theorem leads_raise {s : State} (hs : s.active = true) (e : Err) (rx : List Byte) :
    Leads (s.atSeq (raiseSeq s e) rx) ((raise e : Op (List Byte)) s) := by
  unfold raiseSeq
  cases hcs : s.cs with
  | false =>
    rw [raise_free s e hcs]
    exact ⟨hs, 0, rx, .refl _⟩
  | true =>
    have hreleased : (raise e : Op (List Byte)) s = .error e (s.csSet false) := by
      simp [raise, State.releaseIfHeld, hcs]
    rw [hreleased]
    exact ⟨hs, 1, rx, goes_release_go hs rx⟩

/-! ### The ready-wait (R130) -/

theorem waitReady_succ_bind {α : Type} (n : Nat) (f : Unit → Op α) (s : State) :
    (waitReady (n + 1) >>= f) s =
      if s.busyAt 0 = true then
        if n = 0 then (raise .readyTimeout : Op α) s.busyNext else (waitReady n >>= f) (s.busyNext.wait .readyPoll)
      else f () s.busyNext := by
  rw [waitReady, bind_assoc, busyRead_bind]
  cases s.busyAt 0 with
  | false => rfl
  | true =>
    cases n with
    | zero => rfl
    | succ n => rfl

/-- The states that a piece of an operation runs in, at one chip-select level. -/
structure Running (s : State) (cs : Bool) (t : State) : Prop where
  active : t.active = true
  params : t.params = s.params
  cs : t.cs = cs

theorem leads_busyRead {k : List Micro} {rx : List Byte} {f : Unit → Op (List Byte)} (n : Nat) {s : State}
    (hs : s.active = true) (hcs : s.cs = true)
    (hk : ∀ t, Running s true t → Leads (t.atSeq k rx) (f () t)) :
    Leads (s.atSeq (.busyRead n :: k) rx) ((waitReady (n + 1) >>= f) s) := by
  induction n generalizing s with
  | zero =>
    rw [waitReady_succ_bind]
    cases hready : s.busyAt 0 with
    | false =>
      exact (goes_perform hs .busyRead (perform_busyRead_ready s k rx _ 0 hready)).leads (hk _ ⟨hs, rfl, hcs⟩)
    | true =>
      exact (goes_perform hs .busyRead (perform_busyRead_timeout s k rx _ hready)).leads
        (leads_raise (s := s.busyNext) hs _ rx)
  | succ n ih =>
    rw [waitReady_succ_bind]
    cases hready : s.busyAt 0 with
    | false =>
      exact (goes_perform hs .busyRead (perform_busyRead_ready s k rx _ (n + 1) hready)).leads (hk _ ⟨hs, rfl, hcs⟩)
    | true =>
      have hread := goes_perform hs .busyRead (perform_busyRead_again s k rx _ n hready)
      have hwait := goes_delay (s := s.busyNext) hs rx .readyPoll (k := .busyRead n :: k)
      exact (hread.trans hwait).leads (ih (s := s.busyNext.wait .readyPoll) hs hcs fun t ht =>
        hk t ⟨ht.active, ht.params, ht.cs⟩)

theorem leads_readySeq {k : List Micro} {rx : List Byte} {f : Unit → Op (List Byte)} {s : State}
    (hs : s.active = true) (hcs : s.cs = true)
    (hk : ∀ t, Running s true t → Leads (t.atSeq k rx) (f () t)) :
    Leads (s.atSeq (readySeq s.params k) rx) ((waitReady s.params.readyPollLimit >>= f) s) := by
  unfold readySeq
  cases s.params.readyPollLimit with
  | zero =>
    have hraise := leads_raise hs .readyTimeout rx
    rw [raiseSeq, if_pos hcs] at hraise
    exact hraise
  | succ n => exact leads_busyRead n hs hcs hk

/-! ### The exchanges and the frame (R131) -/

theorem leads_exchange {k : List Micro} {rx : List Byte} {f : Byte → Op (List Byte)} (b : Byte) {s : State}
    (hs : s.active = true)
    (hk : ∀ r t, Running s s.cs t → Leads (t.atSeq k (rx ++ [r])) (f r t)) :
    Leads (s.atSeq (.exchange b :: k) rx) ((exchange b >>= f) s) := by
  cases hgot : s.xferAt 0 with
  | some r =>
    have hgoes := goes_perform hs (.xfer b hgot) (perform_exchange_ok s k rx _ b r hgot)
    have hrun : exchange b s = .ok r (s.xferNext b) := by simp only [exchange, hgot]
    rw [bind_ok hrun]
    exact hgoes.leads (hk r _ ⟨hs, rfl, rfl⟩)
  | none =>
    have hgoes := goes_perform hs (.xferFail b hgot) (perform_exchange_failed s k rx _ b hgot)
    have hrun : exchange b s = (raise .transportError : Op Byte) (s.xferNext b) := by simp only [exchange, hgot]
    rw [bind_error hrun]
    exact hgoes.leads (leads_raise (s := s.xferNext b) hs _ rx)

theorem leads_exchanges {k : List Micro} (bs : List Byte) {rx : List Byte} {f : List Byte → Op (List Byte)} {s : State}
    (hs : s.active = true)
    (hk : ∀ got t, Running s s.cs t → Leads (t.atSeq k (rx ++ got)) (f got t)) :
    Leads (s.atSeq (bs.map .exchange ++ k) rx) ((exchanges bs >>= f) s) := by
  induction bs generalizing rx f s with
  | nil =>
    have hnow := hk [] s ⟨hs, rfl, rfl⟩
    rwa [List.append_nil] at hnow
  | cons b bs ih =>
    have hsplit : (exchanges (b :: bs) >>= f) = exchange b >>= fun r => exchanges bs >>= fun rs => f (r :: rs) := by
      simp only [exchanges, bind_assoc, pure_bind]
    rw [hsplit]
    refine leads_exchange b hs fun r t ht => ih (rx := rx ++ [r]) ht.active fun got u hu => ?_
    have hlater := hk (r :: got) u ⟨hu.active, hu.params.trans ht.params, hu.cs.trans ht.cs⟩
    rwa [List.append_cons] at hlater

theorem frame_bind (bytes : List Byte) (f : List Byte → Op (List Byte)) (s : State) :
    (frame bytes >>= f) s =
      (waitReady s.params.readyPollLimit >>= fun _ => exchanges bytes >>= fun rx =>
        csSet false >>= fun _ => f rx) (s.csSet true) := by
  simp only [frame, bind_assoc, pure_bind]
  rfl

section
variable (t : State) (l k : List Micro) (rx : List Byte)

/-- R230. -/
theorem position_poll (e : PollExit) (left : Nat) :
    (After.poll e left).position (t.atSeq l rx) k =
      if e.done t.params.peer (radioState ((dataPhase rx).headD 0)) = true then k
      else if left = 0 then pollSeq t.params e 0 k
      else .delay .statePoll :: pollSeq t.params e left k := rfl

/-- R240, R242. -/
theorem position_receiveState :
    After.receiveState.position (t.atSeq l rx) k =
      if radioState ((dataPhase rx).headD 0) = t.params.peer.msRxfifoOverflow then
        frameSeq t.params [t.params.peer.strobeSfrx] .go (frameSeq t.params [t.params.peer.strobeSrx] .go doneSeq)
      else frameSeq t.params (statusBytes t.params t.params.peer.statusRxbytes) .receiveCount [] := rfl

/-- R240, R241. -/
theorem position_receiveCount :
    After.receiveCount.position (t.atSeq l rx) k =
      if rxCount ((dataPhase rx).headD 0) = 0 then doneSeq
      else readSeq t.params (hdr t.params.peer.addrFifo t.params.peer.readBurstBits ::
        List.replicate (rxCount ((dataPhase rx).headD 0)) t.params.dummyByte) := rfl

end

/-- A frame, then what its bytes decide. -/
theorem leads_frameSeq {bytes : List Byte} {a : After} {k : List Micro} {rx₀ : List Byte}
    {f : List Byte → Op (List Byte)} {s : State} (hs : s.active = true)
    (hk : ∀ rx t, Running s false t → Leads (t.atSeq (a.position (t.atSeq k rx) k) rx) (f rx t)) :
    Leads (s.atSeq (frameSeq s.params bytes a k) rx₀) ((frame bytes >>= f) s) := by
  rw [frame_bind]
  refine (goes_perform hs (.csSet true) (perform_assert s _ rx₀ _)).leads ?_
  refine leads_readySeq (s := s.csSet true) hs rfl fun t ht => ?_
  refine leads_exchanges bytes ht.active fun rx u hu => ?_
  have hrelease := goes_perform hu.active (.csSet false) (perform_release u k rx (.release a :: k) a)
  rw [position_congr (t := (u.csSet false).atSeq (.release a :: k) rx) (s := (u.csSet false).atSeq k rx) a k rfl rfl]
    at hrelease
  exact hrelease.leads (hk rx (u.csSet false) ⟨hu.active, hu.params.trans ht.params, rfl⟩)

/-- A frame whose answers are discarded, and the rest of the operation (R153, R154, R155). -/
theorem leads_frame_go {bytes : List Byte} {k : List Micro} {rx₀ : List Byte} {x : Op (List Byte)}
    {f : List Byte → Op (List Byte)} {s : State} (hs : s.active = true)
    (hx : ∀ g : List Byte → Op (List Byte), (x >>= g) s = (frame bytes >>= fun _ => g []) s)
    (hk : ∀ rx t, Running s false t → Leads (t.atSeq k rx) (f [] t)) :
    Leads (s.atSeq (frameSeq s.params bytes .go k) rx₀) ((x >>= f) s) := by
  rw [hx]
  exact leads_frameSeq hs fun rx t ht => hk rx t ht

theorem strobe_bind (v : Byte) (g : List Byte → Op (List Byte)) (s : State) :
    (strobe v >>= g) s = (frame [v] >>= fun _ => g []) s := by
  simp only [strobe, bind_assoc, pure_bind]

theorem writeSingle_bind (a v : Byte) (g : List Byte → Op (List Byte)) (s : State) :
    (writeSingle a v >>= g) s = (frame [a, v] >>= fun _ => g []) s := by
  simp only [writeSingle, bind_assoc, pure_bind]

theorem writeBurst_bind (a : Byte) (vs : List Byte) (g : List Byte → Op (List Byte)) (s : State) :
    (writeBurst a vs >>= g) s = (frame (hdr a s.params.peer.burstBit :: vs) >>= fun _ => g []) s := by
  simp only [writeBurst, bind_assoc, pure_bind, params_bind]

theorem readStatus_bind (a : Byte) (g : Byte → Op (List Byte)) (s : State) :
    (readStatus a >>= g) s = (frame (statusBytes s.params a) >>= fun rx => g ((dataPhase rx).headD 0)) s := by
  simp only [readStatus, readSingle, bind_assoc, pure_bind, params_bind]
  rfl

/-- An operation that is one such frame and then its success. -/
theorem leads_writeSeq {bytes : List Byte} {rx₀ : List Byte} {x : Op (List Byte)} {s : State} (hs : s.active = true)
    (hx : ∀ g : List Byte → Op (List Byte), (x >>= g) s = (frame bytes >>= fun _ => g []) s) :
    Leads (s.atSeq (writeSeq s.params bytes) rx₀) (x s) := by
  have hwhole : x s = (x >>= pure) s := by rw [bind_pure]
  rw [hwhole]
  exact leads_frame_go hs hx fun rx t ht => leads_pure ht.active [] rx

/-- An operation that is one frame whose bytes, less the first `n`, are the result. -/
theorem leads_reply {bytes : List Byte} {rx₀ : List Byte} {s : State} (hs : s.active = true) (n : Nat) :
    Leads (s.atSeq (frameSeq s.params bytes (.reply n) []) rx₀)
      ((frame bytes >>= fun rx => (pure (rx.drop n) : Op (List Byte))) s) :=
  leads_frameSeq hs fun rx _ ht => leads_pure ht.active (rx.drop n) rx

theorem leads_readSingle {s : State} (hs : s.active = true) (a : Byte) (rx₀ : List Byte) :
    Leads (s.atSeq (readSeq s.params (statusBytes s.params a)) rx₀) (readSingle a s) := leads_reply hs 1

theorem leads_readBurst {s : State} (hs : s.active = true) (a : Byte) (n : Nat) (rx₀ : List Byte) :
    Leads (s.atSeq (readSeq s.params (hdr a s.params.peer.readBurstBits :: List.replicate n s.params.dummyByte)) rx₀)
      (readBurst a n s) := leads_reply hs 1

theorem leads_strobe {s : State} (hs : s.active = true) (v : Byte) (rx₀ : List Byte) :
    Leads (s.atSeq (writeSeq s.params [v]) rx₀) (strobe v s) := leads_writeSeq hs fun g => strobe_bind v g s

theorem leads_writeSingle {s : State} (hs : s.active = true) (a v : Byte) (rx₀ : List Byte) :
    Leads (s.atSeq (writeSeq s.params [a, v]) rx₀) (writeSingle a v s) :=
  leads_writeSeq hs fun g => writeSingle_bind a v g s

theorem leads_writeBurst {s : State} (hs : s.active = true) (a : Byte) (vs : List Byte) (rx₀ : List Byte) :
    Leads (s.atSeq (writeSeq s.params (hdr a s.params.peer.burstBit :: vs)) rx₀) (writeBurst a vs s) :=
  leads_writeSeq hs fun g => writeBurst_bind a vs g s

/-! ### The state poll (R230) -/

theorem pollState_succ_bind (e : PollExit) (n : Nat) (f : Unit → Op (List Byte)) (s : State) :
    (pollState e (n + 1) >>= f) s =
      (frame (statusBytes s.params s.params.peer.statusMarcstate) >>= fun rx =>
        if e.done s.params.peer (radioState ((dataPhase rx).headD 0)) = true then f ()
        else if n = 0 then raise .stateTransitionTimeout
        else delay .statePoll >>= fun _ => pollState e n >>= f) s := by
  have hsplit : (pollState e (n + 1) >>= f) s = (readStatus s.params.peer.statusMarcstate >>= fun b =>
      (if e.done s.params.peer (radioState b) = true then pure ()
        else do
          if n ≠ 0 then delay .statePoll
          pollState e n) >>= f) s := by
    rw [pollState, bind_assoc, params_bind, bind_assoc]
  rw [hsplit, readStatus_bind]
  refine congrFun (congrArg (frame _ >>= ·) (funext fun rx => ?_)) s
  split
  · rfl
  · cases n with
    | zero => rfl
    | succ n => rfl

theorem leads_pollSeq {e : PollExit} {k : List Micro} {f : Unit → Op (List Byte)} (n : Nat) {rx₀ : List Byte}
    {s : State} (hs : s.active = true) (hcs : s.cs = false)
    (hk : ∀ rx t, Running s false t → Leads (t.atSeq k rx) (f () t)) :
    Leads (s.atSeq (pollSeq s.params e n k) rx₀) ((pollState e n >>= f) s) := by
  induction n generalizing s rx₀ with
  | zero =>
    have hraise := leads_raise hs .stateTransitionTimeout rx₀
    rw [raiseSeq, if_neg (by rw [hcs]; decide)] at hraise
    exact hraise
  | succ n ih =>
    rw [pollState_succ_bind]
    refine leads_frameSeq hs fun rx t ht => ?_
    rw [position_poll, ht.params]
    split
    · exact hk rx t ht
    cases n with
    | zero =>
      have hraise := leads_raise ht.active .stateTransitionTimeout rx
      rw [raiseSeq, if_neg (by rw [ht.cs]; decide)] at hraise
      exact hraise
    | succ n =>
      rw [if_neg (Nat.succ_ne_zero n), if_neg (Nat.succ_ne_zero n), delay_bind, ← ht.params]
      refine (goes_delay ht.active rx .statePoll).leads ?_
      exact ih (s := t.wait .statePoll) ht.active ht.cs fun rx' u hu =>
        hk rx' u ⟨hu.active, hu.params.trans ht.params, hu.cs⟩

/-! ### Every operation -/

theorem leads_awaitState {s : State} (hs : s.active = true) (hcs : s.cs = false) (e : PollExit) (rx₀ : List Byte) :
    Leads (s.atSeq (pollSeq s.params e s.params.statePollLimit doneSeq) rx₀)
      (awaitState e s.params.statePollLimit s) :=
  leads_pollSeq _ hs hcs fun rx _ ht => leads_pure ht.active [] rx

theorem leads_writeModem {s : State} (hs : s.active = true) (rx₀ : List Byte) :
    Leads (s.atSeq (writeSeq s.params [s.params.peer.regMdmcfg2, s.packed]) rx₀) (writeModem s) :=
  leads_writeSingle hs _ _ rx₀

theorem leads_setModulationType {s : State} (hs : s.active = true) (x : Byte) (rx₀ : List Byte) :
    Leads ((shadowWrite (.setModType x) s).atSeq (startSeq (.setModType x) (shadowWrite (.setModType x) s)) rx₀)
      (setModulationType x s) := by
  cases hx : supportedModulation x with
  | true =>
    rw [setModulationType_supported hx]
    simp only [shadowWrite, startSeq, hx, if_true]
    refine leads_frame_go (s := s.setModtype (modulationShadow x)) hs (fun g => writeSingle_bind _ _ g _)
      fun rx t ht => ?_
    rw [← ht.params]
    exact leads_writeSingle ht.active _ _ rx
  | false =>
    rw [setModulationType_unsupported hx]
    simp only [shadowWrite, startSeq, hx]
    exact leads_raise hs _ rx₀

theorem leads_setSyncMode {s : State} (hs : s.active = true) (x : Byte) (rx₀ : List Byte) :
    Leads ((shadowWrite (.setSyncMode x) s).atSeq (startSeq (.setSyncMode x) (shadowWrite (.setSyncMode x) s)) rx₀)
      (setSyncMode x s) := by
  cases hx : supportedSyncMode x with
  | true =>
    rw [setSyncMode_supported hx]
    simp only [shadowWrite, startSeq, hx, if_true]
    exact leads_writeModem (s := s.setSyncmode x) hs rx₀
  | false =>
    rw [setSyncMode_unsupported hx]
    simp only [shadowWrite, startSeq, hx]
    exact leads_raise hs _ rx₀

theorem leads_setFrequency {s : State} (hs : s.active = true) (hz : BitVec 32) (rx₀ : List Byte) :
    Leads (s.atSeq (startSeq (.setFrequency hz) s) rx₀) (setFrequency hz.toNat s) := by
  rw [setFrequency, params_bind]
  simp only [startSeq]
  split
  · exact leads_writeBurst hs _ _ rx₀
  · exact leads_raise hs _ rx₀

theorem leads_setTxPower {s : State} (hs : s.active = true) (level : BitVec 16) (rx₀ : List Byte) :
    Leads (s.atSeq (startSeq (.setTxPower level) s) rx₀) (setTxPower level.toNat s) := by
  rw [setTxPower, params_bind]
  simp only [startSeq]
  split
  · exact leads_raise hs _ rx₀
  · refine leads_frame_go hs (fun g => writeBurst_bind _ _ g s) fun rx t ht => ?_
    rw [← ht.params]
    exact leads_writeSingle ht.active _ _ rx

/-- R231, R232: a strobe, and the poll for a state. -/
theorem leads_strobe_awaitState {s : State} (hs : s.active = true) (v : Byte) (e : PollExit) (rx₀ : List Byte) :
    Leads (s.atSeq (frameSeq s.params [v] .go (pollSeq s.params e s.params.statePollLimit doneSeq)) rx₀)
      ((strobe v >>= fun _ => awaitState e s.params.statePollLimit) s) := by
  refine leads_frame_go hs (fun g => strobe_bind v g s) fun rx t ht => ?_
  rw [← ht.params]
  exact leads_awaitState ht.active ht.cs e rx

theorem leads_sendPacket {s : State} (hs : s.active = true) (b : List Byte) (rx₀ : List Byte) :
    Leads (s.atSeq (startSeq (.sendPacket b) s) rx₀) (sendPacket b s) := by
  rw [sendPacket, params_bind]
  simp only [startSeq]
  split
  · exact leads_raise hs _ rx₀
  · refine leads_frame_go hs (fun g => strobe_bind _ g s) fun rx t ht => ?_
    rw [← ht.params]
    refine leads_frame_go ht.active (fun g => strobe_bind _ g t) fun rx' u hu => ?_
    rw [← hu.params]
    refine leads_frame_go hu.active (fun g => writeBurst_bind _ _ g u) fun rx'' v hv => ?_
    rw [← hv.params]
    exact leads_strobe_awaitState hv.active _ .leftTx rx''

/-- R242. -/
theorem leads_healOverflow {s : State} (hs : s.active = true) (rx₀ : List Byte) :
    Leads (s.atSeq (frameSeq s.params [s.params.peer.strobeSfrx] .go
      (frameSeq s.params [s.params.peer.strobeSrx] .go doneSeq)) rx₀) (healOverflow s.params s) := by
  refine leads_frame_go hs (fun g => strobe_bind _ g s) fun rx t ht => ?_
  rw [← ht.params]
  exact leads_frame_go ht.active (fun g => strobe_bind _ g t) fun rx' u hu => leads_pure hu.active [] rx'

/-- R240, R241: the count, then that many bytes of the FIFO. -/
theorem leads_readFifo {s : State} (hs : s.active = true) (rx₀ : List Byte) :
    Leads (s.atSeq (frameSeq s.params (statusBytes s.params s.params.peer.statusRxbytes) .receiveCount []) rx₀)
      (readFifo s.params s) := by
  rw [readFifo, readStatus_bind]
  refine leads_frameSeq hs fun rx t ht => ?_
  rw [position_receiveCount, ← ht.params, readCounted]
  by_cases hcount : rxCount ((dataPhase rx).headD 0) = 0
  · rw [if_pos hcount, if_pos hcount]
    exact leads_pure ht.active [] rx
  · rw [if_neg hcount, if_neg hcount]
    exact leads_readBurst ht.active _ _ rx

theorem leads_receivePacket {s : State} (hs : s.active = true) (rx₀ : List Byte) :
    Leads (s.atSeq (startSeq .receivePacket s) rx₀) (receivePacket s) := by
  rw [receivePacket_run, readStatus_bind]
  refine leads_frameSeq hs fun rx t ht => ?_
  rw [position_receiveState, ← ht.params, receiveIn]
  by_cases hstate : radioState ((dataPhase rx).headD 0) = t.params.peer.msRxfifoOverflow
  · rw [if_pos hstate, if_pos hstate]
    exact leads_healOverflow ht.active rx
  · rw [if_neg hstate, if_neg hstate]
    exact leads_readFifo ht.active rx

/-- R134: the reset sequence and its two ready-waits. -/
theorem leads_deviceReset {s : State} (hs : s.active = true) (rx₀ : List Byte) :
    Leads (s.atSeq (startSeq .reset s) rx₀) (deviceReset s) := by
  have hrelease := goes_release_go hs rx₀ (k := .delay .rst1 :: .assert :: .delay .rst2 ::
    readySeq s.params (.exchange s.params.peer.strobeSres ::
      readySeq s.params (.release .go :: .delay .settle :: doneSeq)))
  have hrst1 := goes_delay (s := s.csSet false) hs rx₀ .rst1 (k := .assert :: .delay .rst2 ::
    readySeq s.params (.exchange s.params.peer.strobeSres ::
      readySeq s.params (.release .go :: .delay .settle :: doneSeq)))
  refine hrelease.leads (hrst1.leads ?_)
  refine (goes_perform (s := (s.csSet false).wait .rst1) hs (.csSet true) (perform_assert _ _ rx₀ _)).leads ?_
  refine (goes_delay (s := ((s.csSet false).wait .rst1).csSet true) hs [] .rst2).leads ?_
  refine leads_readySeq (s := (((s.csSet false).wait .rst1).csSet true).wait .rst2) hs rfl fun t ht => ?_
  refine leads_exchange _ ht.active fun r u hu => ?_
  have hparams : u.params = s.params := hu.params.trans ht.params
  change Leads _ (resetFinish s.params u)
  rw [← hparams]
  refine leads_readySeq hu.active (hu.cs.trans ht.cs) fun v hv => ?_
  refine (goes_release_go hv.active _).leads ((goes_delay (s := v.csSet false) hv.active _ .settle).leads ?_)
  exact leads_pure (s := (v.csSet false).wait .settle) hv.active [] _

/-- From the start of an instruction, its shadow write done, the sequencer goes where its operation ends. -/
theorem leads_operation (i : Instr) {s : State} (hs : s.active = true) (rx₀ : List Byte) :
    Leads ((shadowWrite i s).atSeq (startSeq i (shadowWrite i s)) rx₀) (operation i s) := by
  cases i with
  | transact bs =>
    have hwhole : transact bs s = (frame bs >>= fun rx => (pure (rx.drop 0) : Op (List Byte))) s := by
      simp only [List.drop_zero, bind_pure, transact]
    exact (congrArg (Leads _) hwhole).mpr (leads_reply hs 0)
  | reset => exact leads_deviceReset hs rx₀
  | readSingle | hdrReadSingle | hdrStatusRead => exact leads_readSingle hs _ rx₀
  | readBurst | hdrReadBurst => exact leads_readBurst hs _ _ rx₀
  | writeSingle | hdrWriteSingle => exact leads_writeSingle hs _ _ rx₀
  | writeBurst | hdrWriteBurst => exact leads_writeBurst hs _ _ rx₀
  | setModType x => exact leads_setModulationType hs x rx₀
  | setSyncMode x => exact leads_setSyncMode hs x rx₀
  | setManchester b => exact leads_writeModem (s := s.setManchester (manchesterShadow b)) hs rx₀
  | setDcFilter b => exact leads_writeModem (s := s.setDcfilter (dcfilterShadow b)) hs rx₀
  | setFrequency hz => exact leads_setFrequency hs hz rx₀
  | getFrequency => exact leads_readBurst hs _ 3 rx₀
  | enterReceive => exact leads_strobe_awaitState hs _ .isRx rx₀
  | enterTransmit => exact leads_strobe_awaitState hs _ .isTx rx₀
  | sendPacket b => exact leads_sendPacket hs b rx₀
  | receivePacket => exact leads_receivePacket hs rx₀
  | setTxPower level => exact leads_setTxPower hs level rx₀
  | _ => exact leads_strobe hs _ rx₀

/-! ### From acceptance to the response -/

/-- The sequencer stops in `t`: it is active until then. -/
structure HaltsIn (n : Nat) (v t : State) : Prop where
  ends : ticks n v = some t
  idle : t.active = false
  active : ∀ m < n, ∃ u, ticks m v = some u ∧ u.active = true

theorem start_halts (i : Instr) (s : State) :
    ∃ n, HaltsIn (n + 1) (start i s) (runOp (operation i) s) ∧ (newEvents s (runOp (operation i) s)).length = n := by
  have hleads := leads_operation i (s := s.accept) rfl (shadowWrite i s.accept).rx
  rw [← start_eq_atSeq] at hleads
  have htrace : (start i s).trace = s.trace := (shadowWrite_sameButShadows i s.accept).trace
  rw [runOp]
  cases hop : operation i s.accept with
  | ok d t | error e t =>
    rw [hop] at hleads
    obtain ⟨hactive, n, rx, hgoes⟩ := hleads
    obtain ⟨hends, hon⟩ := hgoes.ticks_respond hactive rfl
    refine ⟨n, ⟨hends, rfl, hon⟩, ?_⟩
    have hlength : t.trace.length = (start i s).trace.length + n := hgoes.length
    rw [newEvents, respond_trace, List.length_drop, hlength, htrace]
    omega

/-- Settles O46: the simulation of `leads_operation`, ended by the write of the response. -/
theorem sequencerRefinesExec : Obligations.SequencerRefinesExec := by
  intro i s
  obtain ⟨n, ⟨hends, hidle, hon⟩, hlength⟩ := start_halts i s
  exact ⟨n + 1, _, exec_eq_runOp i s, hends, hidle, by rw [hlength], hon⟩

end Sys2Proof.Machine
end

