-- ==== Sys2Proof/Proofs/WholeOperations.lean ====
section
/-! PROOFS. What the refinement carries from single steps of the sequencer to whole operations: the invariant (R31 to
R39, R133), the fields no operation writes (R35, R52, R61), and that an operation reads neither the shadows nor the
history (R20, R35, R41). -/

namespace Sys2Proof.Machine

/-! ### Whole runs of the sequencer -/

theorem exec_halts (i : Instr) (s : State) :
    ∃ n t, exec i s = .next t ∧ HaltsIn n (start i s) t := by
  obtain ⟨n, hhalts, -⟩ := start_halts i s
  exact ⟨n + 1, _, exec_eq_runOp i s, hhalts⟩

/-- A relation that every step of an active sequencer keeps holds where the sequencer stops. -/
theorem HaltsIn.induction {P : State → Prop} (hstep : ∀ {v u : State}, P v → v.active = true → tick v = .next u → P u)
    {n : Nat} {v t : State} (h : HaltsIn n v t) (hv : P v) : P t := by
  induction n generalizing v with
  | zero =>
    obtain ⟨hends, -, -⟩ := h
    cases hends
    exact hv
  | succ n ih =>
    obtain ⟨hends, hidle, hactive⟩ := h
    obtain ⟨v', hv', hva⟩ := hactive 0 n.succ_pos
    cases hv'
    cases htick : tick v with
    | next u =>
      rw [ticks_succ htick] at hends
      refine ih ⟨hends, hidle, fun m hm => ?_⟩ (hstep hv hva htick)
      rw [← ticks_succ htick]
      exact hactive (m + 1) (Nat.succ_lt_succ hm)
    | fault r => rw [ticks, htick] at hends; cases hends
    | refused r => rw [ticks, htick] at hends; cases hends

/-- The sequencer stops at one place only. -/
theorem HaltsIn.unique {m n : Nat} {v t u : State} (h : HaltsIn m v t) (g : HaltsIn n v u) : t = u := by
  have hnot {a b : Nat} {x y : State} (hx : HaltsIn a v x) (hy : HaltsIn b v y) : ¬ a < b := fun hab => by
    obtain ⟨w, hw, hactive⟩ := hy.active a hab
    rw [hx.ends] at hw
    cases hw
    rw [hx.idle] at hactive
    cases hactive
  have hmn : m = n := Nat.le_antisymm (Nat.not_lt.1 (hnot g h)) (Nat.not_lt.1 (hnot h g))
  subst hmn
  exact Option.some.inj (h.ends.symm.trans g.ends)

/-- Where the sequencer stops is the state `exec` answers. -/
theorem exec_of_halts {i : Instr} {s t : State} {n : Nat} (h : HaltsIn n (start i s) t) : exec i s = .next t := by
  obtain ⟨m, u, hexec, hu⟩ := exec_halts i s
  rw [hexec, h.unique hu]

theorem halts_of_exec {i : Instr} {s t : State} (h : exec i s = .next t) : ∃ n, HaltsIn n (start i s) t := by
  obtain ⟨n, u, hexec, hu⟩ := exec_halts i s
  rw [hexec] at h
  cases h
  exact ⟨n, hu⟩

/-! ### The invariant of the whole machine -/

theorem exec_keeps_inv {i : Instr} {s t : State} (hinv : s.inv = true) (hactive : s.active = false)
    (h : exec i s = .next t) : t.inv = true := by
  obtain ⟨n, hhalts⟩ := halts_of_exec h
  exact hhalts.induction (P := fun v => v.inv = true) tick_keeps_inv (start_keeps_inv i hinv hactive)

theorem rejectCommand_inv {s : State} (hinv : s.inv = true) (hactive : s.active = false) :
    (rejectCommand s).inv = true :=
  tick_keeps_inv (reject_keeps_inv hinv hactive) rfl rfl

/-- Settles O42: an operation taken in one go is a run of steps that each keep the invariant. -/
theorem stepKeepsTheInvariant : Obligations.StepKeepsTheInvariant := by
  intro s t hinv h
  unfold step at h
  cases hactive : s.active with
  | true =>
    rw [hactive, if_pos rfl] at h
    exact tick_keeps_inv hinv hactive h
  | false =>
    rw [hactive, if_neg Bool.false_ne_true] at h
    cases hport : s.port with
    | none =>
      rw [hport] at h
      cases h
      exact hinv
    | some r =>
      rw [hport] at h
      cases hr : decodeRequest r with
      | ok i =>
        simp only [hr] at h
        exact exec_keeps_inv (takePort_inv hinv) hactive h
      | error e =>
        simp only [hr] at h
        cases h
        exact rejectCommand_inv (takePort_inv hinv) hactive

/-! ### The fields no operation writes (R35, R52, R61) -/

theorem exec_sameFixed {i : Instr} {s t : State} (h : exec i s = .next t) : SameFixed (start i s) t := by
  obtain ⟨n, hhalts⟩ := halts_of_exec h
  exact hhalts.induction (P := SameFixed (start i s)) (fun hv _ htick => hv.trans (tick_sameFixed htick)) (.refl _)

/-- R191 to R196: a shadow is written by its own setter only. -/
theorem shadowWrite_others (i : Instr) (s : State) :
    ((∀ x, i ≠ .setModType x) → (shadowWrite i s).modtype = s.modtype) ∧
    ((∀ x, i ≠ .setSyncMode x) → (shadowWrite i s).syncmode = s.syncmode) ∧
    ((∀ b, i ≠ .setManchester b) → (shadowWrite i s).manchester = s.manchester) ∧
    ((∀ b, i ≠ .setDcFilter b) → (shadowWrite i s).dcfilter = s.dcfilter) := by
  cases i with
  | setModType x =>
    simp only [shadowWrite]
    refine ⟨fun h => absurd rfl (h x), ?_, ?_, ?_⟩ <;> intro _ <;> split <;> rfl
  | setSyncMode x =>
    simp only [shadowWrite]
    refine ⟨?_, fun h => absurd rfl (h x), ?_, ?_⟩ <;> intro _ <;> split <;> rfl
  | setManchester b => exact ⟨fun _ => rfl, fun _ => rfl, fun h => absurd rfl (h b), fun _ => rfl⟩
  | setDcFilter b => exact ⟨fun _ => rfl, fun _ => rfl, fun _ => rfl, fun h => absurd rfl (h b)⟩
  | _ => exact ⟨fun _ => rfl, fun _ => rfl, fun _ => rfl, fun _ => rfl⟩

/-- Settles O50: acceptance writes the instruction's own shadow, and no step after it any. -/
theorem shadowsAreWrittenBySettersOnly : Obligations.ShadowsAreWrittenBySettersOnly := by
  intro i s t h
  obtain ⟨hparams, hport, hdc, hmt, hma, hsy⟩ := exec_sameFixed h
  have hsame := shadowWrite_sameButShadows i s.accept
  obtain ⟨hmt', hsy', hma', hdc'⟩ := shadowWrite_others i s.accept
  exact ⟨hparams.trans hsame.params, hport.trans hsame.port, fun hi => hmt.trans (hmt' hi),
    fun hi => hsy.trans (hsy' hi), fun hi => hma.trans (hma' hi), fun hi => hdc.trans (hdc' hi)⟩

/-! ### The fields no step reads (R20, R35, R41) -/

/-- Values for the fields of a block that no step of the sequencer reads: the shadows, the port, the response before
the operation, and the events before it. -/
structure Unread where
  dcfilter : Byte
  modtype : Byte
  manchester : Byte
  syncmode : Byte
  port : Option Request
  resp : Option Response
  earlier : List Event

/-- `s` with these values, and the events of `s` after the earlier ones. A response that `s` has itself stays. -/
def State.amid (s : State) (d : Unread) : State :=
  { s with
    dcfilter := d.dcfilter
    modtype := d.modtype
    manchester := d.manchester
    syncmode := d.syncmode
    port := d.port
    resp := s.resp <|> d.resp
    trace := d.earlier ++ s.trace }

section
variable (s : State) (d : Unread)

theorem amid_atSeq (k : List Micro) (rx : List Byte) : (s.atSeq k rx).amid d = (s.amid d).atSeq k rx := rfl

theorem amid_log (e : Event) : (s.log e).amid d = (s.amid d).log e := by
  simp [State.amid, State.log]

theorem amid_csSet (a : Bool) : (s.csSet a).amid d = (s.amid d).csSet a := amid_log (s.withCs a) d (.cs a)

theorem amid_wait (x : DelayName) : (s.wait x).amid d = (s.amid d).wait x := amid_log s d _

theorem amid_busyNext : s.busyNext.amid d = (s.amid d).busyNext := amid_log _ d _

theorem amid_xferNext (b : Byte) : (s.xferNext b).amid d = (s.amid d).xferNext b := amid_log _ d _

theorem amid_respond (r : Response) : (s.respond r).amid d = (s.amid d).respond r := by
  simp [State.amid, State.respond]

end

/-- A step works on what it reads, and carries the other fields along. -/
theorem perform_amid (m : Micro) (k : List Micro) (s : State) (d : Unread) :
    m.perform k (s.amid d) = (m.perform k s).amid d := by
  rw [← s.atSeq_self, amid_atSeq]
  cases m with
  | assert => rw [perform_assert, perform_assert, amid_atSeq, amid_csSet]
  | release a => rw [perform_release, perform_release, amid_atSeq, amid_csSet]; rfl
  | delay x => rw [perform_delay, perform_delay, amid_atSeq, amid_wait]
  | respond r => exact (amid_respond s d r).symm
  | busyRead left =>
    cases h : s.busyAt 0 with
    | false =>
      rw [perform_busyRead_ready (s.amid d) _ _ _ _ h, perform_busyRead_ready s _ _ _ _ h, amid_atSeq, amid_busyNext]
    | true =>
      cases left with
      | zero =>
        rw [perform_busyRead_timeout (s.amid d) _ _ _ h, perform_busyRead_timeout s _ _ _ h, amid_atSeq,
          amid_busyNext]
        rfl
      | succ n =>
        rw [perform_busyRead_again (s.amid d) _ _ _ _ h, perform_busyRead_again s _ _ _ _ h, amid_atSeq, amid_busyNext]
  | exchange b =>
    cases h : s.xferAt 0 with
    | some r =>
      rw [perform_exchange_ok (s.amid d) _ _ _ _ _ h, perform_exchange_ok s _ _ _ _ _ h, amid_atSeq, amid_xferNext]
    | none =>
      rw [perform_exchange_failed (s.amid d) _ _ _ _ h, perform_exchange_failed s _ _ _ _ h, amid_atSeq,
        amid_xferNext]
      rfl

theorem tick_amid {s t : State} (d : Unread) (h : tick s = .next t) : tick (s.amid d) = .next (t.amid d) := by
  obtain ⟨m, k, hs, rfl⟩ := tick_eq_next h
  have hseq : (s.amid d).seq = m :: k := hs
  rw [tick_of_seq hseq, perform_amid]

theorem ticks_amid {n : Nat} {s t : State} (d : Unread) (h : ticks n s = some t) :
    ticks n (s.amid d) = some (t.amid d) := by
  induction n generalizing s with
  | zero => cases h; rfl
  | succ n ih =>
    cases htick : tick s with
    | next u =>
      rw [ticks_succ htick] at h
      rw [ticks_succ (tick_amid d htick), ih h]
    | fault r => rw [ticks, htick] at h; cases h
    | refused r => rw [ticks, htick] at h; cases h

theorem HaltsIn.amid {n : Nat} {v t : State} (h : HaltsIn n v t) (d : Unread) : HaltsIn n (v.amid d) (t.amid d) :=
  ⟨ticks_amid d h.ends, h.idle, fun m hm => by
    obtain ⟨u, hu, hactive⟩ := h.active m hm
    exact ⟨u.amid d, ticks_amid d hu, hactive⟩⟩

/-! ### Outside the setters no operation reads a shadow (R35, R41) -/

/-- The fields of `s` that no step reads, with these shadows. -/
def Unread.shadows (s : State) (dc mt ma sy : Byte) : Unread := ⟨dc, mt, ma, sy, s.port, none, []⟩

theorem amid_shadows {s t : State} (dc mt ma sy : Byte) (hport : t.port = s.port) :
    t.amid (.shadows s dc mt ma sy) = { t with dcfilter := dc, modtype := mt, manchester := ma, syncmode := sy } := by
  simp [State.amid, Unread.shadows, hport]

/-- An instruction that is no setter starts alike in blocks that differ in their shadows. -/
theorem start_amid_shadows {i : Instr} (s : State) (dc mt ma sy : Byte)
    (hmt : ∀ x, i ≠ .setModType x) (hsy : ∀ x, i ≠ .setSyncMode x) (hma : ∀ b, i ≠ .setManchester b)
    (hdc : ∀ b, i ≠ .setDcFilter b) :
    start i (s.amid (.shadows s dc mt ma sy)) = (start i s).amid (.shadows s dc mt ma sy) := by
  cases i with
  | setModType x => exact absurd rfl (hmt x)
  | setSyncMode x => exact absurd rfl (hsy x)
  | setManchester b => exact absurd rfl (hma b)
  | setDcFilter b => exact absurd rfl (hdc b)
  | _ => rfl

/-- Settles O51: the two blocks start alike, and no step after that reads a shadow. -/
theorem onlySettersReadTheShadows : Obligations.OnlySettersReadTheShadows := by
  intro i s dc mt ma sy hmt hsy hma hdc
  obtain ⟨n, t, hexec, hhalts⟩ := exec_halts i s
  refine ⟨t, hexec, ?_⟩
  have hport : t.port = s.port := (exec_sameFixed hexec).port.trans (shadowWrite_sameButShadows i s.accept).port
  rw [← amid_shadows (s := s) dc mt ma sy rfl, ← amid_shadows (s := s) dc mt ma sy hport]
  refine exec_of_halts (n := n) ?_
  rw [start_amid_shadows s dc mt ma sy hmt hsy hma hdc]
  exact hhalts.amid _

/-! ### No operation reads the history (R20, R41) -/

/-- `s` with no response, no waiting command and no events. -/
def State.forgotten (s : State) : State := { s with resp := none, port := none, trace := [] }

/-- `s` with another history. -/
def State.withHistory (s : State) (r : Option Response) (q : Option Request) (tr : List Event) : State :=
  { s with resp := r, port := q, trace := tr }

/-- The shadows of `v` with this history. -/
def Unread.history (v : State) (r : Option Response) (q : Option Request) (tr : List Event) : Unread :=
  ⟨v.dcfilter, v.modtype, v.manchester, v.syncmode, q, r, tr⟩

/-- An instruction starts alike whatever the history. -/
theorem start_withHistory (i : Instr) (s : State) (r : Option Response) (q : Option Request) (tr : List Event) :
    start i (s.withHistory r q tr) =
      (start i s.forgotten).amid (.history (start i s.forgotten) r q tr) := by
  have hshadow : shadowWrite i (s.withHistory r q tr).accept = (shadowWrite i s.forgotten.accept).amid
      (.history (shadowWrite i s.forgotten.accept) r q tr) := by
    have hself : (s.withHistory r q tr).accept = s.forgotten.accept.amid (.history s.forgotten.accept r q tr) := by
      simp [State.withHistory, State.forgotten, State.accept, State.amid, Unread.history]
    rw [hself]
    cases i with
    | setModType x | setSyncMode x =>
      simp only [shadowWrite]
      split <;> rfl
    | _ => rfl
  rw [start_eq_atSeq, hshadow, start_eq_atSeq]
  generalize shadowWrite i s.forgotten.accept = v
  cases i <;> rfl

/-- Settles O52: both runs are the run from the forgotten history, amid their own. -/
theorem historyDoesNotMatter : Obligations.HistoryDoesNotMatter := by
  intro i s r q tr
  obtain ⟨n, t, hexec, hhalts⟩ := exec_halts i s.forgotten
  have hsame := exec_sameFixed hexec
  have hrun (r : Option Response) (q : Option Request) (tr : List Event) :
      exec i (s.withHistory r q tr) = .next (t.amid (.history (start i s.forgotten) r q tr)) := by
    refine exec_of_halts (n := n) ?_
    rw [start_withHistory]
    exact hhalts.amid _
  obtain ⟨a, hresp, -⟩ := runOp_resp_cases (operation_returns i) s.forgotten
  have hanswered : t.resp = some a := by
    rw [exec_eq_runOp] at hexec
    cases hexec
    exact hresp
  refine ⟨_, hrun s.resp s.port s.trace, (hrun r q tr).trans (congrArg Host.Outcome.next ?_)⟩
  simp [State.amid, Unread.history, newEvents, hanswered]

end Sys2Proof.Machine
end

