-- ==== Sys2Proof/Proofs/FrameRuns.lean ====
section
/-! PROOFS. Against the peer's answers every frame runs in exactly one way (R130, R131), and so does every plan of
frames (R278). -/

namespace Sys2Proof.Machine

/-! ### What a frame run says of the peer's answers -/

/-- How a frame ends, once the busy reads and the exchanges before its end are given. -/
inductive EndsSo (s : State) (nb nx : Nat) (sent : List Byte) (waits : Nat) (got : List Byte) : FrameEnd → Prop
  | notReady (hwaits : waits = s.params.readyPollLimit) (hgot : got = []) : EndsSo s nb nx sent waits got .notReady
  | complete (hwaits : waits < s.params.readyPollLimit) (hready : s.busyAt (nb + waits) = false)
      (hgot : got.length = sent.length) : EndsSo s nb nx sent waits got .complete
  | broken (hwaits : waits < s.params.readyPollLimit) (hready : s.busyAt (nb + waits) = false)
      (hgot : got.length < sent.length) (hfail : s.xferAt (nx + got.length) = none) :
      EndsSo s nb nx sent waits got .broken

theorem runsFrame_iff (s : State) (nb nx : Nat) (f : FrameRun) :
    s.runsFrame nb nx f = true ↔ (∀ k < f.waits, s.busyAt (nb + k) = true) ∧
      (∀ k (h : k < f.got.length), s.xferAt (nx + k) = some f.got[k]) ∧
      EndsSo s nb nx f.sent f.waits f.got f.ending := by
  rw [← gives_iff]
  obtain ⟨sent, waits, got, ending⟩ := f
  simp only [State.runsFrame, Bool.and_eq_true, List.all_eq_true, List.mem_range, and_assoc]
  refine and_congr_right fun _ => and_congr_right fun _ => ?_
  cases ending with
  | notReady =>
    simp only [Bool.and_eq_true, decide_eq_true_eq]
    exact ⟨fun ⟨h1, h2⟩ => .notReady h1 h2, fun h => by cases h; exact ⟨‹_›, ‹_›⟩⟩
  | complete =>
    simp only [Bool.and_eq_true, decide_eq_true_eq, Bool.not_eq_true']
    exact ⟨fun ⟨⟨h1, h2⟩, h3⟩ => .complete h1 h2 h3, fun h => by cases h; exact ⟨⟨‹_›, ‹_›⟩, ‹_›⟩⟩
  | broken =>
    simp only [Bool.and_eq_true, decide_eq_true_eq, Bool.not_eq_true']
    exact ⟨fun ⟨⟨⟨h1, h2⟩, h3⟩, h4⟩ => .broken h1 h2 h3 h4,
      fun h => by cases h; exact ⟨⟨⟨‹_›, ‹_›⟩, ‹_›⟩, ‹_›⟩⟩

/-! ### There is a run -/

/-- A ready-wait runs out, or a read of 0 ends it (R130). -/
theorem ready_or_timeout (busy : Nat → Bool) (n : Nat) :
    (∀ k < n, busy k = true) ∨ ∃ w < n, (∀ k < w, busy k = true) ∧ busy w = false := by
  induction n with
  | zero => exact .inl fun k hk => absurd hk k.not_lt_zero
  | succ n ih =>
    rcases ih with hall | ⟨w, hw, hfirst⟩
    · cases hn : busy n with
      | false => exact .inr ⟨n, n.lt_succ_self, hall, hn⟩
      | true => exact .inl fun k hk => (Nat.lt_succ_iff_lt_or_eq.1 hk).elim (hall k) fun heq => heq ▸ hn
    · exact .inr ⟨w, Nat.lt_succ_of_lt hw, hfirst⟩

/-- The exchanges all succeed, or one is the first to fail (R131). -/
theorem exchanged_or_broken (answer : Nat → Option Byte) (n : Nat) :
    ∃ got : List Byte, (∀ k (h : k < got.length), answer k = some got[k]) ∧
      (got.length = n ∨ got.length < n ∧ answer got.length = none) := by
  induction n with
  | zero => exact ⟨[], fun k h => absurd h k.not_lt_zero, .inl rfl⟩
  | succ n ih =>
    obtain ⟨got, hgot, rfl | ⟨hlt, hfail⟩⟩ := ih
    · cases hn : answer got.length with
      | none => exact ⟨got, hgot, .inr ⟨Nat.lt_succ_self _, hn⟩⟩
      | some r =>
        refine ⟨got ++ [r], fun k h => ?_, .inl (by simp)⟩
        rcases Nat.lt_or_ge k got.length with hk | hk
        · rw [List.getElem_append_left hk, hgot k hk]
        · obtain rfl : k = got.length := by simp at h; omega
          simp [hn]
    · exact ⟨got, hgot, .inr ⟨Nat.lt_succ_of_lt hlt, hfail⟩⟩

theorem exists_frameRun (s : State) (nb nx : Nat) (bytes : List Byte) :
    ∃ f : FrameRun, f.sent = bytes ∧ s.runsFrame nb nx f = true := by
  rcases ready_or_timeout (fun k => s.busyAt (nb + k)) s.params.readyPollLimit with hbusy | ⟨w, hw, hbusy, hready⟩
  · exact ⟨⟨bytes, s.params.readyPollLimit, [], .notReady⟩, rfl,
      (runsFrame_iff _ _ _ _).2 ⟨hbusy, fun k h => absurd h k.not_lt_zero, .notReady rfl rfl⟩⟩
  · obtain ⟨got, hgot, hlen | ⟨hlen, hfail⟩⟩ := exchanged_or_broken (fun k => s.xferAt (nx + k)) bytes.length
    · exact ⟨⟨bytes, w, got, .complete⟩, rfl, (runsFrame_iff _ _ _ _).2 ⟨hbusy, hgot, .complete hw hready hlen⟩⟩
    · exact ⟨⟨bytes, w, got, .broken⟩, rfl, (runsFrame_iff _ _ _ _).2 ⟨hbusy, hgot, .broken hw hready hlen hfail⟩⟩

/-! ### There is no other -/

section
variable {s : State} {nb nx : Nat} {sent got got' : List Byte} {w w' : Nat} {e e' : FrameEnd}

/-- Two ready-waits against the same answers: neither is shorter. -/
theorem EndsSo.waits_le (h : EndsSo s nb nx sent w got e) (h' : EndsSo s nb nx sent w' got' e')
    (hbusy' : ∀ k < w', s.busyAt (nb + k) = true) : w' ≤ w := by
  by_contra hlt
  have hbusy := hbusy' w (Nat.lt_of_not_le hlt)
  cases h with
  | notReady hw =>
    cases h' <;> omega
  | complete hw hready | broken hw hready =>
    rw [hready] at hbusy
    cases hbusy

/-- Two frames' exchanges against the same answers, after the same ready-wait: neither list is shorter. -/
theorem EndsSo.got_length_le (h : EndsSo s nb nx sent w got e) (h' : EndsSo s nb nx sent w got' e')
    (hgot' : ∀ k (h : k < got'.length), s.xferAt (nx + k) = some got'[k]) : got'.length ≤ got.length := by
  by_contra hlt
  have hanswer := hgot' got.length (Nat.lt_of_not_le hlt)
  cases h with
  | notReady hw =>
    cases h' with
    | notReady _ hnil => rw [hnil] at hlt; exact hlt (Nat.zero_le _)
    | complete hw' | broken hw' => omega
  | complete hw _ hlen =>
    cases h' with
    | notReady hw' => omega
    | complete _ _ hlen' | broken _ _ hlen' => omega
  | broken _ _ _ hfail =>
    rw [hfail] at hanswer
    cases hanswer

/-- The busy reads and the exchanges decide how a frame ends. -/
theorem EndsSo.ending_eq (h : EndsSo s nb nx sent w got e) (h' : EndsSo s nb nx sent w got e') : e = e' := by
  cases h with
  | notReady hw =>
    cases h' with
    | notReady => rfl
    | complete hw' | broken hw' => omega
  | complete hw _ hlen =>
    cases h' with
    | complete => rfl
    | notReady hw' => omega
    | broken _ _ hlen' => omega
  | broken hw _ hlen =>
    cases h' with
    | broken => rfl
    | notReady hw' => omega
    | complete _ _ hlen' => omega

end

theorem frameRun_unique {s : State} {nb nx : Nat} {f g : FrameRun} (hsent : f.sent = g.sent)
    (hf : s.runsFrame nb nx f = true) (hg : s.runsFrame nb nx g = true) : f = g := by
  obtain ⟨hfbusy, hfgot, hfend⟩ := (runsFrame_iff _ _ _ _).1 hf
  obtain ⟨hgbusy, hggot, hgend⟩ := (runsFrame_iff _ _ _ _).1 hg
  obtain ⟨sent, w, got, e⟩ := f
  obtain ⟨sent', w', got', e'⟩ := g
  cases hsent
  obtain rfl : w = w' := Nat.le_antisymm (hgend.waits_le hfend hfbusy) (hfend.waits_le hgend hgbusy)
  have hlen : got.length = got'.length :=
    Nat.le_antisymm (hgend.got_length_le hfend hfgot) (hfend.got_length_le hgend hggot)
  obtain rfl : got = got' := List.ext_getElem hlen fun k hk hk' => by
    have hfk := hfgot k hk
    rw [hggot k hk'] at hfk
    exact (Option.some.inj hfk).symm
  obtain rfl : e = e' := hfend.ending_eq hgend
  rfl

/-- Settles O14: the answers decide the ready-wait, then the exchanges, then the end. -/
theorem everyFrameRunsExactlyOneWay : Obligations.EveryFrameRunsExactlyOneWay :=
  fun s nb nx bytes => ⟨exists_frameRun s nb nx bytes, fun _ _ hf hg => frameRun_unique (hf.trans hg.symm)⟩

/-! ### Plans of frames (R278) -/

/-- Whatever the peer answers, a plan runs up to its end or to its first frame that fails. -/
theorem exists_planRun (plan : List (List Byte)) (s : State) (nb nx : Nat) :
    ∃ fs e, followPlan plan fs e = true ∧ s.runs nb nx fs = true := by
  induction plan generalizing nb nx with
  | nil => exact ⟨[], none, rfl, rfl⟩
  | cons bytes plan ih =>
    obtain ⟨f, hsent, hf⟩ := exists_frameRun s nb nx bytes
    by_cases hc : f.ending = .complete
    · obtain ⟨fs, e, hplan, hruns⟩ := ih (nb + f.busyReads) (nx + f.exchanged)
      exact ⟨f :: fs, e, by simp [followPlan, hsent, hc, hplan], by simp [State.runs, hf, hruns]⟩
    · exact ⟨[f], f.ending.error, by simp [followPlan, hsent, hc], by simp [State.runs, hf]⟩

end Sys2Proof.Machine
end

