-- ==== Sys2Proof/Proofs/BusDiscipline.lean ====
section
/-! PROOFS. Of every operation: the chip-select discipline of its events (R131, R133, R134), how many they can be at
most (R21), and its answer (R157, R270, R280). The first two are one law, `Paced`, of the pieces an operation is made
of. -/

namespace Sys2Proof.Machine

/-! ### The events of one frame (R130, R131) -/

theorem bracket_append (c : Bool) (es fs : List Event) :
    bracket c (es ++ fs) = (bracket c es).bind fun d => bracket d fs := by
  induction es generalizing c with
  | nil => rfl
  | cons e es ih =>
    cases e with
    | cs a | busy v | xfer b r | xferFail b =>
      simp only [List.cons_append, bracket, ih]
      split <;> rfl
    | delay d => exact ih c

theorem bracket_readyEvents (w : Nat) : bracket true (readyEvents w) = some true := by
  induction w with
  | zero => rfl
  | succ w ih => exact ih

theorem bracket_timeoutEvents : ∀ n : Nat, bracket true (timeoutEvents n) = some true
  | 0 | 1 => rfl
  | n + 2 => bracket_timeoutEvents (n + 1)

theorem bracket_exchangeEvents (sent got : List Byte) : bracket true (exchangeEvents sent got) = some true := by
  induction sent generalizing got with
  | nil => rfl
  | cons b sent ih =>
    cases got with
    | nil => rfl
    | cons r got => exact ih got

theorem bracket_frame (f : FrameRun) : bracket false f.events = some false := by
  obtain ⟨sent, w, got, ending⟩ := f
  cases ending <;>
    simp [FrameRun.events, bracket, bracket_append, bracket_readyEvents, bracket_timeoutEvents, bracket_exchangeEvents]

theorem readyEvents_length (w : Nat) : (readyEvents w).length = 2 * w + 1 := by
  induction w with
  | zero => rfl
  | succ w ih => simp only [readyEvents, List.length_cons, ih]; omega

theorem timeoutEvents_length_le : ∀ n : Nat, (timeoutEvents n).length ≤ 2 * n
  | 0 => Nat.le_refl 0
  | 1 => Nat.le_succ 1
  | n + 2 => by
    have ih := timeoutEvents_length_le (n + 1)
    simp only [timeoutEvents, List.length_cons]
    omega

theorem exchangeEvents_length_le (sent got : List Byte) : (exchangeEvents sent got).length ≤ got.length := by
  rw [exchangeEvents, List.length_zipWith]
  exact Nat.min_le_right _ _

theorem frame_events_length {s : State} {f : FrameRun} (h : s.runsFrame 0 0 f = true) :
    f.events.length ≤ frameBound s.params f.sent.length := by
  obtain ⟨-, -, hend⟩ := (runsFrame_iff s 0 0 f).1 h
  obtain ⟨sent, w, got, ending⟩ := f
  change EndsSo s 0 0 sent w got ending at hend
  have hexchanged := exchangeEvents_length_le sent got
  cases hend with
  | notReady hw hgot =>
    have hwait := timeoutEvents_length_le w
    simp only [FrameRun.events, frameBound, List.length_cons, List.length_append, List.length_nil]
    omega
  | complete hw _ hgot =>
    simp only [FrameRun.events, frameBound, List.length_cons, List.length_append, List.length_nil, readyEvents_length]
    omega
  | broken hw _ hgot =>
    simp only [FrameRun.events, frameBound, List.length_cons, List.length_append, List.length_nil, readyEvents_length]
    omega

/-! ### The law of the pieces of an operation -/

/-- The state a piece of an operation leaves, whether it ends with a value or has raised an error. -/
def finalState {α : Type} : EStateM.Result Err State α → State
  | .ok _ t => t
  | .error _ t => t

/-- From `s` to `t`: at most `n` events, which are balanced brackets if chip-select was released at the start, and it is
released at the end. -/
structure Emits (n : Nat) (s t : State) : Prop where
  params : t.params = s.params
  cs : t.cs = false
  events : ∃ evs, t.trace = s.trace ++ evs ∧ evs.length ≤ n ∧ (s.cs = false → bracket false evs = some false)

theorem Emits.refl {s : State} (hcs : s.cs = false) : Emits 0 s s :=
  ⟨rfl, hcs, [], (List.append_nil _).symm, Nat.le_refl 0, fun _ => rfl⟩

theorem Emits.trans {m n : Nat} {s t u : State} (h : Emits m s t) (g : Emits n t u) : Emits (m + n) s u := by
  obtain ⟨hp, hcs, es, htrace, hlen, hes⟩ := h
  obtain ⟨hp', hcs', fs, htrace', hlen', hfs⟩ := g
  refine ⟨hp'.trans hp, hcs', es ++ fs, by rw [htrace', htrace, List.append_assoc], ?_, fun hs => ?_⟩
  · rw [List.length_append]
    exact Nat.add_le_add hlen hlen'
  · rw [bracket_append, hes hs]
    exact hfs hcs

theorem Emits.mono {m n : Nat} {s t : State} (h : Emits m s t) (hmn : m ≤ n) : Emits n s t := by
  obtain ⟨hp, hcs, es, htrace, hlen, hes⟩ := h
  exact ⟨hp, hcs, es, htrace, hlen.trans hmn, hes⟩

/-- `x`, with these parameters, records at most `n` events on every path, keeps the bus discipline and leaves
chip-select released; `held` says whether it may start with chip-select asserted. -/
def Paced {α : Type} (p : Params) (held : Bool) (n : Nat) (x : Op α) : Prop :=
  ∀ s : State, s.params = p → (s.cs = true → held = true) → Emits n s (finalState (x s))

section
variable {α β : Type} {p : Params} {held : Bool} {m n : Nat}

theorem Paced.mono {x : Op α} (h : Paced p held m x) (hmn : m ≤ n) : Paced p held n x :=
  fun s hp hcs => (h s hp hcs).mono hmn

theorem released {s : State} (h : s.cs = true → false = true) : s.cs = false :=
  Bool.eq_false_iff.2 fun hcs => Bool.false_ne_true (h hcs)

theorem paced_pure (a : α) : Paced p false 0 (pure a : Op α) := fun _ _ hcs => .refl (released hcs)

/-- The first piece of a sequence leaves chip-select released for the second. -/
theorem Paced.bind {x : Op α} {f : α → Op β} (hx : Paced p held m x) (hf : ∀ a, Paced p false n (f a)) :
    Paced p held (m + n) (x >>= f) := by
  intro s hp hcs
  have hfirst := hx s hp hcs
  cases hs : x s with
  | ok a t =>
    rw [hs] at hfirst
    rw [bind_ok hs]
    exact hfirst.trans (hf a t (hfirst.params.trans hp) fun ht => absurd (hfirst.cs.symm.trans ht) Bool.false_ne_true)
  | error e t =>
    rw [hs] at hfirst
    rw [bind_error hs]
    exact hfirst.mono (Nat.le_add_right m n)

theorem paced_params_bind {f : Params → Op α} (h : Paced p held n (f p)) : Paced p held n (params >>= f) := by
  rintro s rfl hcs
  exact h s rfl hcs

theorem paced_ite {c : Prop} [Decidable c] {x y : Op α} (hx : c → Paced p held n x) (hy : ¬ c → Paced p held n y) :
    Paced p held n (if c then x else y) := by
  split
  · exact hx ‹_›
  · exact hy ‹_›

theorem paced_delay (d : DelayName) : Paced p false 1 (delay d) :=
  fun _ _ hcs => ⟨rfl, released hcs, [.delay d], rfl, Nat.le_refl 1, fun _ => rfl⟩

/-- Between frames an error is raised without an event (R19). -/
theorem paced_raise_free (e : Err) : Paced p false 0 (raise e : Op α) := by
  intro s _ hcs
  rw [raise_free s e (released hcs)]
  exact .refl (released hcs)

/-- R279: an error releases chip-select if it is asserted. -/
theorem paced_raise (e : Err) : Paced p held 1 (raise e : Op α) := by
  intro s _ _
  cases hcs : s.cs with
  | false =>
    rw [raise_free s e hcs]
    exact (Emits.refl hcs).mono (Nat.zero_le 1)
  | true =>
    rw [raise_held s e hcs]
    exact ⟨rfl, rfl, [.cs false], rfl, Nat.le_refl 1, fun h => Bool.noConfusion (hcs.symm.trans h)⟩

/-- R131: a frame, from either level. -/
theorem paced_frame (bytes : List Byte) : Paced p held (frameBound p bytes.length) (frame bytes) := by
  rintro s rfl -
  obtain ⟨f, rfl, hf⟩ := exists_frameRun s 0 0 bytes
  have hafter : Emits (frameBound s.params f.sent.length) s (s.after [f] f.events) :=
    ⟨rfl, rfl, f.events, rfl, frame_events_length hf, fun _ => bracket_frame f⟩
  rw [frame_runs s f hf]
  cases f.ending.error <;> exact hafter

/-- A frame whose answers, or some of them, are the value. -/
theorem paced_frame_pure (bytes : List Byte) (g : List Byte → α) :
    Paced p held (frameBound p bytes.length) (frame bytes >>= fun rx => pure (g rx)) :=
  (paced_frame bytes).bind fun _ => paced_pure _

/-- A shadow write records no event (R35). -/
theorem paced_update_bind {g : State → State} {x : Op α}
    (hg : ∀ s, (g s).params = s.params ∧ (g s).cs = s.cs ∧ (g s).trace = s.trace) (hx : Paced p held n x) :
    Paced p held n (update g >>= fun _ => x) := by
  rintro s rfl hcs
  obtain ⟨hp, hc, htrace⟩ := hg s
  obtain ⟨hp', hc', hevs⟩ := hx (g s) hp (hc ▸ hcs)
  rw [htrace, hc] at hevs
  exact ⟨hp'.trans hp, hc', hevs⟩

/-! ### The primitives (R151 to R156) -/

theorem paced_readSingle (a : Byte) : Paced p held (frameBound p 2) (readSingle a) :=
  paced_params_bind (paced_frame_pure [hdr a p.peer.readBit, p.dummyByte] dataPhase)

theorem paced_readBurst (a : Byte) (k : Nat) : Paced p held (frameBound p (k + 1)) (readBurst a k) := by
  have hframe := paced_frame_pure (p := p) (held := held)
    (hdr a p.peer.readBurstBits :: List.replicate k p.dummyByte) dataPhase
  rw [List.length_cons, List.length_replicate] at hframe
  exact paced_params_bind hframe

theorem paced_writeSingle (a v : Byte) : Paced p held (frameBound p 2) (writeSingle a v) :=
  paced_frame_pure [a, v] fun _ => []

theorem paced_writeBurst (a : Byte) (vs : List Byte) : Paced p held (frameBound p (vs.length + 1)) (writeBurst a vs) :=
  paced_params_bind (paced_frame_pure (hdr a p.peer.burstBit :: vs) fun _ => [])

theorem paced_strobe (v : Byte) : Paced p held (frameBound p 1) (strobe v) :=
  paced_frame_pure [v] fun _ => []

theorem paced_readStatus (a : Byte) : Paced p held (frameBound p 2) (readStatus a) :=
  (paced_readSingle a).bind fun _ => paced_pure _

/-! ### The operations (R190 to R247) -/

theorem paced_writeModem : Paced p held (frameBound p 2) writeModem :=
  paced_params_bind fun s hp hcs => paced_writeSingle p.peer.regMdmcfg2 s.packed s hp hcs

theorem frameBound_pos (p : Params) (k : Nat) : 1 ≤ frameBound p k := by rw [frameBound]; omega

theorem paced_setModulationType (x : Byte) : Paced p held (2 * frameBound p 2) (setModulationType x) := by
  refine paced_ite (fun _ => ?_) fun _ => (paced_raise _).mono (by have := frameBound_pos p 2; omega)
  rw [Nat.two_mul]
  exact paced_update_bind (fun _ => ⟨rfl, rfl, rfl⟩) (paced_writeModem.bind fun _ =>
    paced_params_bind (paced_writeSingle _ _))

theorem paced_setSyncMode (x : Byte) : Paced p held (frameBound p 2) (setSyncMode x) :=
  paced_ite (fun _ => paced_update_bind (fun _ => ⟨rfl, rfl, rfl⟩) paced_writeModem) fun _ =>
    (paced_raise _).mono (frameBound_pos p 2)

theorem paced_setManchester (b : Bool) : Paced p held (frameBound p 2) (setManchester b) :=
  paced_update_bind (fun _ => ⟨rfl, rfl, rfl⟩) paced_writeModem

theorem paced_setDCFilter (b : Bool) : Paced p held (frameBound p 2) (setDCFilter b) :=
  paced_update_bind (fun _ => ⟨rfl, rfl, rfl⟩) paced_writeModem

theorem paced_setFrequency (hz : Nat) : Paced p held (frameBound p 4) (setFrequency hz) :=
  paced_params_bind (paced_ite (fun _ => paced_writeBurst _ (freqBytes _)) fun _ =>
    (paced_raise _).mono (frameBound_pos p 4))

theorem paced_getFrequency : Paced p held (frameBound p 4) getFrequency :=
  paced_params_bind (paced_readBurst _ 3)

theorem paced_setTxPower (level : Nat) : Paced p held (frameBound p 9 + frameBound p 2) (setTxPower level) :=
  paced_params_bind (paced_ite (fun _ => (paced_raise _).mono (by have := frameBound_pos p 2; omega)) fun _ =>
    (paced_writeBurst _ (powerTable _)).bind fun _ => paced_writeSingle _ _)

/-- R230: each of the reads is a frame and a delay. -/
theorem paced_pollState (e : PollExit) (k : Nat) : Paced p false (k * (frameBound p 2 + 1)) (pollState e k) := by
  induction k with
  | zero => exact (paced_raise_free _).mono (Nat.zero_le _)
  | succ k ih =>
    rw [Nat.succ_mul, Nat.add_comm]
    refine paced_params_bind (((paced_readStatus _).bind (n := 1 + k * (frameBound p 2 + 1)) fun _ => ?_).mono
      (by omega))
    exact paced_ite (fun _ => (paced_pure ()).mono (Nat.zero_le _)) fun _ =>
      paced_ite (fun _ => (paced_delay _).bind fun _ => ih) fun _ => ih.mono (Nat.le_add_left _ _)

theorem paced_awaitState (e : PollExit) : Paced p false (pollBound p) (awaitState e p.statePollLimit) :=
  (paced_pollState e p.statePollLimit).bind fun _ => paced_pure _

theorem paced_enterReceive : Paced p held (frameBound p 1 + pollBound p) enterReceive :=
  paced_params_bind ((paced_strobe _).bind fun _ => paced_awaitState .isRx)

theorem paced_enterTransmit : Paced p held (frameBound p 1 + pollBound p) enterTransmit :=
  paced_params_bind ((paced_strobe _).bind fun _ => paced_awaitState .isTx)

theorem paced_sendPacket (b : List Byte) :
    Paced p held (3 * frameBound p 1 + frameBound p (b.length + 2) + pollBound p) (sendPacket b) := by
  refine paced_params_bind (paced_ite (fun _ => (paced_raise _).mono ?_) fun _ => ?_)
  · have := frameBound_pos p 1
    omega
  · refine ((paced_strobe _).bind fun _ => (paced_strobe _).bind fun _ =>
      (paced_writeBurst _ (framedPayload b)).bind fun _ => (paced_strobe _).bind fun _ =>
        paced_awaitState .leftTx).mono ?_
    simp only [framedPayload, List.length_cons, Nat.add_assoc, Nat.reduceAdd]
    omega

theorem frameBound_mono (p : Params) {j k : Nat} (h : j ≤ k) : frameBound p j ≤ frameBound p k := by
  rw [frameBound, frameBound]; omega

/-- R242. -/
theorem paced_healOverflow : Paced p false (2 * frameBound p 1) (healOverflow p) := by
  rw [Nat.two_mul]
  exact (paced_strobe _).bind fun _ => (paced_strobe _).bind fun _ => paced_pure _

/-- R241: a count is at most 127. -/
theorem paced_readFifo : Paced p false (frameBound p 2 + frameBound p 128) (readFifo p) :=
  (paced_readStatus _).bind fun rxbytes => paced_ite (fun _ => (paced_pure _).mono (Nat.zero_le _)) fun _ =>
    (paced_readBurst _ _).mono (frameBound_mono p (Nat.succ_le_succ (rxCount_le rxbytes)))

theorem paced_receivePacket : Paced p held (2 * frameBound p 2 + frameBound p 128) receivePacket := by
  have hheal : 2 * frameBound p 1 ≤ frameBound p 2 + frameBound p 128 := by simp only [frameBound]; omega
  have hrest : ∀ b, Paced p false (frameBound p 2 + frameBound p 128) (receiveIn p b) := fun _ =>
    paced_ite (fun _ => paced_healOverflow.mono hheal) fun _ => paced_readFifo
  exact paced_params_bind (((paced_readStatus _).bind hrest).mono (by omega))

/-- Every operation but the reset, whose sequence begins with a release (R134). -/
theorem paced_operation {i : Instr} (hi : i ≠ .reset) : Paced p held (eventBound p i) (operation i) := by
  cases i with
  | reset => exact absurd rfl hi
  | transact bs => exact paced_frame bs
  | readSingle | hdrReadSingle | hdrStatusRead => exact paced_readSingle _
  | readBurst | hdrReadBurst => exact paced_readBurst _ _
  | writeSingle | hdrWriteSingle => exact paced_writeSingle _ _
  | writeBurst | hdrWriteBurst => exact paced_writeBurst _ _
  | setModType x => exact paced_setModulationType x
  | setSyncMode x => exact paced_setSyncMode x
  | setManchester b => exact paced_setManchester b
  | setDcFilter b => exact paced_setDCFilter b
  | setFrequency hz => exact paced_setFrequency hz.toNat
  | getFrequency => exact paced_getFrequency
  | enterReceive => exact paced_enterReceive
  | enterTransmit => exact paced_enterTransmit
  | sendPacket b => exact paced_sendPacket b
  | receivePacket => exact paced_receivePacket
  | setTxPower level => exact paced_setTxPower level.toNat
  | _ => exact (paced_strobe _).mono (frameBound_mono p (Nat.le_succ 1))

end

/-! ### The reset sequence (R134, R135) -/

/-- What the reset sequence does to chip-select and the trace, from every state: a release, and then balanced
brackets. -/
structure EmitsReset (s t : State) : Prop where
  cs : t.cs = false
  events : ∃ evs, t.trace = s.trace ++ .cs false :: evs ∧ evs.length ≤ 6 + 4 * s.params.readyPollLimit ∧
    bracket false evs = some false

/-- The ready-wait a case of the reset sequence ends with, and the events after the reset byte's exchange. -/
theorem emitsReset_of_events {s t : State} {nb nx : Nat} {evs : List Event}
    (ht : t = (s.withCs false).drawn nb nx (resetLead ++ evs))
    (hlen : evs.length ≤ 3 + 4 * s.params.readyPollLimit) (hevs : bracket true evs = some false) : EmitsReset s t := by
  subst ht
  refine ⟨rfl, .delay .rst1 :: .cs true :: .delay .rst2 :: evs, rfl, ?_, hevs⟩
  simp only [List.length_cons]
  omega

theorem emitsReset_deviceReset (s : State) : EmitsReset s (finalState (deviceReset s)) := by
  rcases ready_or_timeout s.busyAt s.params.readyPollLimit with hbusy | ⟨w1, hw1, hbusy, hready⟩
  · rw [deviceReset_first_wait_timeout hbusy, List.append_assoc]
    refine emitsReset_of_events rfl ?_ (by rw [bracket_append, bracket_timeoutEvents]; rfl)
    have := timeoutEvents_length_le s.params.readyPollLimit
    simp only [List.length_append, List.length_cons, List.length_nil]
    omega
  cases hgot : s.xferAt 0 with
  | none =>
    rw [deviceReset_exchange_failed hw1 hbusy hready hgot, List.append_assoc]
    refine emitsReset_of_events rfl ?_ (by rw [bracket_append, bracket_readyEvents]; rfl)
    simp only [List.length_append, List.length_cons, List.length_nil, readyEvents_length]
    omega
  | some r =>
    rcases ready_or_timeout (fun k => s.busyAt (w1 + 1 + k)) s.params.readyPollLimit with
      hbusy2 | ⟨w2, hw2, hbusy2, hready2⟩
    · rw [deviceReset_second_wait_timeout hw1 hbusy hready hgot hbusy2]
      simp only [List.append_assoc]
      refine emitsReset_of_events rfl ?_ (by simp [bracket_append, bracket_readyEvents, bracket_timeoutEvents, bracket])
      have := timeoutEvents_length_le s.params.readyPollLimit
      simp only [List.length_append, List.length_cons, List.length_nil, readyEvents_length]
      omega
    · rw [deviceReset_succeeds hw1 hbusy hready hgot hw2 hbusy2 hready2]
      simp only [List.append_assoc]
      refine emitsReset_of_events rfl ?_ (by simp [bracket_append, bracket_readyEvents, bracket])
      simp only [List.length_append, List.length_cons, List.length_nil, readyEvents_length]
      omega

theorem eventBound_reset (p : Params) : eventBound p .reset = 7 + 4 * p.readyPollLimit := rfl

theorem emitsReset_operation (s : State) : EmitsReset s (finalState (operation .reset s)) := emitsReset_deviceReset s

/-! ### From acceptance to the response -/

theorem runOp_cs_trace (op : Op (List Byte)) (s : State) :
    (runOp op s).cs = (finalState (op s.accept)).cs ∧ (runOp op s).trace = (finalState (op s.accept)).trace := by
  rw [runOp]
  cases op s.accept <;> exact ⟨rfl, rfl⟩

/-- Settles O41: the reset by its four cases, every other operation by the law of its pieces. -/
theorem chipSelectIsSymmetric : Obligations.ChipSelectIsSymmetric := by
  intro i s t hcs h
  rw [exec_eq_runOp] at h
  cases h
  obtain ⟨hlevel, htrace⟩ := runOp_cs_trace (operation i) s
  rw [hlevel, htrace]
  by_cases hi : i = .reset
  · subst hi
    obtain ⟨hend, evs, hevs, -, hbracket⟩ := emitsReset_operation s.accept
    exact ⟨hend, _, hevs, by rw [if_pos rfl]; exact ⟨rfl, hbracket⟩⟩
  · have hpaced := paced_operation (p := s.params) (held := false) hi
    obtain ⟨-, hend, evs, hevs, -, hbracket⟩ := hpaced s.accept rfl fun h =>
      absurd (hcs.symm.trans h) Bool.false_ne_true
    exact ⟨hend, evs, hevs, by rw [if_neg hi]; exact hbracket hcs⟩

/-- Settles O53: the bound of the law, from either chip-select level. -/
theorem everyOperationIsBounded : Obligations.EveryOperationIsBounded := by
  intro i s _
  refine ⟨_, exec_eq_runOp i s, ?_⟩
  rw [newEvents, (runOp_cs_trace (operation i) s).2]
  by_cases hi : i = .reset
  · subst hi
    obtain ⟨-, evs, hevs, hlen, -⟩ := emitsReset_operation s.accept
    rw [hevs, accept_trace, List.drop_left, List.length_cons, eventBound_reset]
    rw [accept_params] at hlen
    omega
  · obtain ⟨-, -, evs, hevs, hlen, -⟩ := paced_operation (p := s.params) (held := true) hi s.accept rfl fun _ => rfl
    rw [hevs, accept_trace, List.drop_left]
    exact hlen

/-! ### The answer (R157, R270, R278, R280) -/

theorem mayRaise_of_frameError (i : Instr) {e : Err} (h : FrameError e) : mayRaise i e = true := by
  rcases h with rfl | rfl <;> rfl

theorem mayRaise_of_argumentError {p : Params} {i : Instr} {e : Err} (h : ArgumentError p i e) :
    mayRaise i e = true := by
  cases h with
  | tooLarge => rfl
  | invalid h =>
    cases i with
    | setModType | setSyncMode | setFrequency | setTxPower => rfl
    | _ => cases h

/-- R275: only the operations that poll a state raise the poll's error. -/
theorem mayRaise_of_actionError {i : Instr} {e : Err} (h : ActionError e)
    (hpoll : i = .enterReceive ∨ i = .enterTransmit ∨ ∃ b, i = .sendPacket b) : mayRaise i e = true := by
  rcases h with hframe | rfl
  · exact mayRaise_of_frameError i hframe
  · rcases hpoll with rfl | rfl | ⟨b, rfl⟩ <;> rfl

theorem operation_mayRaise {i : Instr} {s t : State} {e : Err} (h : operation i s = .error e t) :
    mayRaise i e = true := by
  by_cases hargument : ∃ e', ArgumentError s.params i e'
  · obtain ⟨e', he'⟩ := hargument
    rw [operation_of_argumentError he'] at h
    cases h
    exact mayRaise_of_argumentError he'
  have haccepted := not_exists.1 hargument
  have haction := operation_error_of_accepted haccepted h
  have hvalid : ¬ invalidArgument s.params i = true := fun hi => haccepted _ (.invalid hi)
  cases i with
  | enterReceive => exact mayRaise_of_actionError haction (.inl rfl)
  | enterTransmit => exact mayRaise_of_actionError haction (.inr (.inl rfl))
  | sendPacket b => exact mayRaise_of_actionError haction (.inr (.inr ⟨b, rfl⟩))
  | transact bs => exact mayRaise_of_frameError _ (frame_raises bs s e t h)
  | reset => exact mayRaise_of_frameError _ (deviceReset_raises s e t h)
  | readSingle | hdrReadSingle | hdrStatusRead => exact mayRaise_of_frameError _ (readSingle_raises _ s e t h)
  | readBurst | hdrReadBurst => exact mayRaise_of_frameError _ (readBurst_raises _ _ s e t h)
  | writeSingle | hdrWriteSingle => exact mayRaise_of_frameError _ (writeSingle_raises _ _ s e t h)
  | writeBurst | hdrWriteBurst => exact mayRaise_of_frameError _ (writeBurst_raises _ _ s e t h)
  | setModType x =>
    rw [invalidArgument_setModType_iff, Bool.not_eq_false] at hvalid
    exact mayRaise_of_frameError _ (setModulationType_error hvalid h)
  | setSyncMode x =>
    rw [invalidArgument_setSyncMode_iff, Bool.not_eq_false] at hvalid
    exact mayRaise_of_frameError _ (setSyncMode_error hvalid h)
  | setManchester b => exact mayRaise_of_frameError _ (setManchester_raises b s e t h)
  | setDcFilter b => exact mayRaise_of_frameError _ (setDCFilter_raises b s e t h)
  | setFrequency hz =>
    rw [invalidArgument_setFrequency_iff, Nat.not_le] at hvalid
    exact mayRaise_of_frameError _ (setFrequency_error hvalid h)
  | getFrequency => exact mayRaise_of_frameError _ (getFrequency_raises s e t h)
  | receivePacket => exact mayRaise_of_frameError _ (receivePacket_raises s e t h)
  | setTxPower level =>
    rw [invalidArgument_setTxPower_iff, Nat.not_lt] at hvalid
    exact mayRaise_of_frameError _ (setTxPower_error hvalid h)
  | _ => exact mayRaise_of_frameError _ (strobe_raises _ s e t h)

theorem operation_error_ne_ok {i : Instr} {s t : State} {e : Err} (h : operation i s = .error e t) : e ≠ .ok := by
  rcases operation_error_cases h with hargument | (rfl | rfl) | rfl
  · cases hargument <;> exact nofun
  all_goals exact nofun

/-- The response of a run: the operation's value, or the error it raised and no data (R19, R101). -/
theorem runOp_answers (i : Instr) (s : State) :
    ∃ r, (runOp (operation i) s).resp = some r ∧ mayRaise i r.err = true ∧ (r.err ≠ .ok → r.data = []) ∧
      (r.err = .ok → ReturnedData i r.data) := by
  rw [runOp]
  cases h : operation i s.accept with
  | ok d t =>
    exact ⟨⟨.ok, d⟩, rfl, rfl, fun hne => absurd rfl hne, fun _ => operation_returns i s.accept d t h⟩
  | error e t =>
    exact ⟨⟨e, []⟩, rfl, operation_mayRaise h, fun _ => rfl, fun hok => absurd hok (operation_error_ne_ok h)⟩

theorem runOp_at_rest (op : Op (List Byte)) (s : State) :
    (runOp op s).active = false ∧ (runOp op s).seq = [] ∧ (runOp op s).rx = [] := by
  rw [runOp]
  cases op s.accept <;> exact ⟨rfl, rfl, rfl⟩

/-- Settles O47: the response of the run, whose chip-select is released by the discipline. -/
theorem everyOperationAnswers : Obligations.EveryOperationAnswers := by
  intro i s hcs
  obtain ⟨r, hresp, hmay, hdata, -⟩ := runOp_answers i s
  obtain ⟨hactive, hseq, hrx⟩ := runOp_at_rest (operation i) s
  obtain ⟨hreleased, -⟩ := chipSelectIsSymmetric i s _ hcs (exec_eq_runOp i s)
  exact ⟨_, r, exec_eq_runOp i s, hresp, hmay, hdata, (idle_iff _).2 ⟨hactive, hreleased, hseq, hrx⟩⟩

/-- Settles O11: the data of a response without an error is what the operation returned. -/
theorem dataReturnedPerOperation : Obligations.DataReturnedPerOperation := by
  intro i s t d h hresp
  rw [exec_eq_runOp] at h
  cases h
  obtain ⟨r, hr, -, -, hreturned⟩ := runOp_answers i s
  rw [hr] at hresp
  cases hresp
  have hdata : ReturnedData i d := hreturned rfl
  cases i <;> exact hdata

end Sys2Proof.Machine
end

