-- ==== Sys2Proof/Proofs/Frequency.lean ====
section
/-! PROOFS. The frequency word (R200 to R205): its round trip, its corners and its bytes. -/

namespace Sys2Proof.Machine

/-! ### The round trip (R205) -/

/-- R200: twice the word is within one crystal of the scaled frequency. -/
theorem freqEncode_bounds {fXosc : Nat} (hz : Nat) (hpos : 0 < fXosc) :
    2 * (freqEncode fXosc hz * fXosc) ≤ 131072 * hz + fXosc ∧
      131072 * hz ≤ 2 * (freqEncode fXosc hz * fXosc) + fXosc := by
  have hdiv := Nat.div_add_mod (2 * hz * 65536 + fXosc) (2 * fXosc)
  have hmod := Nat.mod_lt (2 * hz * 65536 + fXosc) (Nat.mul_pos Nat.two_pos hpos)
  have hquot : 2 * fXosc * ((2 * hz * 65536 + fXosc) / (2 * fXosc)) = 2 * (freqEncode fXosc hz * fXosc) := by
    rw [freqEncode, Nat.mul_assoc, Nat.mul_comm fXosc]
  rw [hquot] at hdiv
  omega

theorem freqDecode_freqEncode {fXosc : Nat} (hz : Nat) (hpos : 0 < fXosc) :
    |freqDecode fXosc (freqEncode fXosc hz) - ((hz : Nat) : Rat)| ≤ ((fXosc : Nat) : Rat) / ((2 ^ 17 : Nat) : Rat) := by
  obtain ⟨hupper, hlower⟩ := freqEncode_bounds hz hpos
  have hupper' : (2 : Rat) * (freqEncode fXosc hz * fXosc : Nat) ≤ 131072 * hz + fXosc := by exact_mod_cast hupper
  have hlower' : (131072 : Rat) * hz ≤ 2 * (freqEncode fXosc hz * fXosc : Nat) + fXosc := by exact_mod_cast hlower
  rw [freqDecode, abs_le]
  norm_num only [Nat.cast_ofNat]
  constructor <;> linarith

/-- Settles O31: the quotient's remainder is less than the divisor, which is two crystals. -/
theorem frequencyRoundTrip : Obligations.FrequencyRoundTrip := fun _ hz hpos _ => freqDecode_freqEncode hz hpos

/-! ### The corners (R200, R202) -/

/-- At 26 MHz a tie would make an odd number of half crystals a multiple of 1024. -/
theorem no_tie_26MHz (hz n : Nat) :
    ((hz * 65536 : Nat) : Rat) / ((26000000 : Nat) : Rat) ≠ ((n : Nat) : Rat) + 1 / 2 := by
  intro h
  have hscaled : (131072 * hz : Rat) = 26000000 * (2 * n + 1) := by
    rw [div_eq_iff (by norm_num)] at h
    push_cast at h
    linarith
  have hnat : 131072 * hz = 26000000 * (2 * n + 1) := by exact_mod_cast hscaled
  omega

/-- A word overflows 24 bits from this scaled frequency on. -/
theorem overflow_iff {fXosc : Nat} (hz : Nat) (hpos : 0 < fXosc) :
    2 ^ 24 ≤ freqEncode fXosc hz ↔ 2 ^ 24 * (2 * fXosc) ≤ 2 * hz * 65536 + fXosc :=
  Nat.le_div_iff_mul_le (Nat.mul_pos Nat.two_pos hpos)

/-- R202: at 26 MHz the largest operand that encodes. -/
theorem fits_26MHz_iff (hz : Nat) : freqEncode 26000000 hz < 2 ^ 24 ↔ hz ≤ 6655999801 := by
  rw [← Nat.not_le, overflow_iff hz (by decide)]
  omega

/-- R202: the largest 32-bit operand overflows at these crystals, and no operand at any other. -/
theorem some_overflow_iff {fXosc : Nat} (hpos : 0 < fXosc) :
    (∃ hz : BitVec 32, 2 ^ 24 ≤ freqEncode fXosc hz.toNat) ↔ fXosc ≤ 16777216 := by
  constructor
  · rintro ⟨hz, h⟩
    rw [overflow_iff _ hpos] at h
    omega
  · intro h
    refine ⟨BitVec.allOnes 32, (overflow_iff _ hpos).2 ?_⟩
    rw [BitVec.toNat_allOnes]
    omega

/-- Settles O32: the tie and the two overflow corners, and four words evaluated. -/
theorem frequencyOverflowCorners : Obligations.FrequencyOverflowCorners :=
  ⟨no_tie_26MHz, fits_26MHz_iff, fun _ => some_overflow_iff, by decide, by decide, by decide, by decide⟩

/-! ### The bytes of the word (R63, R201, R204) -/

theorem freqWord_eq (b0 b1 b2 : Byte) : freqWord b0 b1 b2 = b0.toNat * 65536 + b1.toNat * 256 + b2.toNat := by
  have happend : (b0 ++ b1 ++ b2).toNat = freqWord b0 b1 b2 := by
    rw [freqWord, BitVec.toNat_append, BitVec.toNat_append, Nat.shiftLeft_or_distrib, ← Nat.shiftLeft_add]
  rw [← happend, toNat_append_eq_mul_two_pow_add, toNat_append_eq_mul_two_pow_add]
  omega

theorem freqWord_freqBytes {w : Nat} (hw : w < 2 ^ 24) :
    freqWord (BitVec.ofNat 8 (w / 65536)) (BitVec.ofNat 8 (w / 256)) (BitVec.ofNat 8 w) = w := by
  rw [freqWord_eq]
  simp only [BitVec.toNat_ofNat]
  omega

theorem freqBytes_freqWord (b0 b1 b2 : Byte) : freqBytes (freqWord b0 b1 b2) = [b0, b1, b2] := by
  rw [freqBytes_eq_div, freqWord_eq]
  simp only [List.cons.injEq, and_true, ← BitVec.toNat_inj, BitVec.toNat_ofNat]
  omega

/-- Settles O33: the bytes are the base-256 digits of the word, high digit first. -/
theorem frequencyBytesAreBigEndian : Obligations.FrequencyBytesAreBigEndian := by
  refine ⟨fun w hw => ⟨_, _, _, freqBytes_eq_div w, freqWord_freqBytes hw, ?_⟩, freqBytes_freqWord⟩
  rw [← freqWord_eq, freqWord_freqBytes hw]

end Sys2Proof.Machine
end

