-- ==== Sys2Proof/Proofs/HostAndPolls.lean ====
section
/-! PROOFS. How a waiting command comes to run (R100, R104, R284), what the state polls read (R45, R230 to R236), and
the false variant of 95_test_vectors about sendPacket (R313). -/

namespace Sys2Proof.Machine

/-! ### A waiting command (R100, R104) -/

theorem step_of_active {s : State} (h : s.active = true) : step s = tick s ∧ fineStep s = tick s := by
  simp only [step, fineStep, h, if_true, and_self]

theorem step_of_nothing_waiting {s : State} (h : s.active = false) (hport : s.port = none) :
    step s = .next s ∧ fineStep s = .next s := by
  simp [step, fineStep, h, hport]

theorem step_of_request {s : State} {r : Request} {i : Instr} (h : s.active = false) (hport : s.port = some r)
    (hr : decodeRequest r = .ok i) : step s = exec i s.takePort ∧ fineStep s = .next (start i s.takePort) := by
  simp [step, fineStep, h, hport, hr]

/-- R104: at the sequencer's grain a command that does not decode is answered by the step after its acceptance. -/
theorem fineStep_of_illegal_command {s : State} {c : List Byte} {e : DecodeError} (h : s.active = false)
    (hport : s.port = some (.command c)) (hc : decodeCommand c = .error e) :
    fineStep s = .next (s.takePort.accept.atSeq [.respond ⟨.illegalCommand, []⟩] s.rx) := by
  simp [fineStep, h, hport, hc, State.atSeq, State.takePort, State.accept]

/-- Settles O12: the two steps of an idle block by what waits, and of an active one by the sequencer. -/
theorem stepRunsTheDecodedInstruction : Obligations.StepRunsTheDecodedInstruction :=
  ⟨fun _ _ _ hidle hport hc => step_of_request hidle hport hc,
    fun _ _ hidle hport => step_of_request hidle hport rfl,
    fun _ _ _ hidle hport hc => ⟨step_of_illegal_command hidle hport hc, _,
      fineStep_of_illegal_command hidle hport hc, rfl, rfl⟩,
    fun _ hidle hport => step_of_nothing_waiting hidle hport, fun _ hactive => step_of_active hactive, rfl⟩

theorem issue_of_active {s : State} (c : List Byte) (h : s.active = true) :
    issue c s = .refused .commandWhileActive := by
  rw [issue, if_pos h]

theorem issue_of_ready {s : State} (c : List Byte) (h : s.active = false) (hport : s.port = none) :
    issue c s = .next { s with port := some (.command c) } := by
  simp [issue, h, hport]

/-- A port that was empty is empty again once the command issued onto it is taken. -/
theorem takePort_issued {s : State} (c : List Byte) (hport : s.port = none) :
    ({ s with port := some (.command c) } : State).takePort = s := by
  rw [State.takePort, ← hport]

/-- Settles O13: an idle block takes the command, and the next step runs it on the block as it was. -/
theorem commandsAreTakenOnlyWhenIdle : Obligations.CommandsAreTakenOnlyWhenIdle := by
  refine ⟨fun s c h => issue_of_active c h, fun s c i h hport hc => ⟨_, issue_of_ready c h hport, ?_⟩⟩
  obtain ⟨hstep, -⟩ := step_of_request (s := { s with port := some (.command c) }) h rfl hc
  rw [hstep, takePort_issued c hport]

/-! ### What the state polls read (R45, R230 to R236) -/

theorem radioState_setWidth : ∀ b : Byte, (radioState b).setWidth 8 = b &&& 0x1F := by decide

theorem state_of_got {f : FrameRun} {status b : Byte} (h : f.got = [status, b]) : f.state = radioState b := by
  rw [FrameRun.state, h]
  rfl

theorem isRx_done_iff (t : PeerTable) (m : RadioState) : PollExit.isRx.done t m = true ↔ m = t.msRx := by
  simp [PollExit.done]

theorem isTx_done_iff (t : PeerTable) (m : RadioState) : PollExit.isTx.done t m = true ↔ m = t.msTx := by
  simp [PollExit.done]

/-- Settles O57: the mask, the byte it is taken from, the three exits and the codes of R16. -/
theorem statePollExitsReadTheMaskedState : Obligations.StatePollExitsReadTheMaskedState :=
  ⟨radioState_setWidth, fun _ _ b h => (congrArg _ (state_of_got h)).trans (radioState_setWidth b),
    fun t m => ⟨isRx_done_iff t m, isTx_done_iff t m, leftTx_done_iff t m⟩, by decide, rfl, rfl, rfl, rfl⟩

/-! ### The false variant (R313) -/

/-- V-RC7: an idle block whose peer is never busy and reads MARCSTATE as IDLE (01) at once. -/
def neverInTx : State :=
  { State.reset with
    params := ⟨26000000, 64, 1, 1, 0x00, true, Config.cc1101⟩
    busyIn := [false, false, false, false, false]
    xferIn := [some 0x0F, some 0x0F, some 0x0F, some 0x0F, some 0x0F, some 0x0F, some 0x01] }

/-- An event that no status read of TX could have recorded. -/
def Event.notTx : Event → Bool
  | .xfer _ r => decide (radioState r ≠ Config.cc1101.msTx)
  | _ => true

theorem neverInTx_run :
    (runOp (sendPacket []) neverInTx).resp = some ⟨.ok, []⟩ ∧
      (newEvents neverInTx (runOp (sendPacket []) neverInTx)).all Event.notTx = true := by decide

/-- Refutes O40: the poll of sendPacket ends at the first read outside TX and TX_END, and that read can be the first of
all; in the run of `neverInTx` no exchange gave TX. -/
theorem not_sendPacketSucceedsOnlyAfterTx : ¬ Obligations.SendPacketSucceedsOnlyAfterTx := by
  intro h
  obtain ⟨hok, hnone⟩ := neverInTx_run
  obtain ⟨v, r, hmem, htx⟩ := h neverInTx _ [] rfl rfl rfl (exec_sendPacket neverInTx []) hok
  have hnot : Event.notTx (.xfer v r) = true := List.all_eq_true.1 hnone _ hmem
  exact of_decide_eq_true hnot htx

end Sys2Proof.Machine
end

