-- ==== Sys2Proof/Proofs/SetterIndependence.lean ====
section
/-! PROOFS. The four setters run as plans of frames (R190 to R198), and each changes its own sub-field only, in the
shadows and in every byte it sends to the modem register (R197). -/

namespace Sys2Proof.Machine

/-! ### Instructions that are a plan of frames -/

/-- From `s` the instruction runs as this plan of frames from `v`. -/
def RunsPlan (i : Instr) (s v : State) (plan : List (List Byte)) : Prop :=
  ∃ x, SendsPlan x v.params plan ∧ operation i s.accept = x v.accept

theorem exec_of_runsPlan {i : Instr} {s v : State} {plan : List (List Byte)} (h : RunsPlan i s v plan) :
    ∃ fs e, followPlan plan fs e = true ∧ v.runs 0 0 fs = true ∧
      exec i s = .next (v.ends fs (framesEvents fs) (ending e)) := by
  obtain ⟨x, hsends, hop⟩ := h
  obtain ⟨fs, e, hplan, hruns⟩ := exists_planRun plan v 0 0
  exact ⟨fs, e, hplan, hruns, by rw [exec_eq_runOp, runOp_congr hop, hsends.runOp_eq hplan hruns]⟩

/-- The setters with an argument they accept (R191 to R196). -/
inductive AcceptedSetter : Instr → Prop
  | modType {x : Byte} (h : supportedModulation x = true) : AcceptedSetter (.setModType x)
  | syncMode {x : Byte} (h : supportedSyncMode x = true) : AcceptedSetter (.setSyncMode x)
  | manchester (b : Bool) : AcceptedSetter (.setManchester b)
  | dcFilter (b : Bool) : AcceptedSetter (.setDcFilter b)

/-- The frame to FREND0, after the one to MDMCFG2 (R191). -/
def frend0Plan (t : PeerTable) : Instr → List (List Byte)
  | .setModType x => [[t.regFrend0, modulationFrend0 x]]
  | _ => []

/-- The frames of a setter, in the state `v` after its shadow write (R190, R191). -/
def setterPlan (v : State) (i : Instr) : List (List Byte) :=
  [v.params.peer.regMdmcfg2, v.packed] :: frend0Plan v.params.peer i

theorem runsPlan_of_writeModem {i : Instr} {s v : State} (h : operation i s.accept = writeModem v.accept) :
    RunsPlan i s v [[v.params.peer.regMdmcfg2, v.packed]] :=
  ⟨_, (writeSingle_sends v.params _ _).sendsPlan, h.trans (writeModem_run v.accept)⟩

theorem AcceptedSetter.runsPlan {i : Instr} (h : AcceptedSetter i) (s : State) :
    RunsPlan i s (shadowWrite i s) (setterPlan (shadowWrite i s) i) := by
  cases h with
  | @modType x hx =>
    simp only [shadowWrite, hx, if_true]
    exact ⟨_, (writeSingle_sends _ _ _).followedBy (writeFrend0_sends _ _).sendsPlan,
      setModulationType_supported hx s.accept⟩
  | @syncMode x hx =>
    simp only [shadowWrite, hx, if_true]
    exact runsPlan_of_writeModem (v := s.setSyncmode x) (setSyncMode_supported hx s.accept)
  | manchester b => exact runsPlan_of_writeModem (v := s.setManchester (manchesterShadow b)) rfl
  | dcFilter b => exact runsPlan_of_writeModem (v := s.setDcfilter (dcfilterShadow b)) rfl

/-! ### The bytes sent after a register address -/

section
variable (a : Byte) (es : List Event)

theorem bytesAfter_cs (c : Bool) : bytesAfter a (.cs c :: es) = bytesAfter a es := rfl

theorem bytesAfter_readyEvents (w : Nat) : bytesAfter a (readyEvents w ++ es) = bytesAfter a es := by
  induction w with
  | zero => rfl
  | succ w ih => exact ih

theorem bytesAfter_timeoutEvents : ∀ n : Nat, bytesAfter a (timeoutEvents n ++ es) = bytesAfter a es
  | 0 | 1 => rfl
  | n + 2 => bytesAfter_timeoutEvents (n + 1)

end

/-- A frame of an address and one byte sends no other byte after its address. -/
theorem mem_bytesAfter_frame {s : State} {nb nx : Nat} {f : FrameRun} {a b v x : Byte} {es : List Event}
    (hsent : f.sent = [b, v]) (hf : s.runsFrame nb nx f = true) (hx : x ∈ bytesAfter a (f.events ++ es)) :
    [a, x] = f.sent ∨ x ∈ bytesAfter a es := by
  obtain ⟨-, -, hend⟩ := (runsFrame_iff s nb nx f).1 hf
  obtain ⟨sent, w, got, ending⟩ := f
  obtain rfl : sent = [b, v] := hsent
  have hpair {rest : List Byte} (h : x ∈ (if b = a then [v] else []) ++ rest) : [a, x] = [b, v] ∨ x ∈ rest := by
    refine (List.mem_append.1 h).imp_left fun hv => ?_
    by_cases hb : b = a
    · rw [if_pos hb, List.mem_singleton] at hv
      rw [hb, hv]
    · rw [if_neg hb] at hv
      cases hv
  cases hend with
  | notReady =>
    simp only [FrameRun.events, List.cons_append, List.append_assoc] at hx
    refine .inr ?_
    rwa [bytesAfter_cs, bytesAfter_timeoutEvents] at hx
  | complete _ _ hgot =>
    obtain ⟨r0, r1, rfl⟩ := List.length_eq_two.1 hgot
    simp only [FrameRun.events, List.cons_append, List.append_assoc] at hx
    rw [bytesAfter_cs, bytesAfter_readyEvents] at hx
    exact hpair hx
  | broken _ _ hgot =>
    simp only [FrameRun.events, List.cons_append, List.append_assoc] at hx
    rw [bytesAfter_cs, bytesAfter_readyEvents] at hx
    match got, hgot with
    | [], _ => exact .inr hx
    | [r0], _ => exact hpair hx

/-- A plan of such frames sends no other byte after an address than the plan says. -/
theorem mem_bytesAfter_plan {plan : List (List Byte)} {s : State} {nb nx : Nat} {fs : List FrameRun} {e : Option Err}
    {a x : Byte} (hpairs : ∀ bytes ∈ plan, bytes.length = 2) (hplan : followPlan plan fs e = true)
    (hruns : s.runs nb nx fs = true) (hx : x ∈ bytesAfter a (framesEvents fs)) : [a, x] ∈ plan := by
  induction fs generalizing plan nb nx with
  | nil => cases hx
  | cons f fs ih =>
    cases plan with
    | nil => cases hplan
    | cons bytes plan =>
      simp only [State.runs, Bool.and_eq_true] at hruns
      simp only [followPlan, Bool.and_eq_true, decide_eq_true_eq] at hplan
      obtain ⟨rfl, hrest⟩ := hplan
      obtain ⟨b, v, hsent⟩ := List.length_eq_two.1 (hpairs f.sent List.mem_cons_self)
      rw [framesEvents_cons] at hx
      rcases mem_bytesAfter_frame hsent hruns.1 hx with heq | hlater
      · exact heq ▸ List.mem_cons_self
      · split at hrest
        · exact List.mem_cons_of_mem _ (ih (fun c hc => hpairs c (List.mem_cons_of_mem _ hc)) hrest hruns.2 hlater)
        · obtain ⟨rfl, -⟩ := by simpa only [Bool.and_eq_true, decide_eq_true_eq] using hrest
          cases hlater

/-! ### A setter whose argument is refused (R272) -/

theorem runOp_of_raise {op : Op (List Byte)} {s : State} {e : Err} (h : op s.accept = raise e s.accept) :
    (runOp op s).trace = s.trace ++ if s.cs then [.cs false] else [] := by
  have hrest : op s.accept = (raise e >>= fun d => (pure d : Op (List Byte))) s.accept := h
  rw [runOp_congr hrest, errorsReleaseAndAnswer]

/-- A refused argument sends nothing. -/
theorem bytesAfter_refused (a : Byte) {i : Instr} {s t : State} (hi : invalidArgument s.params i = true)
    (h : exec i s = .next t) : bytesAfter a (newEvents s t) = [] := by
  rw [exec_eq_runOp] at h
  cases h
  rw [newEvents, runOp_of_raise (operation_of_invalidArgument (s := s.accept) hi), List.drop_left]
  cases s.cs <;> rfl

/-! ### The packed byte of a setter (R40, R197) -/

/-- Two packed bytes agree wherever the bits that a mask keeps agree. -/
theorem packed_xor_and {s v : State} {mask : Byte}
    (h : ∀ k < 8, mask.getLsbD k = true → v.packed.getLsbD k = s.packed.getLsbD k) :
    (v.packed ^^^ s.packed) &&& mask = 0 := by
  refine BitVec.eq_of_getLsbD_eq fun k hk => ?_
  rw [BitVec.getLsbD_and, BitVec.getLsbD_xor]
  cases hm : mask.getLsbD k with
  | false => simp
  | true => simp [h k hk hm]

/-- The bits of a setter's field, cleared (R40). -/
def othersMask : Instr → Byte
  | .setModType _ => 0x8F
  | .setSyncMode _ => 0xF8
  | .setManchester _ => 0xF7
  | _ => 0x7F

/-- R197: a shadow write leaves the bits of the other fields as they are. -/
theorem AcceptedSetter.packed_others {i : Instr} (h : AcceptedSetter i) (s : State) :
    ((shadowWrite i s).packed ^^^ s.packed) &&& othersMask i = 0 := by
  obtain ⟨hmt, hsy, hma, hdc⟩ := shadowWrite_others i s
  refine packed_xor_and fun k hk hmask => ?_
  rw [packed_getLsbD _ hk, packed_getLsbD _ hk]
  cases h with
  | modType =>
    have hbits : ∀ k < 8, (0x8F : Byte).getLsbD k = true → k = 7 ∨ k < 4 := by decide
    have hother := hbits k hk hmask
    rw [hdc nofun, hma nofun, hsy nofun]
    split_ifs
    · rfl
    · omega
    · rfl
    · rfl
  | syncMode =>
    have hbits : ∀ k < 8, (0xF8 : Byte).getLsbD k = true → 3 ≤ k := by decide
    have hother := hbits k hk hmask
    rw [hdc nofun, hma nofun, hmt nofun]
    split_ifs
    · rfl
    · rfl
    · rfl
    · omega
  | manchester =>
    have hbits : ∀ k < 8, (0xF7 : Byte).getLsbD k = true → k ≠ 3 := by decide
    rw [hdc nofun, hsy nofun, hmt nofun, if_neg (hbits k hk hmask), if_neg (hbits k hk hmask)]
  | dcFilter =>
    have hbits : ∀ k < 8, (0x7F : Byte).getLsbD k = true → k ≠ 7 := by decide
    rw [hma nofun, hsy nofun, hmt nofun, if_neg (hbits k hk hmask), if_neg (hbits k hk hmask)]

theorem setterPlan_cc1101 {v : State} (hpeer : v.params.peer = Config.cc1101) (i : Instr) :
    setterPlan v i = [0x12, v.packed] :: frend0Plan Config.cc1101 i := by
  rw [setterPlan, hpeer]
  rfl

/-- R15: FREND0 is another register than MDMCFG2. -/
theorem not_mem_frend0Plan (i : Instr) (x : Byte) : [0x12, x] ∉ frend0Plan Config.cc1101 i := by
  cases i with
  | setModType y => simp [frend0Plan, Config.cc1101]
  | _ => exact List.not_mem_nil

theorem mem_setterPlan {v : State} {i : Instr} {x : Byte} (hpeer : v.params.peer = Config.cc1101)
    (hx : [0x12, x] ∈ setterPlan v i) : x = v.packed := by
  rw [setterPlan_cc1101 hpeer, List.mem_cons, or_iff_left (not_mem_frend0Plan i x)] at hx
  simpa using hx

theorem setterPlan_pairs (v : State) (i : Instr) : ∀ bytes ∈ setterPlan v i, bytes.length = 2 := by
  rw [setterPlan, List.forall_mem_cons]
  refine ⟨rfl, ?_⟩
  cases i with
  | setModType y => exact List.forall_mem_singleton.2 rfl
  | _ => exact List.forall_mem_nil _

theorem AcceptedSetter.sends_packed {i : Instr} (h : AcceptedSetter i) {s t : State}
    (hpeer : s.params.peer = Config.cc1101) (hexec : exec i s = .next t) :
    ∀ v ∈ bytesAfter 0x12 (newEvents s t), (v ^^^ s.packed) &&& othersMask i = 0 := by
  intro x hx
  have hsame := shadowWrite_sameButShadows i s
  obtain ⟨fs, e, hplan, hruns, hrun⟩ := exec_of_runsPlan (h.runsPlan s)
  rw [hexec] at hrun
  cases hrun
  rw [newEvents, ends_trace, hsame.trace, List.drop_left] at hx
  have hmem := mem_bytesAfter_plan (setterPlan_pairs _ i) hplan hruns hx
  rw [mem_setterPlan (by rw [hsame.params, hpeer]) hmem]
  exact h.packed_others s

/-- A setter's bytes to the modem register, whether its argument is accepted or refused. -/
theorem setter_bytesAfter {i : Instr} {s t : State} (hpeer : s.params.peer = Config.cc1101)
    (hexec : exec i s = .next t) (hi : AcceptedSetter i ∨ invalidArgument s.params i = true) :
    ∀ v ∈ bytesAfter 0x12 (newEvents s t), (v ^^^ s.packed) &&& othersMask i = 0 := by
  rcases hi with haccepted | hrefused
  · exact haccepted.sends_packed hpeer hexec
  · intro v hv
    rw [bytesAfter_refused 0x12 hrefused hexec] at hv
    cases hv

theorem setModType_accepted_or_refused (p : Params) (x : Byte) :
    AcceptedSetter (.setModType x) ∨ invalidArgument p (.setModType x) = true := by
  cases hx : supportedModulation x with
  | true => exact .inl (.modType hx)
  | false => exact .inr ((invalidArgument_setModType_iff p x).2 hx)

theorem setSyncMode_accepted_or_refused (p : Params) (x : Byte) :
    AcceptedSetter (.setSyncMode x) ∨ invalidArgument p (.setSyncMode x) = true := by
  cases hx : supportedSyncMode x with
  | true => exact .inl (.syncMode hx)
  | false => exact .inr ((invalidArgument_setSyncMode_iff p x).2 hx)

/-- Settles O27: the shadows by the frame of every operation, and the bytes by the setter's plan. -/
theorem settersAreIndependent : Obligations.SettersAreIndependent := by
  intro s t hpeer
  refine ⟨fun x h => ⟨?_, setter_bytesAfter hpeer h (setModType_accepted_or_refused s.params x)⟩,
    fun x h => ⟨?_, setter_bytesAfter hpeer h (setSyncMode_accepted_or_refused s.params x)⟩,
    fun b h => ⟨?_, setter_bytesAfter hpeer h (.inl (.manchester b))⟩,
    fun b h => ⟨?_, setter_bytesAfter hpeer h (.inl (.dcFilter b))⟩⟩ <;>
    obtain ⟨-, -, hmt, hsy, hma, hdc⟩ := shadowsAreWrittenBySettersOnly _ s t h
  · exact ⟨hdc nofun, hma nofun, hsy nofun⟩
  · exact ⟨hdc nofun, hmt nofun, hma nofun⟩
  · exact ⟨hdc nofun, hmt nofun, hsy nofun⟩
  · exact ⟨hmt nofun, hma nofun, hsy nofun⟩

end Sys2Proof.Machine
end

