-- ==== Sys2Proof/Proofs/RegisterStore.lean ====
section
/-! PROOFS. Claims under the simulated register store of 95_test_vectors, a premise about the peer (R312): what the
store holds after an operation that answers OK (R190, R205, R315). -/

namespace Sys2Proof.Machine

/-! ### Operations that answer OK -/

/-- These frames are the plan, each of them completed. -/
inductive Completes : List (List Byte) → List FrameRun → Prop
  | nil : Completes [] []
  | cons {f : FrameRun} {plan : List (List Byte)} {fs : List FrameRun} (hending : f.ending = .complete)
      (hgot : f.got.length = f.sent.length) (hrest : Completes plan fs) : Completes (f.sent :: plan) (f :: fs)

theorem got_length_of_complete {s : State} {nb nx : Nat} {f : FrameRun} (hf : s.runsFrame nb nx f = true)
    (hc : f.ending = .complete) : f.got.length = f.sent.length := by
  obtain ⟨-, -, hend⟩ := (runsFrame_iff s nb nx f).1 hf
  rw [hc] at hend
  cases hend
  assumption

/-- R278: a plan whose answer is OK has completed every frame. -/
theorem completes_of_ok {plan : List (List Byte)} {s : State} {nb nx : Nat} {fs : List FrameRun} {e : Option Err}
    (hplan : followPlan plan fs e = true) (hruns : s.runs nb nx fs = true) (hok : (ending e).err = .ok) :
    Completes plan fs := by
  induction fs generalizing plan nb nx with
  | nil =>
    cases plan with
    | nil => exact .nil
    | cons => cases hplan
  | cons f fs ih =>
    cases plan with
    | nil => cases hplan
    | cons bytes plan =>
      simp only [State.runs, Bool.and_eq_true] at hruns
      simp only [followPlan, Bool.and_eq_true, decide_eq_true_eq] at hplan
      obtain ⟨rfl, hrest⟩ := hplan
      by_cases hc : f.ending = .complete
      · rw [if_pos hc] at hrest
        exact .cons hc (got_length_of_complete hruns.1 hc) (ih hrest hruns.2)
      · rw [if_neg hc, Bool.and_eq_true, decide_eq_true_eq, decide_eq_true_eq] at hrest
        rw [hrest.2] at hok
        cases hf : f.ending with
        | complete => exact absurd hf hc
        | notReady | broken => rw [hf] at hok; cases hok

theorem exec_of_runsPlan_ok {i : Instr} {s v t : State} {plan : List (List Byte)} (h : RunsPlan i s v plan)
    (hexec : exec i s = .next t) (hok : t.resp = some ⟨.ok, []⟩) :
    ∃ fs, Completes plan fs ∧ t = v.ends fs (framesEvents fs) ⟨.ok, []⟩ := by
  obtain ⟨fs, e, hplan, hruns, hrun⟩ := exec_of_runsPlan h
  rw [hexec] at hrun
  cases hrun
  rw [ends_resp] at hok
  have hending : ending e = ⟨.ok, []⟩ := Option.some.inj hok
  exact ⟨fs, completes_of_ok hplan hruns (congrArg Response.err hending), by rw [hending]⟩

/-- An instruction that answers OK has accepted its argument. -/
theorem accepted_of_ok {i : Instr} {s t : State} {d : List Byte} (hexec : exec i s = .next t)
    (hok : t.resp = some ⟨.ok, d⟩) : ¬ invalidArgument s.params i = true := by
  intro hi
  have hraise : operation i s.accept = (raise .invalidArgument : Op (List Byte)) s.accept :=
    operation_of_invalidArgument hi
  rw [exec_eq_runOp, runOp, hraise] at hexec
  cases hexec
  cases hok

/-! ### What the store holds after a frame -/

theorem follow_readyEvents (w : Nat) (es : List Event) (p : SimPeer) :
    SimPeer.follow (readyEvents w ++ es) p = SimPeer.follow es p := by
  induction w with
  | zero => rfl
  | succ w ih => exact ih

/-- The bytes the peer has seen of the open frame. -/
def SimPeer.withFrame (p : SimPeer) (bytes : List Byte) : SimPeer := { p with frame := bytes }

@[simp] theorem withFrame_withFrame (p : SimPeer) (b c : List Byte) : (p.withFrame b).withFrame c = p.withFrame c := rfl

/-- The store after the data bytes `vs` of a frame with header `h`, from the `k`-th on. -/
def SimPeer.writes (h : Byte) : Nat → List Byte → SimPeer → SimPeer
  | _, [], p => p
  | k, v :: vs, p => SimPeer.writes h (k + 1) vs (p.data h k v)

theorem data_withFrame (p : SimPeer) (h : Byte) (k : Nat) (b : Byte) (bytes : List Byte) :
    (p.withFrame bytes).data h k b = (p.data h k b).withFrame bytes := by
  unfold SimPeer.data
  split_ifs <;> rfl

theorem follow_cs_true (es : List Event) (p : SimPeer) :
    SimPeer.follow (.cs true :: es) p = SimPeer.follow es (p.withFrame []) := rfl

/-- Releasing chip-select after a frame of two bytes or more closes it. -/
theorem follow_cs_false (es : List Event) (p : SimPeer) (h v : Byte) (vs : List Byte) :
    SimPeer.follow (.cs false :: es) (p.withFrame (h :: v :: vs)) = SimPeer.follow es (p.withFrame []) := rfl

/-- What the store does with a byte of a frame, after the header: a read must be given its answer. -/
theorem event_xfer (h : Byte) (sent : List Byte) (b r : Byte) (p : SimPeer) :
    (p.withFrame (h :: sent)).event (.xfer b r) =
      if simRead h && (p.answer h sent.length).any (fun a => a != r) then none
      else some (((p.withFrame (h :: sent)).data h sent.length b).withFrame (h :: sent ++ [b])) := rfl

/-- The store accepts every answer to a byte written, and takes it. -/
theorem follow_xfer_write {h : Byte} (hw : simRead h = false) (sent : List Byte) (b r : Byte) (es : List Event)
    (p : SimPeer) :
    SimPeer.follow (.xfer b r :: es) (p.withFrame (h :: sent)) =
      SimPeer.follow es ((p.data h sent.length b).withFrame (h :: sent ++ [b])) := by
  rw [SimPeer.follow, event_xfer, hw, Bool.false_and, if_neg Bool.false_ne_true, data_withFrame, withFrame_withFrame]
  rfl

/-- The store gives a read its own answer, where it has one. -/
theorem follow_xfer_read {h : Byte} (hr : simRead h = true) {sent : List Byte} {b r a : Byte} {es : List Event}
    {p q : SimPeer} (ha : p.answer h sent.length = some a)
    (hfollow : SimPeer.follow (.xfer b r :: es) (p.withFrame (h :: sent)) = some q) :
    r = a ∧ SimPeer.follow es ((p.data h sent.length b).withFrame (h :: sent ++ [b])) = some q := by
  rw [SimPeer.follow, event_xfer, hr, ha, Bool.true_and, Option.any_some, data_withFrame,
    withFrame_withFrame] at hfollow
  by_cases har : a = r
  · subst har
    rw [bne_self_eq_false, if_neg Bool.false_ne_true] at hfollow
    exact ⟨rfl, hfollow⟩
  · rw [if_pos (bne_iff_ne.2 har)] at hfollow
    cases hfollow

theorem follow_writes {h : Byte} (hw : simRead h = false) (vs got : List Byte) (hlen : got.length = vs.length)
    (sent : List Byte) (es : List Event) (p : SimPeer) :
    SimPeer.follow (exchangeEvents vs got ++ es) (p.withFrame (h :: sent)) =
      SimPeer.follow es ((p.writes h sent.length vs).withFrame (h :: sent ++ vs)) := by
  induction vs generalizing got sent p with
  | nil => rw [List.append_nil]; rfl
  | cons v vs ih =>
    obtain ⟨r, got, rfl⟩ := List.exists_cons_of_length_eq_add_one hlen
    have hrest := ih got (Nat.succ.inj hlen) (sent ++ [v]) (p.data h sent.length v)
    rw [List.length_append] at hrest
    refine (follow_xfer_write hw sent v r _ p).trans (hrest.trans ?_)
    rw [List.append_cons (h :: sent)]
    rfl

/-- A frame of two bytes or more that writes (R91). -/
inductive WriteFrame : List Byte → Prop
  | mk {h v : Byte} {vs : List Byte} (hw : simRead h = false) : WriteFrame (h :: v :: vs)

/-- The store after a frame of these bytes. -/
def SimPeer.took (p : SimPeer) : List Byte → SimPeer
  | [] => p
  | h :: vs => (p.writes h 0 vs).withFrame []

theorem follow_writeFrame {f : FrameRun} (hf : WriteFrame f.sent) (hc : f.ending = .complete)
    (hlen : f.got.length = f.sent.length) (es : List Event) (p : SimPeer) :
    SimPeer.follow (f.events ++ es) p = SimPeer.follow es (p.took f.sent) := by
  obtain ⟨sent, w, got, ending⟩ := f
  obtain rfl : ending = .complete := hc
  cases hf with
  | @mk h v vs hw =>
    obtain ⟨r, got, rfl⟩ := List.exists_cons_of_length_eq_add_one hlen
    have hheader : SimPeer.follow (exchangeEvents (h :: v :: vs) (r :: got) ++ (.cs false :: es)) (p.withFrame []) =
        SimPeer.follow (exchangeEvents (v :: vs) got ++ (.cs false :: es)) (p.withFrame [h]) := rfl
    simp only [FrameRun.events, List.cons_append, List.append_assoc, List.nil_append]
    rw [follow_cs_true, follow_readyEvents, hheader, follow_writes hw (v :: vs) got (Nat.succ.inj hlen)]
    exact follow_cs_false es _ h v vs

/-- The store after the frames of a plan that writes. -/
theorem follow_plan {plan : List (List Byte)} {fs : List FrameRun} (hfs : Completes plan fs)
    (hplan : ∀ bytes ∈ plan, WriteFrame bytes) (es : List Event) (p : SimPeer) :
    SimPeer.follow (framesEvents fs ++ es) p = SimPeer.follow es (plan.foldl SimPeer.took p) := by
  induction hfs generalizing p with
  | nil => rfl
  | cons hending hgot _ ih =>
    rw [framesEvents_cons, List.append_assoc, follow_writeFrame (hplan _ List.mem_cons_self) hending hgot,
      ih fun bytes hb => hplan bytes (List.mem_cons_of_mem _ hb)]
    rfl

/-! ### Reading the store -/

theorem reg_of_getElem? {p : SimPeer} {a v : Byte} (h : p.regs[a.toNat]? = some v) : p.reg a = v := by
  rw [SimPeer.reg, List.getD_eq_getElem?_getD, h]
  rfl

section
variable (p : SimPeer) (m v : Byte)

/-- A single write to MDMCFG2. -/
theorem took_mdmcfg2 : (p.took [0x12, m]).regs = p.regs.set 0x12 m ∧ (p.took [0x12, m]).power = p.power := ⟨rfl, rfl⟩

/-- A single write to FREND0. -/
theorem took_frend0 : (p.took [0x22, v]).regs = p.regs.set 0x22 v ∧ (p.took [0x22, v]).power = p.power := ⟨rfl, rfl⟩

/-- The power table written in one burst of eight bytes (R246). -/
theorem took_powerTable (hp : p.power.length = 8) :
    (p.took (0x7E :: powerTable v)).regs = p.regs ∧ (p.took (0x7E :: powerTable v)).power = powerTable v := by
  match h : p.power, hp with
  | [a0, a1, a2, a3, a4, a5, a6, a7], _ =>
    refine ⟨rfl, ?_⟩
    change (((((((p.power.set 0 v).set 1 0).set 2 0).set 3 0).set 4 0).set 5 0).set 6 0).set 7 0 = _
    rw [h]
    rfl

/-- The frequency word written in one burst of three bytes (R201, R202). -/
theorem took_freq (b2 b1 b0 : Byte) :
    (p.took [0x4D, b2, b1, b0]).regs = ((p.regs.set 0x0D b2).set 0x0E b1).set 0x0F b0 := rfl

end

/-! ### One operation after another -/

/-- The events of an operation are those it adds to the trace. -/
theorem exec_trace {i : Instr} {s t : State} (h : exec i s = .next t) : t.trace = s.trace ++ newEvents s t := by
  obtain ⟨n, hhalts⟩ := halts_of_exec h
  have hgrows : ∃ es, t.trace = s.trace ++ es := by
    refine hhalts.induction (P := fun v => ∃ es, v.trace = s.trace ++ es) (fun {v u} hv _ htick => ?_)
      ⟨[], ((shadowWrite_sameButShadows i s.accept).trace).trans (List.append_nil _).symm⟩
    obtain ⟨es, hes⟩ := hv
    rcases tick_cases htick with ⟨e, w, l, rx, hact, rfl⟩ | ⟨r, -, rfl⟩
    · exact ⟨es ++ [e], by rw [atSeq_trace, hact.trace, hes, List.append_assoc]⟩
    · exact ⟨es, hes⟩
  obtain ⟨es, hes⟩ := hgrows
  rw [newEvents, hes, List.drop_left]

theorem newEvents_trans {i j : Instr} {s t u : State} (h : exec i s = .next t) (g : exec j t = .next u) :
    newEvents s u = newEvents s t ++ newEvents t u := by
  have hu : u.trace = s.trace ++ (newEvents s t ++ newEvents t u) := by
    rw [exec_trace g, exec_trace h, List.append_assoc]
  rw [newEvents, hu, List.drop_left]

/-- After an instruction that is a plan of writes and answers OK, the store has taken the plan's frames. -/
theorem follow_of_runsPlan {i : Instr} {s v t : State} {plan : List (List Byte)} (h : RunsPlan i s v plan)
    (hv : v.trace = s.trace) (hwrites : ∀ bytes ∈ plan, WriteFrame bytes) (hexec : exec i s = .next t)
    (hok : t.resp = some ⟨.ok, []⟩) (es : List Event) (p : SimPeer) :
    SimPeer.follow (newEvents s t ++ es) p = SimPeer.follow es (plan.foldl SimPeer.took p) := by
  obtain ⟨fs, hfs, rfl⟩ := exec_of_runsPlan_ok h hexec hok
  rw [newEvents, ends_trace, hv, List.drop_left, follow_plan hfs hwrites]

theorem exec_params {i : Instr} {s t : State} (h : exec i s = .next t) : t.params = s.params :=
  (shadowsAreWrittenBySettersOnly i s t h).1

/-! ### The setters (R190, R197) -/

theorem writeFrame_frend0Plan (i : Instr) : ∀ bytes ∈ frend0Plan Config.cc1101 i, WriteFrame bytes := by
  cases i with
  | setModType x => exact List.forall_mem_singleton.2 (.mk rfl)
  | _ => exact List.forall_mem_nil _

/-- A setter's packed byte is that of the state it ends in. -/
theorem packed_of_exec {i : Instr} {s t : State} (h : exec i s = .next t) : t.packed = (shadowWrite i s).packed := by
  obtain ⟨-, -, hdc, hmt, hma, hsy⟩ := exec_sameFixed h
  have hstart : (start i s).packed = (shadowWrite i s).packed := by
    cases i with
    | setModType | setSyncMode =>
      rw [start_eq_atSeq]
      simp only [shadowWrite]
      split <;> rfl
    | _ => rfl
  rw [← hstart, State.packed, State.packed, hdc, hmt, hma, hsy]

theorem AcceptedSetter.follow {i : Instr} (h : AcceptedSetter i) {s t : State} (hpeer : s.params.peer = Config.cc1101)
    (hexec : exec i s = .next t) (hok : t.resp = some ⟨.ok, []⟩) (es : List Event) (p : SimPeer) :
    SimPeer.follow (newEvents s t ++ es) p =
      SimPeer.follow es ((frend0Plan Config.cc1101 i).foldl SimPeer.took (p.took [0x12, t.packed])) := by
  have hsame := shadowWrite_sameButShadows i s
  have hplan := h.runsPlan s
  rw [setterPlan_cc1101 (by rw [hsame.params, hpeer]), ← packed_of_exec hexec] at hplan
  exact follow_of_runsPlan hplan hsame.trace (List.forall_mem_cons.2 ⟨.mk rfl, writeFrame_frend0Plan i⟩) hexec hok es p

theorem setter_accepted_of_ok {i : Instr} {s t : State} {d : List Byte} (hexec : exec i s = .next t)
    (hok : t.resp = some ⟨.ok, d⟩) (hi : AcceptedSetter i ∨ invalidArgument s.params i = true) : AcceptedSetter i :=
  hi.resolve_right (accepted_of_ok hexec hok)

section
variable {p : SimPeer} (m v : Byte) (hregs : p.regs.length = 48)
include hregs

theorem reg_took_mdmcfg2 : (p.took [0x12, m]).reg 0x12 = m := by
  refine reg_of_getElem? ?_
  rw [(took_mdmcfg2 p m).1]
  simp [hregs]

theorem reg_took_frend0 : (p.took [0x22, v]).reg 0x22 = v := by
  refine reg_of_getElem? ?_
  rw [(took_frend0 p v).1]
  simp [hregs]

/-- A write to FREND0 leaves MDMCFG2 as it was. -/
theorem reg_took_mdmcfg2_frend0 : ((p.took [0x12, m]).took [0x22, v]).reg 0x12 = m := by
  refine reg_of_getElem? ?_
  rw [(took_frend0 _ v).1, (took_mdmcfg2 p m).1]
  simp [hregs]

end

/-- Settles O54: the frames of the setter, and what the store's two registers are after them. -/
theorem settersSynchroniseTheStore : Obligations.SettersSynchroniseTheStore := by
  intro i s t p q hpeer _ hregs hexec hok hfollow
  have hstore (h : AcceptedSetter i) :
      q = (frend0Plan Config.cc1101 i).foldl SimPeer.took (p.took [0x12, t.packed]) := by
    have hall := h.follow hpeer hexec hok [] p
    rw [List.append_nil, hfollow] at hall
    exact Option.some.inj hall
  cases i with
  | setModType x =>
    rw [hstore (setter_accepted_of_ok hexec hok (setModType_accepted_or_refused _ x))]
    refine ⟨reg_took_mdmcfg2_frend0 _ _ hregs, reg_took_frend0 (p := p.took [0x12, t.packed]) _ ?_⟩
    rw [(took_mdmcfg2 p _).1, List.length_set, hregs]
  | setSyncMode x =>
    rw [hstore (setter_accepted_of_ok hexec hok (setSyncMode_accepted_or_refused _ x))]
    exact reg_took_mdmcfg2 _ hregs
  | setManchester b =>
    rw [hstore (.manchester b)]
    exact reg_took_mdmcfg2 _ hregs
  | setDcFilter b =>
    rw [hstore (.dcFilter b)]
    exact reg_took_mdmcfg2 _ hregs
  | _ => trivial

/-! ### setModulationType and setTxPower (R315) -/

/-- The store has its 48 registers and its eight power-table entries. -/
structure Sized (p : SimPeer) : Prop where
  regs : p.regs.length = 48
  power : p.power.length = 8

section
variable {p : SimPeer} (h : Sized p) (m v : Byte)
include h

theorem sized_took_mdmcfg2 : Sized (p.took [0x12, m]) := by
  obtain ⟨hregs, hpower⟩ := took_mdmcfg2 p m
  exact ⟨by rw [hregs, List.length_set, h.regs], by rw [hpower, h.power]⟩

theorem sized_took_frend0 : Sized (p.took [0x22, v]) := by
  obtain ⟨hregs, hpower⟩ := took_frend0 p v
  exact ⟨by rw [hregs, List.length_set, h.regs], by rw [hpower, h.power]⟩

theorem sized_took_powerTable : Sized (p.took (0x7E :: powerTable v)) := by
  obtain ⟨hregs, hpower⟩ := took_powerTable p v h.power
  exact ⟨by rw [hregs, h.regs], by rw [hpower]; rfl⟩

/-- After setModulationType and then setTxPower. -/
theorem modType_then_txPower (f l : Byte) :
    ((((p.took [0x12, m]).took [0x22, f]).took (0x7E :: powerTable l)).took [0x22, v]).reg 0x22 = v ∧
      ((((p.took [0x12, m]).took [0x22, f]).took (0x7E :: powerTable l)).took [0x22, v]).power = powerTable l := by
  have hsized := sized_took_frend0 (sized_took_mdmcfg2 h m) f
  refine ⟨reg_took_frend0 v (sized_took_powerTable hsized l).regs, ?_⟩
  rw [(took_frend0 _ v).2, (took_powerTable _ l hsized.power).2]

/-- After setTxPower and then setModulationType. -/
theorem txPower_then_modType (f l : Byte) :
    ((((p.took (0x7E :: powerTable l)).took [0x22, f]).took [0x12, m]).took [0x22, v]).reg 0x22 = v ∧
      ((((p.took (0x7E :: powerTable l)).took [0x22, f]).took [0x12, m]).took [0x22, v]).power = powerTable l := by
  have hsized := sized_took_mdmcfg2 (sized_took_frend0 (sized_took_powerTable h l) f) m
  refine ⟨reg_took_frend0 v hsized.regs, ?_⟩
  rw [(took_frend0 _ v).2, (took_mdmcfg2 _ m).2, (took_frend0 _ f).2, (took_powerTable p l h.power).2]

end

/-- R246, R247: the frames of setTxPower with the CC1101's addresses. -/
theorem setTxPower_follow {level : BitVec 16} {s t : State} (hpeer : s.params.peer = Config.cc1101)
    (hexec : exec (.setTxPower level) s = .next t) (hok : t.resp = some ⟨.ok, []⟩) (es : List Event) (p : SimPeer) :
    SimPeer.follow (newEvents s t ++ es) p =
      SimPeer.follow es ((p.took (0x7E :: powerTable (level.setWidth 8))).took [0x22, 0x10]) := by
  have hlevel : level.toNat ≤ 0xFF :=
    Nat.not_lt.1 fun h => accepted_of_ok hexec hok ((invalidArgument_setTxPower_iff _ level).2 h)
  have hplan : RunsPlan (.setTxPower level) s s [0x7E :: powerTable (level.setWidth 8), [0x22, 0x10]] := by
    have hsends := setTxPower_sends hlevel s.params
    rw [hpeer, BitVec.ofNat_toNat] at hsends
    exact ⟨_, hsends, rfl⟩
  have hwrites : ∀ bytes ∈ [0x7E :: powerTable (level.setWidth 8), [0x22, 0x10]], WriteFrame bytes :=
    List.forall_mem_cons.2 ⟨.mk rfl, List.forall_mem_singleton.2 (.mk rfl)⟩
  exact follow_of_runsPlan hplan rfl hwrites hexec hok es p

/-- Settles O56: in both orders the last frame is the second operation's write to FREND0, and no other writes the power
table. -/
theorem lastFrend0WriteWins : Obligations.LastFrend0WriteWins := by
  intro s t u x level p q hpeer _ hregs hpower hokt hoku hfollow
  refine ⟨fun hmod htx => ?_, fun htx hmod => ?_⟩
  · have hsetter := setter_accepted_of_ok hmod hokt (setModType_accepted_or_refused _ x)
    rw [newEvents_trans hmod htx, hsetter.follow hpeer hmod hokt, ← List.append_nil (newEvents t u),
      setTxPower_follow (by rw [exec_params hmod, hpeer]) htx hoku] at hfollow
    cases hfollow
    exact modType_then_txPower ⟨hregs, hpower⟩ t.packed 0x10 (modulationFrend0 x) (level.setWidth 8)
  · have hsetter := setter_accepted_of_ok hmod hoku (setModType_accepted_or_refused _ x)
    rw [newEvents_trans htx hmod, setTxPower_follow hpeer htx hokt, ← List.append_nil (newEvents t u),
      hsetter.follow (by rw [exec_params htx, hpeer]) hmod hoku] at hfollow
    cases hfollow
    exact txPower_then_modType ⟨hregs, hpower⟩ u.packed (modulationFrend0 x) 0x10 (level.setWidth 8)

/-! ### setFrequency and getFrequency (R205, example W2) -/

/-- R201, R202: the frame of setFrequency with the CC1101's addresses. -/
theorem setFrequency_follow {hz : BitVec 32} {s t : State} (hpeer : s.params.peer = Config.cc1101)
    (hexec : exec (.setFrequency hz) s = .next t) (hok : t.resp = some ⟨.ok, []⟩) (es : List Event) (p : SimPeer) :
    SimPeer.follow (newEvents s t ++ es) p =
      SimPeer.follow es (p.took (0x4D :: freqBytes (freqEncode s.params.fXosc hz.toNat))) := by
  have hw : freqEncode s.params.fXosc hz.toNat < 2 ^ 24 :=
    Nat.not_le.1 fun h => accepted_of_ok hexec hok ((invalidArgument_setFrequency_iff _ hz).2 h)
  have hplan : RunsPlan (.setFrequency hz) s s [0x4D :: freqBytes (freqEncode s.params.fXosc hz.toNat)] := by
    have hsends := setFrequency_sends hw
    rw [hpeer] at hsends
    exact ⟨_, hsends.sendsPlan, rfl⟩
  exact follow_of_runsPlan hplan rfl (List.forall_mem_singleton.2 (.mk rfl)) hexec hok es p

/-- The three registers after the frequency word was written. -/
theorem freqRegs_took {p : SimPeer} (hregs : p.regs.length = 48) (b2 b1 b0 : Byte) :
    (p.took [0x4D, b2, b1, b0]).regs[0x0D]? = some b2 ∧ (p.took [0x4D, b2, b1, b0]).regs[0x0E]? = some b1 ∧
      (p.took [0x4D, b2, b1, b0]).regs[0x0F]? = some b0 := by
  rw [took_freq]
  simp [hregs]

/-- A burst read of the three frequency registers returns what they hold (R204). -/
theorem freqRead_of_follow {f : FrameRun} {d b2 b1 b0 : Byte} {p q : SimPeer} (hsent : f.sent = [0xCD, d, d, d])
    (hc : f.ending = .complete) (hlen : f.got.length = f.sent.length) (h2 : p.regs[0x0D]? = some b2)
    (h1 : p.regs[0x0E]? = some b1) (h0 : p.regs[0x0F]? = some b0) (hfollow : SimPeer.follow f.events p = some q) :
    f.got.drop 1 = [b2, b1, b0] := by
  obtain ⟨sent, w, got, ending⟩ := f
  obtain rfl : ending = .complete := hc
  obtain rfl : sent = [0xCD, d, d, d] := hsent
  match got, hlen with
  | [r, r2, r1, r0], _ =>
    have hdata : SimPeer.follow [.xfer d r2, .xfer d r1, .xfer d r0, .cs false] (p.withFrame [0xCD]) = some q := by
      simp only [FrameRun.events] at hfollow
      rw [List.append_assoc, follow_cs_true, follow_readyEvents] at hfollow
      exact hfollow
    obtain ⟨rfl, hdata⟩ := follow_xfer_read (h := 0xCD) (p := p) (sent := []) (a := b2) rfl h2 hdata
    obtain ⟨rfl, hdata⟩ := follow_xfer_read (h := 0xCD) (p := p) (sent := [d]) (a := b1) rfl h1 hdata
    obtain ⟨rfl, -⟩ := follow_xfer_read (h := 0xCD) (p := p) (sent := [d, d]) (a := b0) rfl h0 hdata
    rfl

/-- R204: getFrequency that answers OK is one frame, whose data phase is the answer. -/
theorem getFrequency_ok {s t : State} {d : List Byte} (hexec : exec .getFrequency s = .next t)
    (hok : t.resp = some ⟨.ok, d⟩) :
    ∃ f : FrameRun, f.sent = [hdr s.params.peer.regFreq2 s.params.peer.readBurstBits, s.params.dummyByte,
        s.params.dummyByte, s.params.dummyByte] ∧ f.ending = .complete ∧ f.got.length = f.sent.length ∧
      d = f.got.drop 1 ∧ newEvents s t = f.events := by
  obtain ⟨f, hsent, hf⟩ := exists_frameRun s 0 0 [hdr s.params.peer.regFreq2 s.params.peer.readBurstBits,
    s.params.dummyByte, s.params.dummyByte, s.params.dummyByte]
  have hruns : s.runs 0 0 [f] = true := by rw [State.runs, hf]; rfl
  rw [getFrequencyReads s f hsent hruns] at hexec
  cases hexec
  rw [ends_resp, FrameRun.reply] at hok
  cases hc : f.ending with
  | complete =>
    rw [hc] at hok
    cases hok
    exact ⟨f, hsent, hc, got_length_of_complete hf hc, rfl, by rw [newEvents, ends_trace, List.drop_left]⟩
  | notReady | broken => rw [hc] at hok; cases hok

/-- Settles O55: the store takes the word's three bytes, and gives them back. -/
theorem frequencyReadsBackFromTheStore : Obligations.FrequencyReadsBackFromTheStore := by
  intro s t u hz p q d hpeer hpos _ hregs hset hokt hget hoku hfollow
  have hw : freqEncode s.params.fXosc hz.toNat < 2 ^ 24 :=
    Nat.not_le.1 fun h => accepted_of_ok hset hokt ((invalidArgument_setFrequency_iff _ hz).2 h)
  obtain ⟨f, hsent, hc, hlen, rfl, hevents⟩ := getFrequency_ok hget hoku
  rw [exec_params hset, hpeer] at hsent
  rw [newEvents_trans hset hget, setFrequency_follow hpeer hset hokt, hevents, freqBytes_eq_div] at hfollow
  obtain ⟨h2, h1, h0⟩ := freqRegs_took hregs _ _ _
  refine ⟨_, _, _, freqRead_of_follow hsent hc hlen h2 h1 h0 hfollow, freqWord_freqBytes hw, ?_⟩
  rw [freqWord_freqBytes hw]
  exact freqDecode_freqEncode hz.toNat hpos

end Sys2Proof.Machine
end
